-- ==== Sys2Proof/Word.lean ====
section
/-! DEFINITION. The engine's words: bytes, 32-bit registers, bus addresses and BGRA pixels
(spec/00_scope.md R10, spec/20_memory.md R60, spec/42_swizzle.md R180). -/

namespace Sys2Proof

/-- `u8` of 00_scope.md R10. -/
abbrev Byte := BitVec 8

/-- `u32` of 00_scope.md R10; every register of the window is one. -/
abbrev Word := BitVec 32

/-- A bus address, `ADDR_WIDTH` = 32 bits (00_scope.md R8); its arithmetic wraps mod 2^32
(20_memory.md R66). -/
abbrev Addr := BitVec 32

/-- A non-premultiplied BGRA pixel; on the bus its bytes stand in this order at ascending
addresses (20_memory.md R63, 42_swizzle.md R180). -/
structure Pixel where
  b : Byte
  g : Byte
  r : Byte
  a : Byte
  deriving DecidableEq, Repr, Inhabited

end Sys2Proof
end

