-- ==== Sys2Proof/Syntax.lean ====
section
/-! DEFINITION. The commands of the engine: one constructor per row of spec/opcode_table.json
(spec/30_encoding.md R81 to R83). -/

namespace Sys2Proof

/-- The 14 commands with the operand fields of their forms (30_encoding.md R81, R82): form B has
`imm8`, form L a byte count `len`, form K the bit `k` (1 = critical), form N an entry count `n`. -/
inductive Instr where
  /-- NOP, form Z (43_system.md R220). -/
  | nop
  /-- CRC_INIT, form Z (40_checksum.md R106). -/
  | crcInit
  /-- CRC_BYTE, form B (40_checksum.md R107). -/
  | crcByte (imm8 : Byte)
  /-- CRC_MEM, form L (40_checksum.md R108). -/
  | crcMem (len : BitVec 24)
  /-- CRC_CHECK, form K (40_checksum.md R110). -/
  | crcCheck (k : Bool)
  /-- ADLER_INIT, form Z (40_checksum.md R111). -/
  | adlerInit
  /-- ADLER_BYTE, form B (40_checksum.md R112). -/
  | adlerByte (imm8 : Byte)
  /-- ADLER_MEM, form L (40_checksum.md R113). -/
  | adlerMem (len : BitVec 24)
  /-- ADLER_CHECK, form K (40_checksum.md R114). -/
  | adlerCheck (k : Bool)
  /-- PASS_BEGIN, form Z (41_filter.md R150). -/
  | passBegin
  /-- UNFILTER_BYTE, form B (41_filter.md R151). -/
  | unfilterByte (imm8 : Byte)
  /-- UNFILTER, form L (41_filter.md R152). -/
  | unfilter (len : BitVec 24)
  /-- PAL_LOAD, form N (42_swizzle.md R192). -/
  | palLoad (n : BitVec 9)
  /-- SWIZZLE_ROW, form Z (42_swizzle.md R193). -/
  | swizzleRow
  deriving DecidableEq, Repr

end Sys2Proof
end

