-- ==== Sys2Proof/WellFormed.lean ====
section
/-! DEFINITION. Which commands are well formed: the value checks of an operand
(spec/30_encoding.md R81, R86 step 4). -/

namespace Sys2Proof

/-- The operand's value check, "which is only PAL_LOAD's `n`" (30_encoding.md R86): legal entry
counts are 1 to 256 (R81). An ill-formed PAL_LOAD still has a word and a meaning, the fault
E_BAD_CMD (R84). -/
def Instr.wf : Instr → Bool
  | .palLoad n => decide (n ≠ 0#9) && decide (n ≤ 256#9)
  | .nop | .crcInit | .crcByte _ | .crcMem _ | .crcCheck _ | .adlerInit | .adlerByte _
  | .adlerMem _ | .adlerCheck _ | .passBegin | .unfilterByte _ | .unfilter _ | .swizzleRow => true

end Sys2Proof
end

