-- ==== Sys2Proof/Decode.lean ====
section
/-! DEFINITION. The decoder of a word written to CMD, total on all 2^32 words and rejecting by name
(spec/30_encoding.md R80 to R86), and after it the encoder, written from the same tables. -/

namespace Sys2Proof

/-- The operand forms of 30_encoding.md R81. -/
inductive Form where
  | z | b | l | k | n
  deriving DecidableEq, Repr

/-- The defined opcodes of 30_encoding.md R83. -/
inductive Opcode where
  | nop | crcInit | crcByte | crcMem | crcCheck
  | adlerInit | adlerByte | adlerMem | adlerCheck
  | passBegin | unfilterByte | unfilter
  | palLoad | swizzleRow
  deriving DecidableEq, Repr

/-- Why a word is illegal (30_encoding.md R84). -/
inductive DecodeError where
  /-- OP is not in the table of R83. -/
  | undefinedOpcode (op : Byte)
  /-- OP is defined and a reserved operand bit of its form is 1. -/
  | reservedBits (o : Opcode)
  deriving DecidableEq, Repr

/-- The mask of a form's fixed bits, OP among them (30_encoding.md R81). -/
def Form.mask : Form → Word
  | .z => 0xFFFFFFFF#32
  | .b => 0xFFFFFF00#32
  | .l => 0xFF000000#32
  | .k => 0xFFFFFFFE#32
  | .n => 0xFFFFFE00#32

/-- OP of each command (30_encoding.md R83). -/
def Opcode.number : Opcode → Byte
  | .nop => 0x00#8
  | .crcInit => 0x01#8
  | .crcByte => 0x02#8
  | .crcMem => 0x03#8
  | .crcCheck => 0x04#8
  | .adlerInit => 0x08#8
  | .adlerByte => 0x09#8
  | .adlerMem => 0x0A#8
  | .adlerCheck => 0x0B#8
  | .passBegin => 0x10#8
  | .unfilterByte => 0x11#8
  | .unfilter => 0x12#8
  | .palLoad => 0x18#8
  | .swizzleRow => 0x19#8

/-- The form of each command (30_encoding.md R83). -/
def Opcode.form : Opcode → Form
  | .nop | .crcInit | .adlerInit | .passBegin | .swizzleRow => .z
  | .crcByte | .adlerByte | .unfilterByte => .b
  | .crcMem | .adlerMem | .unfilter => .l
  | .crcCheck | .adlerCheck => .k
  | .palLoad => .n

/-- Every defined opcode, in the order of 30_encoding.md R83. -/
def Opcode.all : List Opcode :=
  [.nop, .crcInit, .crcByte, .crcMem, .crcCheck, .adlerInit, .adlerByte, .adlerMem, .adlerCheck,
   .passBegin, .unfilterByte, .unfilter, .palLoad, .swizzleRow]

/-- `OP << 24`, the value of the fixed bits of a command's word (30_encoding.md R83). -/
def Opcode.word (o : Opcode) : Word := o.number ++ 0#24

/-- Bits 31:24 of a word (30_encoding.md R80). -/
def opField (w : Word) : Byte := w.extractLsb' 24 8

/-- `imm8 = w[7:0]` (30_encoding.md R82). -/
def imm8Field (w : Word) : Byte := w.extractLsb' 0 8

/-- `len = w[23:0]` (30_encoding.md R82). -/
def lenField (w : Word) : BitVec 24 := w.extractLsb' 0 24

/-- `k = w[0]` (30_encoding.md R82). -/
def kField (w : Word) : Bool := w.getLsbD 0

/-- `n = w[8:0]` (30_encoding.md R82). -/
def nField (w : Word) : BitVec 9 := w.extractLsb' 0 9

/-- The defined opcode with number `op`, if there is one (30_encoding.md R86 step 2). -/
def opcodeOf (op : Byte) : Option Opcode := Opcode.all.find? fun o => o.number == op

/-- The command of an opcode, with the operand fields of `w` (30_encoding.md R82). -/
def Opcode.instr (o : Opcode) (w : Word) : Instr :=
  match o with
  | .nop => .nop
  | .crcInit => .crcInit
  | .crcByte => .crcByte (imm8Field w)
  | .crcMem => .crcMem (lenField w)
  | .crcCheck => .crcCheck (kField w)
  | .adlerInit => .adlerInit
  | .adlerByte => .adlerByte (imm8Field w)
  | .adlerMem => .adlerMem (lenField w)
  | .adlerCheck => .adlerCheck (kField w)
  | .passBegin => .passBegin
  | .unfilterByte => .unfilterByte (imm8Field w)
  | .unfilter => .unfilter (lenField w)
  | .palLoad => .palLoad (nField w)
  | .swizzleRow => .swizzleRow

/-- Steps 2 and 3 of 30_encoding.md R86: OP is looked up, then the reserved bits of the form are
checked, `w & mask = OP << 24` (R83). -/
def decode (w : Word) : Except DecodeError Instr :=
  match opcodeOf (opField w) with
  | none => .error (.undefinedOpcode (opField w))
  | some o => if w &&& o.form.mask = o.word then .ok (o.instr w) else .error (.reservedBits o)

/-- The command of a row of spec/opcode_table.json whose bits are `w`: every row has 32 bits, one
register write, so a number of more bits than `nbits` (at most 32) is no such row. -/
def decodeTableWord (nbits w : Nat) : Option Instr :=
  if nbits ≤ 32 ∧ w < 2 ^ nbits then
    match decode (BitVec.ofNat 32 w) with
    | .ok i => some i
    | .error _ => none
  else none

/-- The opcode of a command (30_encoding.md R83). -/
def Instr.opcode : Instr → Opcode
  | .nop => .nop
  | .crcInit => .crcInit
  | .crcByte _ => .crcByte
  | .crcMem _ => .crcMem
  | .crcCheck _ => .crcCheck
  | .adlerInit => .adlerInit
  | .adlerByte _ => .adlerByte
  | .adlerMem _ => .adlerMem
  | .adlerCheck _ => .adlerCheck
  | .passBegin => .passBegin
  | .unfilterByte _ => .unfilterByte
  | .unfilter _ => .unfilter
  | .palLoad _ => .palLoad
  | .swizzleRow => .swizzleRow

/-- The operand field, bits 23:0, of a command: its operand at the low end, reserved bits 0
(30_encoding.md R81, R82). -/
def Instr.operandField : Instr → BitVec 24
  | .crcByte v | .adlerByte v | .unfilterByte v => v.setWidth 24
  | .crcMem len | .adlerMem len | .unfilter len => len
  | .crcCheck k | .adlerCheck k => (BitVec.ofBool k).setWidth 24
  | .palLoad n => n.setWidth 24
  | .nop | .crcInit | .adlerInit | .passBegin | .swizzleRow => 0#24

/-- The word of a command: OP in bits 31:24, the operand field below it (30_encoding.md R80). -/
def encode (i : Instr) : Word := i.opcode.number ++ i.operandField

end Sys2Proof
end

