-- ==== Sys2Proof/Machine/State.lean ====
section
/-! DEFINITION. The engine's state as plain data (spec/10_state.md), the state after reset, and the
reasons a step of the model can stop. -/

namespace Sys2Proof.Machine

/-- CTRL without the write-one bit SOFT_RESET, which holds nothing (10_state.md R21). -/
structure Ctrl where
  /-- Bit 1, the quirk `ignore_checksum` (40_checksum.md R104). -/
  ignoreChecksum : Bool
  /-- Bit 2, the Adler tap (40_checksum.md R115). -/
  adlerTap : Bool
  /-- Bit 3, the interrupt enable (60_exceptions.md R240). -/
  errIe : Bool
  deriving DecidableEq, Repr

/-- STATUS without the mirror bit IRQ, which is computed (10_state.md R22). -/
structure Status where
  /-- Bit 0, sticky until reset. -/
  err : Bool
  /-- Bit 1. -/
  errAddrValid : Bool
  /-- Bit 2, the result of the last CRC_CHECK. -/
  crcMatch : Bool
  /-- Bit 3, the result of the last ADLER_CHECK. -/
  adlerMatch : Bool
  /-- Bit 4, sticky until reset. -/
  chkLog : Bool
  /-- Bits 15:8, the fault code (60_exceptions.md R230). -/
  errCode : Byte
  deriving DecidableEq, Repr

/-- The fields of FMT that are not reserved (10_state.md R33); they hold illegal values too. The same
four fields, latched, are L_DEPTH, L_CT, L_DSTFMT and L_BLEND (R40). -/
structure Fmt where
  /-- Bits 4:0 SRC_DEPTH. -/
  srcDepth : BitVec 5
  /-- Bits 10:8 SRC_CT. -/
  srcCt : BitVec 3
  /-- Bits 17:16 DST_FMT. -/
  dstFmt : BitVec 2
  /-- Bit 20 BLEND: 0 = SRC, 1 = SRC_OVER. -/
  blend : BitVec 1
  deriving DecidableEq, Repr

/-- The latched pass state, written only by PASS_BEGIN and by reset (10_state.md R40). -/
structure Latch where
  /-- L_WIDTH. -/
  width : Word
  /-- L_ROWS. -/
  rows : Word
  /-- L_CT, L_DEPTH, L_DSTFMT and L_BLEND. -/
  fmt : Fmt
  /-- L_STRIDE. -/
  stride : Word
  /-- L_XSTEP. -/
  xstep : Word
  /-- L_BPP, an integer. -/
  bpp : Nat
  /-- L_ROW_BYTES, an integer. -/
  rowBytes : Nat
  /-- L_D, the filter distance. -/
  dist : Nat
  deriving DecidableEq, Repr

/-- F_PHASE (10_state.md R41). -/
inductive Phase where
  | idle | awaitFilter | inRow | done
  deriving DecidableEq, Repr

/-- F_TYPE, 0 to 4 (10_state.md R41; 41_filter.md R145, R146). -/
inductive FilterType where
  | none | sub | up | average | paeth
  deriving DecidableEq, Repr

/-- The row state machine of the filter unit (10_state.md R41). -/
structure Filt where
  /-- F_PHASE. -/
  phase : Phase
  /-- F_TYPE. -/
  ftype : FilterType
  /-- F_X. -/
  x : Word
  /-- F_ROW. -/
  row : Word
  /-- F_FIRST. -/
  first : Bool
  deriving DecidableEq, Repr

/-- The kind of a bus access (00_scope.md R8). -/
inductive AccessKind where
  | read | write
  deriving DecidableEq, Repr

/-- A range of bus addresses, `lo` to `hi - 1`, in which accesses of one kind do not complete. -/
structure Refused where
  lo : Nat
  hi : Nat
  kind : AccessKind
  deriving DecidableEq, Repr

/-- The platform's OPEN parameters that are plain data (00_scope.md R8): `MemAdmit`, given by the
accesses it refuses, and `MAX_ROW_BYTES`. No step changes them, so a statement about every state holds
for every platform (notes/assumptions/5.md, 6.md). -/
structure Platform where
  refused : List Refused
  maxRowBytes : Nat
  deriving DecidableEq, Repr

/-- The width of a host access to the window; only 32-bit accesses are in the spec
(20_memory.md R62, 43_system.md R225). -/
inductive AccessWidth where
  | w8 | w16 | w32
  deriving DecidableEq, Repr

/-- What the outside does to the engine, one event a step (00_scope.md R14). -/
inductive HostEvent where
  /-- A register write at a window offset: `MmioWrite(off, v)` (43_system.md R221). -/
  | write (off : Nat) (width : AccessWidth) (v : Word)
  /-- A register read at a window offset: `MmioRead(off)` (43_system.md R222). -/
  | read (off : Nat) (width : AccessWidth)
  /-- A byte another agent stores in bus memory, made visible between two commands
  (20_memory.md R71; notes/assumptions/2.md). -/
  | store (a : Addr) (v : Byte)
  /-- The platform's power-on reset input (70_reset_and_hazards.md R260; notes/assumptions/3.md). -/
  | powerOnReset
  deriving DecidableEq, Repr

/-- The engine, its bus memory, its platform, and the host's events still to come. -/
structure State where
  /-- CTRL (R21). -/
  ctrl : Ctrl
  /-- STATUS (R22). -/
  status : Status
  /-- ERR_ADDR (R23). -/
  errAddr : Addr
  /-- CRC, a finished value (R25). -/
  crc : Word
  /-- ADLER (R26). -/
  adler : Word
  /-- SRC_ADDR (R27). -/
  srcAddr : Addr
  /-- DST_ADDR (R28). -/
  dstAddr : Addr
  /-- DST_STRIDE (R29). -/
  dstStride : Word
  /-- DST_XSTEP (R30). -/
  dstXstep : Word
  /-- WIDTH (R31). -/
  width : Word
  /-- ROWS (R32). -/
  rows : Word
  /-- FMT (R33). -/
  fmt : Fmt
  /-- PAL[0] to PAL[255] (R39). -/
  pal : Vector Word 256
  /-- The latched pass state (R40). -/
  latch : Latch
  /-- The row state machine (R41). -/
  filt : Filt
  /-- CUR: the bytes written so far, by index; an index not listed has no value
  (R42; notes/assumptions/8.md). -/
  cur : List Host.Cell
  /-- PREV, likewise (R42). -/
  prev : List Host.Cell
  /-- The bus address space (20_memory.md R60; notes/assumptions/7.md). -/
  mem : List Host.Cell
  /-- The platform's parameters (00_scope.md R8). -/
  platform : Platform
  /-- The MODEL's own field: the host events still to come (notes/assumptions/1.md). -/
  inbox : List HostEvent
  /-- The MODEL's own field: the value the last host read returned (00_scope.md R15 (a);
  notes/assumptions/12.md). -/
  readData : Word
  /-- The MODEL's own field: the bus writes the engine has performed, newest first
  (00_scope.md R15 (b); notes/assumptions/12.md). -/
  busLog : List Host.Cell
  deriving DecidableEq, Repr

/-- Why the model stops although no engine fault is taken. The engine's own faults are states
(60_exceptions.md R233), not stops. No run from reset reaches any of these (93_implementation_defined.md
U3, P5; notes/assumptions/8.md, 9.md). -/
inductive Fault where
  /-- Raised by a filter step or a row end that reads an element of CUR or PREV that nothing has
  written: "a read of an unwritten byte would be fault (a modelling error, never reached)"
  (93_implementation_defined.md U3). Safe. -/
  | rowByteUnwritten
  /-- Raised by a filter step at an index of CUR at or above `MAX_ROW_BYTES`, an element that does not
  exist (10_state.md R42). Safe. -/
  | rowIndexOutOfRange
  /-- Raised by a row emission under a latched format that check_config never admits, or that needs a
  byte beyond its row (41_filter.md R143, 42_swizzle.md R181). Safe. -/
  | noSuchConversion
  deriving DecidableEq, Repr

/-- Why the model gives an event no meaning. -/
inductive Refusal where
  /-- Raised by an arm of `exec` for a command without a meaning; no arm is one. Safe. -/
  | notModelled (mnemonic : String)
  /-- Raised by a host access that is not a 32-bit access at a multiple of 4 inside the window: "A
  model has no step for them" (43_system.md R225, 93_implementation_defined.md P11). Safe for claims
  about the engine, whose host "must never make one"; see notes/assumptions/4.md. -/
  | hostAccessOutsideModel
  deriving DecidableEq, Repr

/-- The platform at reset, as the vectors of 95_test_vectors.md take it where they state no other:
"`MemAdmit` true everywhere and `MAX_ROW_BYTES = 64`". DESIGN CHOICE
(notes/assumptions/5.md, 6.md). -/
def Platform.reset : Platform where
  refused := []
  maxRowBytes := 64

/-- The state after reset (10_state.md R49). The model's own fields and the bus memory are empty
(notes/assumptions/1.md, 7.md, 12.md). -/
def State.reset : State where
  ctrl := ⟨false, false, false⟩
  status := ⟨false, false, false, false, false, 0x00#8⟩
  errAddr := 0x00000000#32
  crc := 0x00000000#32
  adler := 0x00000001#32
  srcAddr := 0x00000000#32
  dstAddr := 0x00000000#32
  dstStride := 0x00000000#32
  dstXstep := 0x00000000#32
  width := 0x00000000#32
  rows := 0x00000000#32
  fmt := ⟨0#5, 0#3, 0#2, 0#1⟩
  pal := Vector.replicate 256 0xFF000000#32
  latch := ⟨0#32, 0#32, ⟨0#5, 0#3, 0#2, 0#1⟩, 0#32, 0#32, 0, 0, 0⟩
  filt := ⟨.idle, .none, 0#32, 0#32, true⟩
  cur := []
  prev := []
  mem := []
  platform := Platform.reset
  inbox := []
  readData := 0x00000000#32
  busLog := []

end Sys2Proof.Machine
end

