-- ==== Sys2Proof/Machine/Ops.lean ====
section
/-! DEFINITION. The named operations: fault codes and fault entry (the engine's exception), reset (its
only return), byte-addressed stores, one-byte bus accesses, and how a command runs or ends
(spec/00_scope.md R11, R12; spec/20_memory.md; spec/60_exceptions.md; spec/43_system.md R224). -/

namespace Sys2Proof.Machine

/-- The fault codes by name (60_exceptions.md R230). -/
inductive ErrCode where
  | badCmd | bus | badCrc | badAdler | badFormat | unsupported | rowTooLong | noPass | badFilter
  | passOverrun
  deriving DecidableEq, Repr

/-- The value of STATUS.ERR_CODE for a fault code (60_exceptions.md R230). -/
def ErrCode.number : ErrCode → Byte
  | .badCmd => 0x01#8
  | .bus => 0x02#8
  | .badCrc => 0x03#8
  | .badAdler => 0x04#8
  | .badFormat => 0x05#8
  | .unsupported => 0x06#8
  | .rowTooLong => 0x07#8
  | .noPass => 0x08#8
  | .badFilter => 0x09#8
  | .passOverrun => 0x0A#8

/-! ## Taking a fault, and leaving it -/

/-- Fault entry, `Fault(code, addr)` of 60_exceptions.md R233: it sets the four fields that record the
fault and nothing else. -/
def State.enterFault (s : State) (code : ErrCode) (addr : Option Addr) : State :=
  { s with
    status := { s.status with
      err := true
      errCode := code.number
      errAddrValid := addr.isSome }
    errAddr := addr.getD 0#32 }

/-- The IRQ output, `STATUS.ERR & CTRL.ERR_IE` (60_exceptions.md R240). -/
def State.irq (s : State) : Bool := s.status.err && s.ctrl.errIe

/-- Reset of "every piece of state to the values of 10_state.md rule R49" (43_system.md R224), the only
return from a fault (60_exceptions.md R237). The bus memory, the platform and the model's own fields
are not the engine's and stay (notes/assumptions/3.md). -/
def State.resetEngine (s : State) : State :=
  { State.reset with
    mem := s.mem
    platform := s.platform
    inbox := s.inbox
    readData := s.readData
    busLog := s.busLog }

/-! ## Stores of bytes by key -/

/-- The byte listed at a key, if there is one. -/
def cellsGet : List Host.Cell → Nat → Option Byte
  | [], _ => none
  | (k, v) :: rest, a => if k = a then some v else cellsGet rest a

/-- The list with byte `v` at key `a`, in its place by key. -/
def cellsPut : List Host.Cell → Nat → Byte → List Host.Cell
  | [], a, v => [(a, v)]
  | (k, w) :: rest, a, v =>
    if a < k then (a, v) :: (k, w) :: rest
    else if a = k then (a, v) :: rest
    else (k, w) :: cellsPut rest a v

/-- The list with nothing at key `a`. -/
def cellsDrop (m : List Host.Cell) (a : Nat) : List Host.Cell := m.filter fun c => c.1 != a

/-- The canonical form of a list of cells: keys strictly rising. -/
abbrev cellsRising (m : List Host.Cell) : Prop := m.Pairwise fun c d => c.1 < d.1

/-! ## The bus memory -/

/-- What a byte of bus memory that nothing has written reads as: "Memory not listed reads 0"
(95_test_vectors.md). DESIGN CHOICE (notes/assumptions/7.md). -/
def memUnlisted : Byte := 0x00#8

/-- The byte at an address of the bus memory. -/
def Memory.read (m : List Host.Cell) (a : Nat) : Byte := (cellsGet m a).getD memUnlisted

/-- The bus memory after a byte is stored; the canonical form lists no unlisted value. -/
def Memory.write (m : List Host.Cell) (a : Nat) (v : Byte) : List Host.Cell :=
  if v = memUnlisted then cellsDrop m a else cellsPut m a v

/-- The canonical form of the bus memory: addresses strictly rising, below 2^32, and no entry equal to
what an unlisted address reads as. -/
abbrev Memory.wf (m : List Host.Cell) : Prop :=
  cellsRising m ∧ ∀ c ∈ m, c.1 < 2 ^ 32 ∧ c.2 ≠ memUnlisted

/-! ## The row buffers -/

/-- Element `i` of CUR or PREV, if it has been written (10_state.md R42). -/
def RowBuf.get (buf : List Host.Cell) (i : Nat) : Option Byte := cellsGet buf i

/-- `CUR[i] <- v` or `PREV[i] <- v`. -/
def RowBuf.put (buf : List Host.Cell) (i : Nat) (v : Byte) : List Host.Cell := cellsPut buf i v

/-- The elements `i` to `i + n - 1`, if every one has been written. -/
def RowBuf.slice (buf : List Host.Cell) : Nat → Nat → Option (List Byte)
  | _, 0 => some []
  | i, n + 1 =>
    match RowBuf.get buf i, RowBuf.slice buf (i + 1) n with
    | some v, some vs => some (v :: vs)
    | _, _ => none

/-- The buffer after `vs` is stored from element `i` on, in ascending order. -/
def RowBuf.putRow (buf : List Host.Cell) : Nat → List Byte → List Host.Cell
  | _, [] => buf
  | i, v :: vs => RowBuf.putRow (RowBuf.put buf i v) (i + 1) vs

/-- The canonical form of a row buffer of a platform: indexes strictly rising and below
`MAX_ROW_BYTES` (10_state.md R42). -/
abbrev RowBuf.wf (maxRowBytes : Nat) (buf : List Host.Cell) : Prop :=
  cellsRising buf ∧ ∀ c ∈ buf, c.1 < maxRowBytes

/-! ## How a command runs -/

/-- What a piece of a command's pseudocode comes to. Everything done before an `ended` stays done, and
nothing after it is (00_scope.md R12). -/
inductive Res (α : Type) where
  /-- It went through, with a value and the state it left. -/
  | ok (a : α) (s : State)
  /-- A fault was entered and the command ends in this state. -/
  | ended (s : State)
  /-- The model stops. -/
  | stuck (f : Fault)
  deriving DecidableEq

/-- One piece of pseudocode after another. -/
def Res.bind {α β : Type} (r : Res α) (k : α → State → Res β) : Res β :=
  match r with
  | .ok a s => k a s
  | .ended s => .ended s
  | .stuck f => .stuck f

/-- The outcome of a whole command: a fault of the engine is a next state (60_exceptions.md R233). -/
def Res.toOutcome (r : Res Unit) : Host.Outcome State Fault Refusal :=
  match r with
  | .ok _ s => .next s
  | .ended s => .next s
  | .stuck f => .fault f

/-- `raise Fault(code, addr)` (00_scope.md R11). -/
def raise {α : Type} (code : ErrCode) (addr : Option Addr) (s : State) : Res α :=
  .ended (s.enterFault code addr)

/-- `for i in 0 .. n-1` from index `i` on: ascending, and nothing when no index is left
(00_scope.md R11). -/
def forRange (body : Nat → State → Res Unit) : Nat → Nat → State → Res Unit
  | _, 0, s => .ok () s
  | i, n + 1, s => (body i s).bind fun _ s' => forRange body (i + 1) n s'

/-! ## One-byte bus accesses -/

/-- `MemAdmit(addr, kind)` (00_scope.md R8, 20_memory.md R65). -/
def Platform.admits (p : Platform) (a : Addr) (k : AccessKind) : Bool :=
  !(p.refused.any fun r => r.kind == k && decide (r.lo ≤ a.toNat) && decide (a.toNat < r.hi))

/-- `MemRead(addr, 1)` (00_scope.md R11): the byte at `addr`, or E_BUS with the address; a read has no
side effect (20_memory.md R65, R67). -/
def busRead (a : Addr) (s : State) : Res Byte :=
  if s.platform.admits a .read then .ok (Memory.read s.mem a.toNat) s
  else raise .bus (some a) s

/-- `MemWrite(addr, 1, v)` (00_scope.md R11): stores the byte, or E_BUS with the address and no byte
changed (20_memory.md R65). -/
def busWrite (a : Addr) (v : Byte) (s : State) : Res Unit :=
  if s.platform.admits a .write then
    .ok () { s with
      mem := Memory.write s.mem a.toNat v
      busLog := (a.toNat, v) :: s.busLog }
  else raise .bus (some a) s

end Sys2Proof.Machine
end

