-- ==== Sys2Proof/Machine/Flags.lean ====
section
/-! DEFINITION. The flag computations: the MATCH and CHK_LOG bits a check writes, and the words of the
registers that software reads whole (spec/10_state.md R21, R22, R33, R34; spec/40_checksum.md R104,
R105, R110). -/

namespace Sys2Proof.Machine

/-- A mismatch is fatal "exactly when `k = 1` and CTRL.IGNORE_CHECKSUM = 0" (40_checksum.md R105). -/
def mismatchFatal (k : Bool) (c : Ctrl) : Bool := k && !c.ignoreChecksum

/-- STATUS.CRC_MATCH <- v (10_state.md R22). -/
def State.setCrcMatch (s : State) (v : Bool) : State :=
  { s with status := { s.status with crcMatch := v } }

/-- STATUS.ADLER_MATCH <- v (10_state.md R22). -/
def State.setAdlerMatch (s : State) (v : Bool) : State :=
  { s with status := { s.status with adlerMatch := v } }

/-- STATUS.CHK_LOG <- 1, sticky until reset (10_state.md R22, 60_exceptions.md R239). -/
def State.setChkLog (s : State) : State := { s with status := { s.status with chkLog := true } }

/-- CTRL as the host reads it (10_state.md R21): SOFT_RESET and the reserved bits read 0. -/
def ctrlWord (c : Ctrl) : Word :=
  0#28 ++ BitVec.ofBool c.errIe ++ BitVec.ofBool c.adlerTap ++ BitVec.ofBool c.ignoreChecksum ++ 0#1

/-- CTRL after a host write without SOFT_RESET (43_system.md R221). -/
def ctrlOfWord (v : Word) : Ctrl where
  ignoreChecksum := v.getLsbD 1
  adlerTap := v.getLsbD 2
  errIe := v.getLsbD 3

/-- STATUS as the host reads it (10_state.md R22), with the level of the IRQ output in bit 5. -/
def statusWord (st : Status) (irq : Bool) : Word :=
  0#16 ++ st.errCode ++ 0#2 ++ BitVec.ofBool irq ++ BitVec.ofBool st.chkLog ++
    BitVec.ofBool st.adlerMatch ++ BitVec.ofBool st.crcMatch ++ BitVec.ofBool st.errAddrValid ++
    BitVec.ofBool st.err

/-- FMT as the host reads it (10_state.md R33): the reserved bits read 0. -/
def fmtWord (f : Fmt) : Word :=
  0#11 ++ f.blend ++ 0#2 ++ f.dstFmt ++ 0#5 ++ f.srcCt ++ 0#3 ++ f.srcDepth

/-- FMT after a host write: the fields that are not reserved take their bits (43_system.md R221). -/
def fmtOfWord (v : Word) : Fmt where
  srcDepth := v.extractLsb' 0 5
  srcCt := v.extractLsb' 8 3
  dstFmt := v.extractLsb' 16 2
  blend := v.extractLsb' 20 1

/-- F_PHASE as FSTATE shows it (10_state.md R34). -/
def phaseNumber : Phase → BitVec 2
  | .idle => 0#2
  | .awaitFilter => 1#2
  | .inRow => 2#2
  | .done => 3#2

/-- F_TYPE as FSTATE shows it (10_state.md R34). -/
def filterNumber : FilterType → BitVec 3
  | .none => 0#3
  | .sub => 1#3
  | .up => 2#3
  | .average => 3#3
  | .paeth => 4#3

/-- FSTATE as the host reads it (10_state.md R34). -/
def fstateWord (f : Filt) : Word :=
  0#26 ++ BitVec.ofBool f.first ++ filterNumber f.ftype ++ phaseNumber f.phase

end Sys2Proof.Machine
end

