-- ==== Sys2Proof/Machine/Operands.lean ====
section
/-! DEFINITION. The operands a command takes from the bus or places on it: byte runs, byte streams at
SRC_ADDR, big-endian trailers, pixels and pixel addresses (spec/00_scope.md R11; spec/20_memory.md R61,
R63, R66; spec/10_state.md R27, R30). -/

namespace Sys2Proof.Machine

/-- `MemRead(addr, n)`: `n` one-byte reads at ascending addresses mod 2^32 (00_scope.md R11). -/
def readBytes : Addr → Nat → State → Res (List Byte)
  | _, 0, s => .ok [] s
  | a, n + 1, s =>
    (busRead a s).bind fun v s =>
    (readBytes (a + 1#32) n s).bind fun vs s => .ok (v :: vs) s

/-- `MemWrite(addr, n, v)`: one-byte writes at ascending addresses mod 2^32 (00_scope.md R11). -/
def writeBytes : Addr → List Byte → State → Res Unit
  | _, [], s => .ok () s
  | a, v :: vs, s => (busWrite a v s).bind fun _ s => writeBytes (a + 1#32) vs s

/-- SRC_ADDR advanced by a count of bytes, mod 2^32 (10_state.md R27). -/
def State.advanceSrc (s : State) (n : Nat) : State :=
  { s with srcAddr := s.srcAddr + BitVec.ofNat 32 n }

/-- DST_ADDR advanced by a stride, mod 2^32 (10_state.md R28). -/
def State.advanceDst (s : State) (stride : Word) : State :=
  { s with dstAddr := s.dstAddr + stride }

/-- The loop of the byte-stream commands (40_checksum.md R108, R113; 41_filter.md R152): each byte is
read at SRC_ADDR, handled, and only then passed. -/
def streamBytes (handle : Byte → State → Res Unit) : Nat → State → Res Unit
  | 0, s => .ok () s
  | n + 1, s =>
    (busRead s.srcAddr s).bind fun v s =>
    (handle v s).bind fun _ s => streamBytes handle n (s.advanceSrc 1)

/-- A 4-byte big-endian trailer, `{t0, t1, t2, t3}` with t0 at the lowest address
(20_memory.md R63, 40_checksum.md R110). -/
def readTrailer (a : Addr) (s : State) : Res Word :=
  (busRead a s).bind fun t0 s =>
  (busRead (a + 1#32) s).bind fun t1 s =>
  (busRead (a + 2#32) s).bind fun t2 s =>
  (busRead (a + 3#32) s).bind fun t3 s => .ok (t0 ++ t1 ++ t2 ++ t3) s

/-- The bytes of a BGRA pixel in ascending address order (20_memory.md R63). -/
def pixelBytes (p : Pixel) : List Byte := [p.b, p.g, p.r, p.a]

/-- `MemRead(q, 4)` of a destination pixel (42_swizzle.md R188). -/
def readPixel (q : Addr) (s : State) : Res Pixel :=
  (busRead q s).bind fun b s =>
  (busRead (q + 1#32) s).bind fun g s =>
  (busRead (q + 2#32) s).bind fun r s =>
  (busRead (q + 3#32) s).bind fun a s => .ok ⟨b, g, r, a⟩ s

/-- `DST_ADDR + i * XSTEP`, the address of pixel `i` of a row, formed exactly and reduced mod 2^32
(10_state.md R30, 20_memory.md R66). -/
def pixelAddr (dst : Addr) (xstep : Word) (i : Nat) : Addr :=
  dst + BitVec.ofNat 32 (i * xstep.toNat)

end Sys2Proof.Machine
end

