-- ==== Sys2Proof/Machine/Checksum.lean ====
section
/-! DEFINITION. The checksum unit: CRC-32 and Adler-32 (spec/40_checksum.md R100 to R115). -/

namespace Sys2Proof.Machine

/-! ## The checksum functions -/

/-- One bit of the CRC-32 update (40_checksum.md R100). -/
def crcBit (t : Word) : Word :=
  if t.getLsbD 0 then (t >>> 1) ^^^ 0xEDB88320#32 else t >>> 1

/-- `for j in 0 .. n-1` of the CRC-32 update. -/
def crcBits : Nat → Word → Word
  | 0, t => t
  | n + 1, t => crcBits n (crcBit t)

/-- `crc32_byte(c, v)` on a finished CRC value (40_checksum.md R100). -/
def crc32Byte (c : Word) (v : Byte) : Word :=
  crcBits 8 ((c ^^^ 0xFFFFFFFF#32) ^^^ v.setWidth 32) ^^^ 0xFFFFFFFF#32

/-- `crc32(c, s)` over a byte sequence (40_checksum.md R100). -/
def crc32 (c : Word) (vs : List Byte) : Word := vs.foldl crc32Byte c

/-- The modulus of Adler-32 (40_checksum.md R102). -/
def adlerModulus : Nat := 65521

/-- `adler32_byte(a, v)`, total for every 32-bit value (40_checksum.md R102). -/
def adler32Byte (a : Word) (v : Byte) : Word :=
  let s1 := ((a.extractLsb' 0 16).toNat + v.toNat) % adlerModulus
  let s2 := ((a.extractLsb' 16 16).toNat + s1) % adlerModulus
  BitVec.ofNat 16 s2 ++ BitVec.ofNat 16 s1

/-- `adler32(a, s)` over a byte sequence (40_checksum.md R102). -/
def adler32 (a : Word) (vs : List Byte) : Word := vs.foldl adler32Byte a

/-! ## The registers -/

/-- `CRC <- crc32_byte(CRC, v)` (40_checksum.md R107). -/
def feedCrc (v : Byte) (s : State) : State := { s with crc := crc32Byte s.crc v }

/-- `ADLER <- adler32_byte(ADLER, v)` (40_checksum.md R112). -/
def feedAdler (v : Byte) (s : State) : State := { s with adler := adler32Byte s.adler v }

/-- The Adler tap: with CTRL.ADLER_TAP = 1, read live, a byte the filter unit has accepted also updates
ADLER (40_checksum.md R115, 70_reset_and_hazards.md R272). -/
def adlerTap (v : Byte) (s : State) : State := if s.ctrl.adlerTap then feedAdler v s else s

/-- What CRC_CHECK and ADLER_CHECK share (40_checksum.md R110, R114): the trailer at SRC_ADDR is read,
compared with the running value, and the MATCH bit written; a fatal mismatch leaves SRC_ADDR. -/
def checkTrailer (running : State → Word) (setMatch : State → Bool → State) (code : ErrCode)
    (k : Bool) (s : State) : Res Unit :=
  (readTrailer s.srcAddr s).bind fun expected s =>
    if expected = running s then .ok () ((setMatch s true).advanceSrc 4)
    else if mismatchFatal k s.ctrl then raise code (some s.srcAddr) (setMatch s false)
    else .ok () ((setMatch s false).setChkLog.advanceSrc 4)

/-! ## The commands -/

/-- CRC_INIT (40_checksum.md R106). -/
def execCrcInit (s : State) : Host.Outcome State Fault Refusal :=
  .next { s with crc := 0x00000000#32 }

/-- CRC_BYTE (40_checksum.md R107). -/
def execCrcByte (imm8 : Byte) (s : State) : Host.Outcome State Fault Refusal :=
  .next (feedCrc imm8 s)

/-- CRC_MEM (40_checksum.md R108). -/
def execCrcMem (len : BitVec 24) (s : State) : Host.Outcome State Fault Refusal :=
  (streamBytes (fun v s => .ok () (feedCrc v s)) len.toNat s).toOutcome

/-- CRC_CHECK (40_checksum.md R110). -/
def execCrcCheck (k : Bool) (s : State) : Host.Outcome State Fault Refusal :=
  (checkTrailer State.crc State.setCrcMatch .badCrc k s).toOutcome

/-- ADLER_INIT (40_checksum.md R111). -/
def execAdlerInit (s : State) : Host.Outcome State Fault Refusal :=
  .next { s with adler := 0x00000001#32 }

/-- ADLER_BYTE (40_checksum.md R112). -/
def execAdlerByte (imm8 : Byte) (s : State) : Host.Outcome State Fault Refusal :=
  .next (feedAdler imm8 s)

/-- ADLER_MEM (40_checksum.md R113). -/
def execAdlerMem (len : BitVec 24) (s : State) : Host.Outcome State Fault Refusal :=
  (streamBytes (fun v s => .ok () (feedAdler v s)) len.toNat s).toOutcome

/-- ADLER_CHECK (40_checksum.md R114). -/
def execAdlerCheck (k : Bool) (s : State) : Host.Outcome State Fault Refusal :=
  (checkTrailer State.adler State.setAdlerMatch .badAdler k s).toOutcome

end Sys2Proof.Machine
end

