-- ==== Sys2Proof/Config.lean ====
section
/-! DEFINITION. The OPEN parameters of spec/00_scope.md R8 that no rule gives a value or a formula:
constants with no body, so that nothing can be proved of their value. The other two OPEN parameters,
`MemAdmit` and `MAX_ROW_BYTES`, are plain data in `Machine.Platform`, an argument every statement
ranges over (notes/assumptions/5.md and 6.md). -/

namespace Sys2Proof.Config

/-- `OverFn(dst4, src4)`, the SRC_OVER blend of two BGRA pixels: "a model must take it as an
uninterpreted function" (42_swizzle.md R190; notes/assumptions/10.md). -/
opaque overFn : Pixel → Pixel → Pixel

/-- `MMIO_BASE`, where the platform places the register window in the host's address space
(00_scope.md R8, 20_memory.md R68; notes/assumptions/11.md). -/
opaque mmioBase : Nat

end Sys2Proof.Config
end

