-- ==== Sys2Proof/Machine/Format.lean ====
section
/-! DEFINITION. Source and destination formats, filter distance, row length and check_config
(spec/41_filter.md R140 to R143; spec/42_swizzle.md R180, R181). -/

namespace Sys2Proof.Machine

/-- The colour types (41_filter.md R140). -/
inductive ColourType where
  | gray | rgb | indexed | grayAlpha | rgba
  deriving DecidableEq, Repr

/-- The sample depths (41_filter.md R140). -/
inductive Depth where
  | d1 | d2 | d4 | d8 | d16
  deriving DecidableEq, Repr

/-- A source format: a colour type and a depth. -/
structure SrcFormat where
  ct : ColourType
  depth : Depth
  deriving DecidableEq, Repr

/-- The destination formats (42_swizzle.md R180). -/
inductive DstFormat where
  | raw | y8 | bgra
  deriving DecidableEq, Repr

/-- `C`, the channels per pixel (41_filter.md R140). -/
def ColourType.channels : ColourType → Nat
  | .gray => 1
  | .rgb => 3
  | .indexed => 1
  | .grayAlpha => 2
  | .rgba => 4

/-- The number of bits of a sample. -/
def Depth.bits : Depth → Nat
  | .d1 => 1
  | .d2 => 2
  | .d4 => 4
  | .d8 => 8
  | .d16 => 16

/-- SRC_CT as PNG numbers the colour types; 1, 5 and 7 are none (41_filter.md R140). -/
def colourTypeOf (ct : BitVec 3) : Option ColourType :=
  if ct = 0#3 then some .gray
  else if ct = 2#3 then some .rgb
  else if ct = 3#3 then some .indexed
  else if ct = 4#3 then some .grayAlpha
  else if ct = 6#3 then some .rgba
  else none

/-- SRC_DEPTH (10_state.md R33). -/
def depthOf (n : BitVec 5) : Option Depth :=
  if n = 1#5 then some .d1
  else if n = 2#5 then some .d2
  else if n = 4#5 then some .d4
  else if n = 8#5 then some .d8
  else if n = 16#5 then some .d16
  else none

/-- The legal pairs of 41_filter.md R140. -/
def legalPair : ColourType → Depth → Bool
  | .gray, _ => true
  | .rgb, .d8 | .rgb, .d16 => true
  | .rgb, .d1 | .rgb, .d2 | .rgb, .d4 => false
  | .indexed, .d16 => false
  | .indexed, .d1 | .indexed, .d2 | .indexed, .d4 | .indexed, .d8 => true
  | .grayAlpha, .d8 | .grayAlpha, .d16 => true
  | .grayAlpha, .d1 | .grayAlpha, .d2 | .grayAlpha, .d4 => false
  | .rgba, .d8 | .rgba, .d16 => true
  | .rgba, .d1 | .rgba, .d2 | .rgba, .d4 => false

/-- The source format of a legal (SRC_CT, SRC_DEPTH) pair, and none for any other pair
(41_filter.md R140). -/
def srcFormatOf (f : Fmt) : Option SrcFormat :=
  match colourTypeOf f.srcCt, depthOf f.srcDepth with
  | some ct, some d => if legalPair ct d then some ⟨ct, d⟩ else none
  | _, _ => none

/-- DST_FMT; 3 is reserved (42_swizzle.md R180). -/
def dstFormatOf (f : Fmt) : Option DstFormat :=
  if f.dstFmt = 0#2 then some .raw
  else if f.dstFmt = 1#2 then some .y8
  else if f.dstFmt = 2#2 then some .bgra
  else none

/-- FMT.BLEND = 1, SRC_OVER (42_swizzle.md R190). -/
def Fmt.srcOver (f : Fmt) : Bool := f.blend == 1#1

/-- `admitted(ct, dst, blend)` (42_swizzle.md R181). -/
def admitted (ct : ColourType) (dst : DstFormat) (srcOver : Bool) : Bool :=
  match dst with
  | .raw => !srcOver
  | .y8 => ct == .gray && !srcOver
  | .bgra => true

/-- Bits per pixel, `C * SRC_DEPTH` (41_filter.md R140). -/
def SrcFormat.bpp (f : SrcFormat) : Nat := f.ct.channels * f.depth.bits

/-- The filter distance `max(1, bpp div 8)` (41_filter.md R141). -/
def filterDistance (bpp : Nat) : Nat := max 1 (bpp / 8)

/-- The row length `ceil(width * bpp / 8)`, exact (41_filter.md R142). -/
def rowLength (width : Word) (bpp : Nat) : Nat := (width.toNat * bpp + 7) / 8

/-- What check_config returns (41_filter.md R143). -/
structure Geometry where
  rowBytes : Nat
  dist : Nat
  bpp : Nat
  deriving DecidableEq, Repr

/-- `check_config()` over a width, a format and `MAX_ROW_BYTES`: the checks in the order of
41_filter.md R143. -/
def checkConfig (width : Word) (f : Fmt) (maxRowBytes : Nat) : Except ErrCode Geometry :=
  match srcFormatOf f with
  | none => .error .badFormat
  | some sf =>
    match dstFormatOf f with
    | none => .error .badFormat
    | some df =>
      if admitted sf.ct df f.srcOver then
        if maxRowBytes < rowLength width sf.bpp then .error .rowTooLong
        else .ok ⟨rowLength width sf.bpp, filterDistance sf.bpp, sf.bpp⟩
      else .error .unsupported

/-- check_config on the live registers; its faults have no address (60_exceptions.md R232). -/
def liveConfig (s : State) : Res Geometry :=
  match checkConfig s.width s.fmt s.platform.maxRowBytes with
  | .ok g => .ok g s
  | .error code => raise code none s

end Sys2Proof.Machine
end

