-- ==== Sys2Proof/Machine/Emit.lean ====
section
/-! DEFINITION. Reading samples from a row, converting a pixel, and emitting a row
(spec/42_swizzle.md R182 to R190, R194, R195). -/

namespace Sys2Proof.Machine

/-- The sub-byte sample of depth `n` at pixel `i` in its byte: the leftmost pixel stands in the
high-order bits (42_swizzle.md R182). -/
def subByteSample (n i : Nat) (byte : Byte) : Byte :=
  (byte >>> (8 - n - (i * n) % 8)) &&& BitVec.ofNat 8 (2 ^ n - 1)

/-- `sample(buf, i, ch)`, a u16; none where the row has no such byte (42_swizzle.md R182). -/
def sample (f : SrcFormat) (buf : List Byte) (i ch : Nat) : Option (BitVec 16) :=
  match f.depth with
  | .d1 | .d2 | .d4 =>
    (buf[(i * f.depth.bits) / 8]?).map fun byte => (subByteSample f.depth.bits i byte).setWidth 16
  | .d8 => (buf[i * f.ct.channels + ch]?).map fun byte => byte.setWidth 16
  | .d16 =>
    match buf[2 * (i * f.ct.channels + ch)]?, buf[2 * (i * f.ct.channels + ch) + 1]? with
    | some hi, some lo => some (hi ++ lo)
    | _, _ => none

/-- `norm8(v, n)`, bit-depth normalisation of a gray or alpha sample (42_swizzle.md R183, R184). -/
def norm8 (d : Depth) (v : BitVec 16) : Byte :=
  match d with
  | .d1 => BitVec.ofNat 8 (v.toNat * 255)
  | .d2 => BitVec.ofNat 8 (v.toNat * 85)
  | .d4 => BitVec.ofNat 8 (v.toNat * 17)
  | .d8 => v.setWidth 8
  | .d16 => v.extractLsb' 8 8

/-- A palette word as a pixel: B in bits 7:0, G in 15:8, R in 23:16, A in 31:24 (10_state.md R39). -/
def paletteWordPixel (w : Word) : Pixel where
  b := w.extractLsb' 0 8
  g := w.extractLsb' 8 8
  r := w.extractLsb' 16 8
  a := w.extractLsb' 24 8

/-- PAL[idx] for an index of 8 bits: every index names an entry (42_swizzle.md R185). -/
def palette (pal : Vector Word 256) (idx : Byte) : Word := pal[idx.toNat]'(by have := idx.isLt; omega)

/-- `to_bgra(buf, i)` (42_swizzle.md R186). -/
def toBgra (pal : Vector Word 256) (f : SrcFormat) (buf : List Byte) (i : Nat) : Option Pixel :=
  let s := fun ch => (sample f buf i ch).map (norm8 f.depth)
  match f.ct with
  | .gray => (s 0).map fun y => ⟨y, y, y, 0xFF#8⟩
  | .rgb =>
    match s 0, s 1, s 2 with
    | some r, some g, some b => some ⟨b, g, r, 0xFF#8⟩
    | _, _, _ => none
  | .indexed => (sample f buf i 0).map fun idx => paletteWordPixel (palette pal (idx.setWidth 8))
  | .grayAlpha =>
    match s 0, s 1 with
    | some y, some a => some ⟨y, y, y, a⟩
    | _, _ => none
  | .rgba =>
    match s 0, s 1, s 2, s 3 with
    | some r, some g, some b, some a => some ⟨b, g, r, a⟩
    | _, _, _, _ => none

/-- `to_y8(buf, i)` (42_swizzle.md R187). -/
def toY8 (f : SrcFormat) (buf : List Byte) (i : Nat) : Option Byte :=
  (sample f buf i 0).map (norm8 f.depth)

/-- One pixel of a Y8 row (42_swizzle.md R188). -/
def emitY8Pixel (f : SrcFormat) (buf : List Byte) (xstep : Word) (i : Nat) (s : State) : Res Unit :=
  match toY8 f buf i with
  | none => .stuck .noSuchConversion
  | some y => busWrite (pixelAddr s.dstAddr xstep i) y s

/-- One pixel of a BGRA row, blended by SRC or SRC_OVER (42_swizzle.md R188 to R190). -/
def emitBgraPixel (f : SrcFormat) (buf : List Byte) (srcOver : Bool) (xstep : Word) (i : Nat)
    (s : State) : Res Unit :=
  match toBgra s.pal f buf i with
  | none => .stuck .noSuchConversion
  | some px =>
    if srcOver then
      (readPixel (pixelAddr s.dstAddr xstep i) s).bind fun old s =>
        writeBytes (pixelAddr s.dstAddr xstep i) (pixelBytes (Config.overFn old px)) s
    else writeBytes (pixelAddr s.dstAddr xstep i) (pixelBytes px) s

/-- `emit_row(buf, W, ct, n, dfmt, blend, xstep, rb)` (42_swizzle.md R188), where `buf` is the row's `rb`
bytes. It reads `buf`, PAL and, for SRC_OVER, the destination, and leaves DST_ADDR. -/
def emitRow (buf : List Byte) (width : Word) (f : Fmt) (xstep : Word) (s : State) : Res Unit :=
  match srcFormatOf f, dstFormatOf f with
  | some sf, some df =>
    if admitted sf.ct df f.srcOver then
      match df with
      | .raw => writeBytes s.dstAddr buf s
      | .y8 => forRange (emitY8Pixel sf buf xstep) 0 width.toNat s
      | .bgra => forRange (emitBgraPixel sf buf f.srcOver xstep) 0 width.toNat s
    else .stuck .noSuchConversion
  | _, _ => .stuck .noSuchConversion

end Sys2Proof.Machine
end

