-- ==== Sys2Proof/Machine/Filter.lean ====
section
/-! DEFINITION. The filter unit: prediction, the row state machine, and its three commands
(spec/41_filter.md R144 to R156). -/

namespace Sys2Proof.Machine

/-! ## The reconstruction equations -/

/-- `paeth(a, b, c)` on exact integers: the neighbour nearest to `a + b - c`, ties to a, then b
(41_filter.md R146). -/
def paeth (a b c : Byte) : Byte :=
  let p : Int := (a.toNat : Int) + b.toNat - c.toNat
  let pa := (p - a.toNat).natAbs
  let pb := (p - b.toNat).natAbs
  let pc := (p - c.toNat).natAbs
  if pa ≤ pb ∧ pa ≤ pc then a else if pb ≤ pc then b else c

/-- `pred(f, a, b, c)` as an integer, 0 to 255 (41_filter.md R145, R146); the sum of Average is exact. -/
def pred (f : FilterType) (a b c : Byte) : Nat :=
  match f with
  | .none => 0
  | .sub => a.toNat
  | .up => b.toNat
  | .average => (a.toNat + b.toNat) / 2
  | .paeth => (paeth a b c).toNat

/-- `(raw + pred(f, a, b, c)) mod 256` (41_filter.md R147). -/
def reconstruct (f : FilterType) (raw a b c : Byte) : Byte :=
  BitVec.ofNat 8 (raw.toNat + pred f a b c)

/-- The filter type of a filter-type byte; 5 to 255 are none (41_filter.md R148). -/
def filterTypeOf (v : Byte) : Option FilterType :=
  if v = 0#8 then some .none
  else if v = 1#8 then some .sub
  else if v = 2#8 then some .up
  else if v = 3#8 then some .average
  else if v = 4#8 then some .paeth
  else none

/-- The neighbour `a` of payload byte `x`: `if x >= d then CUR[x - d] else 0` (41_filter.md R144); none
where that element has not been written. -/
def neighbourA (cur : List Host.Cell) (x d : Nat) : Option Byte :=
  if d ≤ x then RowBuf.get cur (x - d) else some 0#8

/-- The neighbour `b`: `if F_FIRST = 1 then 0 else PREV[x]` (41_filter.md R144). -/
def neighbourB (prev : List Host.Cell) (first : Bool) (x : Nat) : Option Byte :=
  if first then some 0#8 else RowBuf.get prev x

/-- The neighbour `c`: `if F_FIRST = 1 or x < d then 0 else PREV[x - d]` (41_filter.md R144). -/
def neighbourC (prev : List Host.Cell) (first : Bool) (x d : Nat) : Option Byte :=
  if first || decide (x < d) then some 0#8 else RowBuf.get prev (x - d)

/-! ## The row state machine -/

/-- The end of `row_end()` after its emission (41_filter.md R153): DST_ADDR moves by L_STRIDE, the row
becomes PREV, and the state machine goes to the next row or to DONE. -/
def finishRow (row : List Byte) (s : State) : State :=
  { s with
    dstAddr := s.dstAddr + s.latch.stride
    prev := RowBuf.putRow s.prev 0 row
    filt := { s.filt with
      first := false
      row := s.filt.row + 1#32
      x := 0#32
      phase := if s.filt.row + 1#32 = s.latch.rows then .done else .awaitFilter } }

/-- `row_end()` (41_filter.md R153): the row in CUR is emitted under the latched formats. -/
def rowEnd (s : State) : Res Unit :=
  match RowBuf.slice s.cur 0 s.latch.rowBytes with
  | none => .stuck .rowByteUnwritten
  | some row =>
    (emitRow row s.latch.width s.latch.fmt s.latch.xstep s).bind fun _ s => .ok () (finishRow row s)

/-- CUR[F_X] takes the reconstructed byte and F_X advances (41_filter.md R149). -/
def storePayload (out : Byte) (s : State) : State :=
  { s with
    cur := RowBuf.put s.cur s.filt.x.toNat out
    filt := { s.filt with x := s.filt.x + 1#32 } }

/-- Payload byte F_X of a row, phase IN_ROW of 41_filter.md R149. -/
def payloadByte (v : Byte) (s : State) : Res Unit :=
  match neighbourA s.cur s.filt.x.toNat s.latch.dist,
      neighbourB s.prev s.filt.first s.filt.x.toNat,
      neighbourC s.prev s.filt.first s.filt.x.toNat s.latch.dist with
  | some a, some b, some c =>
    if s.filt.x.toNat < s.platform.maxRowBytes then
      let s' := storePayload (reconstruct s.filt.ftype v a b c) s
      if s'.filt.x.toNat = s'.latch.rowBytes then rowEnd s' else .ok () s'
    else .stuck .rowIndexOutOfRange
  | _, _, _ => .stuck .rowByteUnwritten

/-- F_TYPE <- f; F_X <- 0; F_PHASE <- IN_ROW (41_filter.md R149). -/
def startRow (f : FilterType) (s : State) : State :=
  { s with filt := { s.filt with ftype := f, x := 0#32, phase := .inRow } }

/-- The case split of `filter_byte(v, addr)` on F_PHASE (41_filter.md R148, R149, R156). -/
def acceptByte (v : Byte) (addr : Option Addr) (s : State) : Res Unit :=
  match s.filt.phase with
  | .idle => raise .noPass addr s
  | .done => raise .passOverrun addr s
  | .awaitFilter =>
    match filterTypeOf v with
    | none => raise .badFilter addr s
    | some f => .ok () (startRow f s)
  | .inRow => payloadByte v s

/-- `filter_byte(v, addr)` (41_filter.md R149): a byte the unit has accepted is then tapped. -/
def filterByte (v : Byte) (addr : Option Addr) (s : State) : Res Unit :=
  (acceptByte v addr s).bind fun _ s => .ok () (adlerTap v s)

/-- What PASS_BEGIN latches and resets once the configuration is good (41_filter.md R150, R155). -/
def beginPass (g : Geometry) (s : State) : State :=
  { s with
    latch := ⟨s.width, s.rows, s.fmt, s.dstStride, s.dstXstep, g.bpp, g.rowBytes, g.dist⟩
    filt := ⟨if s.width = 0#32 ∨ s.rows = 0#32 then .done else .awaitFilter, .none, 0#32, 0#32, true⟩ }

/-! ## The commands -/

/-- PASS_BEGIN (41_filter.md R150). -/
def execPassBegin (s : State) : Host.Outcome State Fault Refusal :=
  ((liveConfig s).bind fun g s => .ok () (beginPass g s)).toOutcome

/-- UNFILTER_BYTE (41_filter.md R151). -/
def execUnfilterByte (imm8 : Byte) (s : State) : Host.Outcome State Fault Refusal :=
  (filterByte imm8 none s).toOutcome

/-- UNFILTER (41_filter.md R152): each byte's address, for a fault, is SRC_ADDR. -/
def execUnfilter (len : BitVec 24) (s : State) : Host.Outcome State Fault Refusal :=
  (streamBytes (fun v s => filterByte v (some s.srcAddr) s) len.toNat s).toOutcome

end Sys2Proof.Machine
end

