-- ==== Sys2Proof/Machine/Swizzle.lean ====
section
/-! DEFINITION. The swizzler unit's two commands (spec/42_swizzle.md R192, R193). -/

namespace Sys2Proof.Machine

/-- `{0xFF, r, g, b}`, a palette word from a PLTE triplet (42_swizzle.md R192). -/
def tripletWord (r g b : Byte) : Word := 0xFF#8 ++ r ++ g ++ b

/-- PAL[i] <- w (10_state.md R39). -/
def State.setPal (s : State) (i : Nat) (w : Word) : State :=
  { s with pal := s.pal.setIfInBounds i w }

/-- One triplet of PAL_LOAD: read at SRC_ADDR, stored in PAL[i], and SRC_ADDR moves by 3
(42_swizzle.md R192). -/
def loadPalEntry (i : Nat) (s : State) : Res Unit :=
  (busRead s.srcAddr s).bind fun r s =>
  (busRead (s.srcAddr + 1#32) s).bind fun g s =>
  (busRead (s.srcAddr + 2#32) s).bind fun b s =>
    .ok () ((s.setPal i (tripletWord r g b)).advanceSrc 3)

/-- PAL_LOAD (42_swizzle.md R192); `n` outside 1 to 256 is E_BAD_CMD (30_encoding.md R84). -/
def execPalLoad (n : BitVec 9) (s : State) : Host.Outcome State Fault Refusal :=
  (if n = 0#9 ∨ 256#9 < n then raise .badCmd none s
   else forRange loadPalEntry 0 n.toNat s).toOutcome

/-- SWIZZLE_ROW (42_swizzle.md R193): the whole row is staged before any destination byte is written;
the registers are the live ones. -/
def execSwizzleRow (s : State) : Host.Outcome State Fault Refusal :=
  ((liveConfig s).bind fun g s =>
   (readBytes s.srcAddr g.rowBytes s).bind fun row s =>
   (emitRow row s.width s.fmt s.dstXstep s).bind fun _ s =>
     .ok () ((s.advanceSrc g.rowBytes).advanceDst s.dstStride)).toOutcome

end Sys2Proof.Machine
end

