-- ==== Sys2Proof/Machine/System.lean ====
section
/-! DEFINITION. The system command (spec/43_system.md R220). -/

namespace Sys2Proof.Machine

/-- NOP "does nothing" (43_system.md R220). -/
def execNop (s : State) : Host.Outcome State Fault Refusal := .next s

end Sys2Proof.Machine
end

