-- ==== Sys2Proof/Machine/Dispatch.lean ====
section
/-! DEFINITION. "execute the rule of op with operand fields of w" (spec/43_system.md R223): one arm per
command. The test of STATUS.ERR stands before it, at the CMD port (Machine/Port.lean). -/

namespace Sys2Proof.Machine

def exec (i : Instr) (s : State) : Host.Outcome State Fault Refusal :=
  match i with
  | .nop => Sys2Proof.Machine.execNop s
  | .crcInit => Sys2Proof.Machine.execCrcInit s
  | .crcByte imm8 => Sys2Proof.Machine.execCrcByte imm8 s
  | .crcMem len => Sys2Proof.Machine.execCrcMem len s
  | .crcCheck k => Sys2Proof.Machine.execCrcCheck k s
  | .adlerInit => Sys2Proof.Machine.execAdlerInit s
  | .adlerByte imm8 => Sys2Proof.Machine.execAdlerByte imm8 s
  | .adlerMem len => Sys2Proof.Machine.execAdlerMem len s
  | .adlerCheck k => Sys2Proof.Machine.execAdlerCheck k s
  | .passBegin => Sys2Proof.Machine.execPassBegin s
  | .unfilterByte imm8 => Sys2Proof.Machine.execUnfilterByte imm8 s
  | .unfilter len => Sys2Proof.Machine.execUnfilter len s
  | .palLoad n => Sys2Proof.Machine.execPalLoad n s
  | .swizzleRow => Sys2Proof.Machine.execSwizzleRow s

end Sys2Proof.Machine
end

