-- ==== Sys2Proof/Machine/Window.lean ====
section
/-! DEFINITION. The register window: which register stands at an offset, what a host read of it returns
and what a host write to it does, but for CMD (spec/10_state.md R20 to R49; spec/43_system.md R221,
R222, R224, R225). -/

namespace Sys2Proof.Machine

/-- The registers of the window (10_state.md R20). -/
inductive WindowReg where
  | ctrl | status | cmd | errAddr | crc | adler | srcAddr | dstAddr | dstStride | dstXstep
  | width | rows | fmt | fstate | rowPos | rowCount | rowBytes | fdist
  | pal (i : Byte)
  | reserved
  deriving DecidableEq, Repr

/-- The register at a word-aligned offset below 0x1000 (10_state.md R20, R39, R44). -/
def windowReg (off : Nat) : WindowReg :=
  if off = 0x000 then .ctrl
  else if off = 0x004 then .status
  else if off = 0x008 then .cmd
  else if off = 0x00C then .errAddr
  else if off = 0x010 then .crc
  else if off = 0x014 then .adler
  else if off = 0x018 then .srcAddr
  else if off = 0x01C then .dstAddr
  else if off = 0x020 then .dstStride
  else if off = 0x024 then .dstXstep
  else if off = 0x028 then .width
  else if off = 0x02C then .rows
  else if off = 0x030 then .fmt
  else if off = 0x034 then .fstate
  else if off = 0x038 then .rowPos
  else if off = 0x03C then .rowCount
  else if off = 0x040 then .rowBytes
  else if off = 0x044 then .fdist
  else if 0x400 ≤ off ∧ off < 0x800 then .pal (BitVec.ofNat 8 ((off - 0x400) / 4))
  else .reserved

/-- The accesses of the model: 32-bit, at a multiple of 4, inside the window (43_system.md R225). -/
def accessInModel (off : Nat) (width : AccessWidth) : Bool :=
  width == .w32 && off % 4 == 0 && decide (off < 0x1000)

/-- The window offset of a host address, where the platform places the window at `MMIO_BASE`
(10_state.md R20). No rule depends on the base, so events carry offsets (notes/assumptions/11.md). -/
def windowOffset (hostAddr : Nat) : Option Nat :=
  if Config.mmioBase ≤ hostAddr ∧ hostAddr < Config.mmioBase + 0x1000 then
    some (hostAddr - Config.mmioBase)
  else none

/-- The value of a register as the host reads it (10_state.md R20 to R39, R44; 43_system.md R222). -/
def regRead (r : WindowReg) (s : State) : Word :=
  match r with
  | .ctrl => ctrlWord s.ctrl
  | .status => statusWord s.status s.irq
  | .cmd => 0#32
  | .errAddr => s.errAddr
  | .crc => s.crc
  | .adler => s.adler
  | .srcAddr => s.srcAddr
  | .dstAddr => s.dstAddr
  | .dstStride => s.dstStride
  | .dstXstep => s.dstXstep
  | .width => s.width
  | .rows => s.rows
  | .fmt => fmtWord s.fmt
  | .fstate => fstateWord s.filt
  | .rowPos => s.filt.x
  | .rowCount => s.filt.row
  | .rowBytes => BitVec.ofNat 32 s.latch.rowBytes
  | .fdist => BitVec.ofNat 32 s.latch.dist
  | .pal i => palette s.pal i
  | .reserved => 0#32

/-- `MmioRead(off)` (43_system.md R222). -/
def mmioRead (off : Nat) (s : State) : Word := regRead (windowReg off) s

/-- A write to CTRL (43_system.md R221, R224). -/
def ctrlWrite (v : Word) (s : State) : State :=
  if v.getLsbD 0 then s.resetEngine else { s with ctrl := ctrlOfWord v }

/-- The effect of a host write to a register other than CMD; it never faults and does not look at
STATUS.ERR (43_system.md R221, 10_state.md R48). CMD holds no state (10_state.md R24). -/
def regWrite (r : WindowReg) (v : Word) (s : State) : State :=
  match r with
  | .ctrl => ctrlWrite v s
  | .crc => { s with crc := v }
  | .adler => { s with adler := v }
  | .srcAddr => { s with srcAddr := v }
  | .dstAddr => { s with dstAddr := v }
  | .dstStride => { s with dstStride := v }
  | .dstXstep => { s with dstXstep := v }
  | .width => { s with width := v }
  | .rows => { s with rows := v }
  | .fmt => { s with fmt := fmtOfWord v }
  | .pal i => { s with pal := s.pal.setIfInBounds i.toNat v }
  | .status | .cmd | .errAddr | .fstate | .rowPos | .rowCount | .rowBytes | .fdist | .reserved => s

end Sys2Proof.Machine
end

