-- ==== Sys2Proof/Machine/Port.lean ====
section
/-! DEFINITION. The CMD port and one event of the outside (spec/43_system.md R221 to R225;
spec/30_encoding.md R86; spec/60_exceptions.md R236). -/

namespace Sys2Proof.Machine

/-- A host write of word `w` to CMD, in the order of 30_encoding.md R86: ignored while STATUS.ERR = 1
(60_exceptions.md R236), E_BAD_CMD for an illegal word, else the command's rule (43_system.md R223). -/
def cmdWrite (w : Word) (s : State) : Host.Outcome State Fault Refusal :=
  if s.status.err then .next s
  else
    match decode w with
    | .error _ => .next (s.enterFault .badCmd none)
    | .ok i => exec i s

/-- `MmioWrite(off, v)` (43_system.md R221). -/
def mmioWrite (off : Nat) (v : Word) (s : State) : Host.Outcome State Fault Refusal :=
  if windowReg off = .cmd then cmdWrite v s else .next (regWrite (windowReg off) v s)

/-- One event of the outside. -/
def hostEvent (e : HostEvent) (s : State) : Host.Outcome State Fault Refusal :=
  match e with
  | .write off width v =>
    if accessInModel off width then mmioWrite off v s else .refused .hostAccessOutsideModel
  | .read off width =>
    if accessInModel off width then .next { s with readData := mmioRead off s }
    else .refused .hostAccessOutsideModel
  | .store a v => .next { s with mem := Memory.write s.mem a.toNat v }
  | .powerOnReset => .next s.resetEngine

/-- The next event to come is taken from the list and happens; with none to come the engine waits for
the host and nothing changes (70_reset_and_hazards.md R261). -/
def takeEvent (s : State) : Host.Outcome State Fault Refusal :=
  match s.inbox with
  | [] => .next s
  | e :: rest => hostEvent e { s with inbox := rest }

/-- The host's next event is a write of word `w` to CMD, offset 0x008 (10_state.md R24). -/
def State.queueCmd (s : State) (w : Word) : State :=
  { s with inbox := .write 0x008 .w32 w :: s.inbox }

end Sys2Proof.Machine
end

