-- ==== Sys2Proof/Machine/Step.lean ====
section
/-! DEFINITION. One step of the machine: "the model's step is one host access, and a CMD write is one
atomic step that runs the whole command" (spec/00_scope.md R14). -/

namespace Sys2Proof.Machine

/-- One step: one event of the outside. -/
def step (s : State) : Host.Outcome State Fault Refusal := takeEvent s

/-- `s` with the host about to write the word `w` of an opcode-table row to CMD. The engine fetches
nothing (20_memory.md R74), so this stands for the host's CMD write (notes/assumptions/1.md); every row
has the 32 bits of one register write. -/
def State.withFetchWord (s : State) (_nbits w : Nat) : State := s.queueCmd (BitVec.ofNat 32 w)

end Sys2Proof.Machine
end

