-- ==== Sys2Proof/Machine/HostUsage.lean ====
section
/-! DEFINITION. What the spec gives the host, not the engine: the assembler text and the
pseudo-instructions (spec/30_encoding.md R88, R89), the encode-direction filter that is a test oracle
(spec/41_filter.md R160), and the passes of an interlaced image (spec/41_filter.md R161). No step uses
them. -/

namespace Sys2Proof.Machine

/-! ## Assembler text and pseudo-instructions -/

/-- The operand of a K-form command in assembler text: `crit` or `anc` (30_encoding.md R88). -/
def asmK (k : Bool) : String := if k then "crit" else "anc"

/-- A command in the spec's assembler text, operands in decimal (30_encoding.md R88). -/
def asm : Instr → String
  | .nop => "NOP"
  | .crcInit => "CRC_INIT"
  | .crcByte v => "CRC_BYTE " ++ toString v.toNat
  | .crcMem len => "CRC_MEM " ++ toString len.toNat
  | .crcCheck k => "CRC_CHECK " ++ asmK k
  | .adlerInit => "ADLER_INIT"
  | .adlerByte v => "ADLER_BYTE " ++ toString v.toNat
  | .adlerMem len => "ADLER_MEM " ++ toString len.toNat
  | .adlerCheck k => "ADLER_CHECK " ++ asmK k
  | .passBegin => "PASS_BEGIN"
  | .unfilterByte v => "UNFILTER_BYTE " ++ toString v.toNat
  | .unfilter len => "UNFILTER " ++ toString len.toNat
  | .palLoad n => "PAL_LOAD " ++ toString n.toNat
  | .swizzleRow => "SWIZZLE_ROW"

/-- The largest byte count of an L-form command (30_encoding.md R81, R87). -/
def maxLen : Nat := 16777215

/-- The expansion of a long byte count `m` over an L-form command: `q` full ones and, if a count is left,
one for it (30_encoding.md R89). -/
def longForm (cmd : BitVec 24 → Instr) (m : Nat) : List Instr :=
  List.replicate (m / maxLen) (cmd (BitVec.ofNat 24 maxLen)) ++
    (if m % maxLen = 0 then [] else [cmd (BitVec.ofNat 24 (m % maxLen))])

/-- `CRC_MEM_LONG m` (30_encoding.md R89). -/
def crcMemLong (m : Nat) : List Instr := longForm .crcMem m

/-- `ADLER_MEM_LONG m` (30_encoding.md R89). -/
def adlerMemLong (m : Nat) : List Instr := longForm .adlerMem m

/-- `UNFILTER_LONG m` (30_encoding.md R89). -/
def unfilterLong (m : Nat) : List Instr := longForm .unfilter m

/-- `CHUNK_CRC n, k`: one PNG chunk of payload length `n`, SRC_ADDR at its FourCC; a count too long for
one CRC_MEM is split (30_encoding.md R89). -/
def chunkCrc (n : Nat) (k : Bool) : List Instr :=
  .crcInit :: ((if n + 4 ≤ maxLen then [.crcMem (BitVec.ofNat 24 (n + 4))] else crcMemLong (n + 4)) ++
    [.crcCheck k])

/-- `ZLIB_CHECK` (30_encoding.md R89). -/
def zlibCheck : List Instr := [.adlerCheck true]

/-- `RESTART_PASS` (30_encoding.md R89). -/
def restartPass : List Instr := [.passBegin]

/-- The host's CMD writes of a list of commands, in order (30_encoding.md R88). -/
def cmdEvents (is : List Instr) : List HostEvent := is.map fun i => .write 0x008 .w32 (encode i)

/-! ## The encode-direction filter -/

/-- The byte of a row at an index, 0 where there is none. -/
def rowByte (row : List Byte) (i : Nat) : Byte := row.getD i 0#8

/-- `a'`, `b'`, `c'` for byte `x` of an original row, by the pattern of 41_filter.md R144, taken from the
original rows; `above` is the previous original row, none for the first (R160). -/
def originalNeighbours (d : Nat) (above : Option (List Byte)) (row : List Byte) (x : Nat) :
    Byte × Byte × Byte :=
  (if d ≤ x then rowByte row (x - d) else 0#8,
   match above with
   | some o => rowByte o x
   | none => 0#8,
   match above with
   | some o => if x < d then 0#8 else rowByte o (x - d)
   | none => 0#8)

/-- `r_y[x] = (o_y[x] - pred(f_y, a', b', c')) mod 256` (41_filter.md R160). -/
def encodeByte (f : FilterType) (d : Nat) (above : Option (List Byte)) (row : List Byte) (x : Nat) :
    Byte :=
  let n := originalNeighbours d above row x
  rowByte row x - BitVec.ofNat 8 (pred f n.1 n.2.1 n.2.2)

/-- The filtered row of an original row (41_filter.md R160). -/
def encodeRow (f : FilterType) (d : Nat) (above : Option (List Byte)) (row : List Byte) : List Byte :=
  (List.range row.length).map (encodeByte f d above row)

/-- The filter-type byte of a filter type (41_filter.md R148). -/
def filterTypeByte (f : FilterType) : Byte := (filterNumber f).setWidth 8

/-- The stream handed to UNFILTER for a list of original rows with their filter types:
`f_0, r_0, f_1, r_1, …` (41_filter.md R160). -/
def encodeRows (d : Nat) : Option (List Byte) → List (FilterType × List Byte) → List Byte
  | _, [] => []
  | above, (f, row) :: rest =>
    filterTypeByte f :: (encodeRow f d above row ++ encodeRows d (some row) rest)

/-! ## Interlaced images -/

/-- One Adam7 pass: origin and steps (41_filter.md R161). -/
structure Adam7 where
  x0 : Nat
  y0 : Nat
  dx : Nat
  dy : Nat
  deriving DecidableEq, Repr

/-- The seven Adam7 passes (41_filter.md R161). -/
def adam7 : List Adam7 :=
  [⟨0, 0, 8, 8⟩, ⟨4, 0, 8, 8⟩, ⟨0, 4, 4, 8⟩, ⟨2, 0, 4, 4⟩, ⟨0, 2, 2, 4⟩, ⟨1, 0, 2, 2⟩, ⟨0, 1, 1, 2⟩]

/-- `ceil((size - origin) / step)` when the image reaches the origin, else 0 (41_filter.md R161). -/
def passExtent (size origin step : Nat) : Nat :=
  if origin < size then (size - origin + step - 1) / step else 0

/-- The register writes that set up one pass of a `w` by `h` image at `base`, with destination row stride
`rowStride` and destination pixel size `pixelSize`, and its PASS_BEGIN (41_filter.md R161). -/
def passSetup (w h base rowStride pixelSize : Nat) (p : Adam7) : List HostEvent :=
  [.write 0x028 .w32 (BitVec.ofNat 32 (passExtent w p.x0 p.dx)),
   .write 0x02C .w32 (BitVec.ofNat 32 (passExtent h p.y0 p.dy)),
   .write 0x01C .w32 (BitVec.ofNat 32 (base + p.y0 * rowStride + p.x0 * pixelSize)),
   .write 0x020 .w32 (BitVec.ofNat 32 (p.dy * rowStride)),
   .write 0x024 .w32 (BitVec.ofNat 32 (p.dx * pixelSize)),
   .write 0x008 .w32 (encode .passBegin)]

end Sys2Proof.Machine
end

