-- ==== Sys2Proof/Safety.lean ====
section
/-! DEFINITION. What counts as a safe state and a safe run, in the terms statements use: the invariant of
the engine, legal host events, and what it means that bytes are readable or writable
(spec/10_state.md R35, R40 to R42; spec/20_memory.md R65; spec/60_exceptions.md R230, R232). -/

namespace Sys2Proof.Machine

/-- A platform the spec allows: MAX_ROW_BYTES is an integer, at least 1 (00_scope.md R8), and the 32-bit
registers ROW_POS and ROW_BYTES can hold it (10_state.md R35, R37; DEDUCED, notes/assumptions/6.md). -/
def Platform.Legal (p : Platform) : Prop := 1 ≤ p.maxRowBytes ∧ p.maxRowBytes < 2 ^ 32

/-- The latched pass state is what check_config returned for the latched width and format
(41_filter.md R143, R150). -/
def State.LatchGood (s : State) : Prop :=
  checkConfig s.latch.width s.latch.fmt s.platform.maxRowBytes
    = .ok ⟨s.latch.rowBytes, s.latch.dist, s.latch.bpp⟩

/-- The invariant of the engine. -/
structure EngineInv (s : State) : Prop where
  /-- The bus memory is in its canonical form. -/
  mem : Memory.wf s.mem
  /-- CUR is in its canonical form, inside the buffer (R42). -/
  cur : RowBuf.wf s.platform.maxRowBytes s.cur
  /-- PREV is in its canonical form, inside the buffer (R42). -/
  prev : RowBuf.wf s.platform.maxRowBytes s.prev
  /-- The platform is one the spec allows. -/
  platform : s.platform.Legal
  /-- Once a pass has begun, the latches are good (R40). -/
  latch : s.filt.phase ≠ .idle → s.LatchGood
  /-- A pass that still takes bytes has a width and rows left (41_filter.md R155). -/
  live : s.filt.phase = .awaitFilter ∨ s.filt.phase = .inRow →
    s.latch.width ≠ 0#32 ∧ s.filt.row.toNat < s.latch.rows.toNat
  /-- ROW_COUNT never passes the rows of the pass (R36). -/
  rowCount : s.filt.row.toNat ≤ s.latch.rows.toNat
  /-- F_FIRST is 1 while no row of the pass has completed (R34). -/
  first : s.filt.first = true ↔ s.filt.row = 0#32
  /-- F_X is 0 outside a row (R35). -/
  posZero : s.filt.phase ≠ .inRow → s.filt.x = 0#32
  /-- F_X stands inside the row, or at its end after a fault inside row emission (R35). -/
  pos : s.filt.phase = .inRow → s.filt.x.toNat ≤ s.latch.rowBytes
  /-- Without a fault F_X stands before the end of the row (R35). -/
  posLive : s.filt.phase = .inRow → s.status.err = false → s.filt.x.toNat < s.latch.rowBytes
  /-- The bytes of the row before F_X have been written (R42). -/
  curWritten : s.filt.phase = .inRow → ∀ j < s.filt.x.toNat, (RowBuf.get s.cur j).isSome
  /-- After the first row, PREV holds a whole row (R42). -/
  prevWritten : s.filt.first = false → ∀ j < s.latch.rowBytes, (RowBuf.get s.prev j).isSome
  /-- ERR_CODE, ERR_ADDR_VALID and ERR_ADDR are 0 while ERR is 0 (R22, R23). -/
  noFault : s.status.err = false →
    s.status.errCode = 0x00#8 ∧ s.status.errAddrValid = false ∧ s.errAddr = 0#32
  /-- A fault has one of the ten codes; no reserved code is ever raised (60_exceptions.md R230). -/
  faultCode : s.status.err = true → ∃ code : ErrCode, s.status.errCode = code.number
  /-- ERR_ADDR is 0 when it is not valid (R23). -/
  faultAddr : s.status.errAddrValid = false → s.errAddr = 0#32

/-- An event that is a step of the model: a register access is 32-bit, at a multiple of 4, inside the
window (43_system.md R225). -/
def HostEvent.legal : HostEvent → Bool
  | .write off width _ => accessInModel off width
  | .read off width => accessInModel off width
  | .store _ _ => true
  | .powerOnReset => true

/-- The event resets the engine: power-on reset, or a write of 1 to CTRL.SOFT_RESET
(60_exceptions.md R237). -/
def HostEvent.isReset : HostEvent → Bool
  | .write off _ v => windowReg off == .ctrl && v.getLsbD 0
  | .powerOnReset => true
  | .read _ _ => false
  | .store _ _ => false

/-- The `n` bytes at ascending addresses from `a` are admitted for an access (20_memory.md R65). -/
def State.admitsRun (s : State) (k : AccessKind) (a : Addr) (n : Nat) : Prop :=
  ∀ j < n, s.platform.admits (a + BitVec.ofNat 32 j) k = true

/-- The `n` bytes of bus memory at ascending addresses from `a`, mod 2^32 (20_memory.md R66). -/
def State.bytesFrom (s : State) (a : Addr) (n : Nat) : List Byte :=
  (List.range n).map fun j => Memory.read s.mem (a + BitVec.ofNat 32 j).toNat

/-- The address `b` is one of the `n` from `a` on, mod 2^32. -/
def inRun (a : Addr) (n : Nat) (b : Nat) : Prop := ∃ j < n, b = (a + BitVec.ofNat 32 j).toNat

/-- The addresses that the emission of a row of `len` bytes and `width` pixels stores to: byte `j` of a RAW
row at DST_ADDR + j, pixel `i` of a Y8 row at its address, and the four bytes from it of a BGRA row
(42_swizzle.md R180, R188). -/
def emitTarget (dst : Addr) (width : Word) (f : Fmt) (xstep : Word) (len : Nat) (b : Nat) : Prop :=
  match dstFormatOf f with
  | some .raw => inRun dst len b
  | some .y8 => ∃ i < width.toNat, b = (pixelAddr dst xstep i).toNat
  | some .bgra => ∃ i < width.toNat, inRun (pixelAddr dst xstep i) 4 b
  | none => False

/-- Every access that the emission of such a row makes is admitted: its stores, and its reads of the old
pixels under SRC_OVER (42_swizzle.md R188). -/
def State.emissionAdmitted (s : State) (dst : Addr) (width : Word) (f : Fmt) (xstep : Word) (len : Nat) :
    Prop :=
  ∀ a : Addr, emitTarget dst width f xstep len a.toNat →
    s.platform.admits a .write = true ∧ (f.srcOver = true → s.platform.admits a .read = true)

/-! ## The bus accesses of a command, in order -/

/-- A one-byte bus access: its address and its kind (00_scope.md R8). -/
abbrev Access := Addr × AccessKind

/-- The accesses of one kind to `n` bytes at ascending addresses from `a` (20_memory.md R61). -/
def runAccesses (k : AccessKind) (a : Addr) (n : Nat) : List Access :=
  (List.range n).map fun j => (a + BitVec.ofNat 32 j, k)

/-- The accesses of a BGRA pixel at `q`: under SRC_OVER its four bytes are read, then four are written
(42_swizzle.md R188, R195). -/
def pixelAccesses (f : Fmt) (q : Addr) : List Access :=
  (if f.srcOver then runAccesses .read q 4 else []) ++ runAccesses .write q 4

/-- The accesses of the emission of a row of `len` bytes and `width` pixels, in order: RAW bytes ascending,
pixels ascending, the bytes of a pixel ascending (42_swizzle.md R188, R195). -/
def emissionAccesses (dst : Addr) (width : Word) (f : Fmt) (xstep : Word) (len : Nat) : List Access :=
  match dstFormatOf f with
  | some .raw => runAccesses .write dst len
  | some .y8 => (List.range width.toNat).map fun i => (pixelAddr dst xstep i, .write)
  | some .bgra => (List.range width.toNat).flatMap fun i => pixelAccesses f (pixelAddr dst xstep i)
  | none => []

/-- The first access of a list that does not complete on a platform (20_memory.md R65). -/
def Platform.firstRefused (p : Platform) (accesses : List Access) : Option Access :=
  accesses.find? fun c => !p.admits c.1 c.2

/-- The access at which command `i`, started in `s`, ends in `t` with E_BUS: the first refused one of those it
makes in order. UNFILTER ends at the read of the byte that SRC_ADDR is left at, or, where that read completed,
in the emission of the row that this byte completes (60_exceptions.md R232, R234). -/
def busFaultAccess (i : Instr) (s t : State) (c : Access) : Prop :=
  match i with
  | .crcMem len | .adlerMem len => s.platform.firstRefused (runAccesses .read s.srcAddr len.toNat) = some c
  | .crcCheck _ | .adlerCheck _ => s.platform.firstRefused (runAccesses .read s.srcAddr 4) = some c
  | .unfilterByte _ =>
    s.platform.firstRefused
      (emissionAccesses s.dstAddr s.latch.width s.latch.fmt s.latch.xstep s.latch.rowBytes) = some c
  | .unfilter len =>
    ∃ k < len.toNat, t.srcAddr = s.srcAddr + BitVec.ofNat 32 k ∧
      (s.platform.firstRefused (runAccesses .read s.srcAddr (k + 1)) = some c ∧ c = (t.srcAddr, .read) ∨
        s.platform.firstRefused (runAccesses .read s.srcAddr (k + 1)) = none ∧
          s.platform.firstRefused
            (emissionAccesses t.dstAddr s.latch.width s.latch.fmt s.latch.xstep s.latch.rowBytes) = some c)
  | .palLoad n => s.platform.firstRefused (runAccesses .read s.srcAddr (3 * n.toNat)) = some c
  | .swizzleRow =>
    ∃ g, checkConfig s.width s.fmt s.platform.maxRowBytes = .ok g ∧
      s.platform.firstRefused (runAccesses .read s.srcAddr g.rowBytes ++
        emissionAccesses s.dstAddr s.width s.fmt s.dstXstep g.rowBytes) = some c
  | .nop | .crcInit | .crcByte _ | .adlerInit | .adlerByte _ | .passBegin => False

/-- A bus access with the byte it moves: what a read returns, or what a write stores. -/
structure BusOp where
  access : Access
  value : Byte
  deriving DecidableEq, Repr

/-- The state after an access that completes: a write stores its byte and is logged, and a read changes
nothing (20_memory.md R65, R67). -/
def BusOp.apply (o : BusOp) (s : State) : State :=
  match o.access.2 with
  | .read => s
  | .write => { s with
      mem := Memory.write s.mem o.access.1.toNat o.value
      busLog := (o.access.1.toNat, o.value) :: s.busLog }

/-- Accesses made one after another; the first that is refused ends them with E_BUS at its address, the
earlier ones done (20_memory.md R65, R70; 00_scope.md R12). -/
def follow : List BusOp → State → Res Unit
  | [], s => .ok () s
  | o :: rest, s =>
    if s.platform.admits o.access.1 o.access.2 then follow rest (o.apply s)
    else raise .bus (some o.access.1) s

/-- Every read among the accesses returns the byte that memory then holds. -/
def readsMemory : List BusOp → State → Prop
  | [], _ => True
  | o :: rest, s =>
    (o.access.2 = .read → o.value = Memory.read s.mem o.access.1.toNat) ∧ readsMemory rest (o.apply s)

/-- The four bytes at `a` as a big-endian word (20_memory.md R63). -/
def State.trailerAt (s : State) (a : Addr) : Word :=
  Memory.read s.mem a.toNat ++ Memory.read s.mem (a + 1#32).toNat ++
    Memory.read s.mem (a + 2#32).toNat ++ Memory.read s.mem (a + 3#32).toNat

/-- Two states that differ only in bytes of CUR and PREV that no rule reads before writing
(10_state.md R42): CUR agrees below F_X while a row is being read, PREV on the whole row once one has
completed, and every other field is equal. -/
structure SameButHidden (s t : State) : Prop where
  rest : { s with cur := t.cur, prev := t.prev } = t
  cur : s.filt.phase = .inRow → ∀ j < s.filt.x.toNat, RowBuf.get s.cur j = RowBuf.get t.cur j
  prev : s.filt.first = false → ∀ j < s.latch.rowBytes, RowBuf.get s.prev j = RowBuf.get t.prev j

/-! ## Words, codes and formats as the spec lists them -/

/-- An illegal word: OP is not in the table of R83, or OP is defined and a reserved operand bit of its form
is 1 (30_encoding.md R84). -/
def IllegalWord (w : Word) : Prop :=
  (∀ o : Opcode, o.number ≠ opField w) ∨
    ∃ o : Opcode, o.number = opField w ∧ w &&& o.form.mask &&& 0x00FFFFFF#32 ≠ 0#32

/-- The codes each command can raise (60_exceptions.md R231). -/
def raisable : Opcode → List ErrCode
  | .nop | .crcInit | .crcByte | .adlerInit | .adlerByte => [.badCmd]
  | .crcMem | .adlerMem => [.bus]
  | .crcCheck => [.badCmd, .bus, .badCrc]
  | .adlerCheck => [.badCmd, .bus, .badAdler]
  | .passBegin => [.badCmd, .badFormat, .unsupported, .rowTooLong]
  | .unfilterByte => [.badCmd, .noPass, .badFilter, .passOverrun, .bus]
  | .unfilter => [.bus, .noPass, .badFilter, .passOverrun]
  | .palLoad => [.badCmd, .bus]
  | .swizzleRow => [.badCmd, .badFormat, .unsupported, .rowTooLong, .bus]

/-- The legal pairs (SRC_CT, SRC_DEPTH) with their channel counts (41_filter.md R140). -/
def legalFormats : List (BitVec 3 × BitVec 5 × Nat) :=
  [(0, 1, 1), (0, 2, 1), (0, 4, 1), (0, 8, 1), (0, 16, 1), (2, 8, 3), (2, 16, 3), (3, 1, 1), (3, 2, 1),
   (3, 4, 1), (3, 8, 1), (4, 8, 2), (4, 16, 2), (6, 8, 4), (6, 16, 4)]

/-- The admitted conversions by field value (42_swizzle.md R181): RAW with SRC, Y8 from grayscale with SRC,
BGRA with either blend. -/
def conversionAdmitted (f : Fmt) : Prop :=
  (f.dstFmt = 0#2 ∧ f.blend = 0#1) ∨ (f.dstFmt = 1#2 ∧ f.srcCt = 0#3 ∧ f.blend = 0#1) ∨ f.dstFmt = 2#2

/-- The reset table of 10_state.md R49, as the host reads it, with the latched pass state and the IRQ
output. -/
structure ResetTable (t : State) : Prop where
  ctrl : mmioRead 0x000 t = 0x00000000#32
  status : mmioRead 0x004 t = 0x00000000#32
  errAddr : mmioRead 0x00C t = 0x00000000#32
  crc : mmioRead 0x010 t = 0x00000000#32
  adler : mmioRead 0x014 t = 0x00000001#32
  pointers : mmioRead 0x018 t = 0#32 ∧ mmioRead 0x01C t = 0#32 ∧ mmioRead 0x020 t = 0#32 ∧
    mmioRead 0x024 t = 0#32
  config : mmioRead 0x028 t = 0#32 ∧ mmioRead 0x02C t = 0#32 ∧ mmioRead 0x030 t = 0#32
  fstate : mmioRead 0x034 t = 0x00000020#32
  views : mmioRead 0x038 t = 0#32 ∧ mmioRead 0x03C t = 0#32 ∧ mmioRead 0x040 t = 0#32 ∧
    mmioRead 0x044 t = 0#32
  pal : ∀ i < 256, mmioRead (0x400 + 4 * i) t = 0xFF000000#32
  latch : t.latch = ⟨0#32, 0#32, ⟨0#5, 0#3, 0#2, 0#1⟩, 0#32, 0#32, 0, 0, 0⟩
  irq : t.irq = false

/-! ## Runs of commands -/

/-- The host writes the words of a list of commands to CMD, one after another (43_system.md R223). -/
def issue : List Instr → State → Host.Outcome State Fault Refusal
  | [], s => .next s
  | i :: rest, s =>
    match cmdWrite (encode i) s with
    | .next t => issue rest t
    | .fault f => .fault f
    | .refused r => .refused r

/-- An outcome with its next state changed. -/
def mapNext (g : State → State) : Host.Outcome State Fault Refusal → Host.Outcome State Fault Refusal
  | .next t => .next (g t)
  | .fault f => .fault f
  | .refused r => .refused r

/-- A state with other live configuration registers (70_reset_and_hazards.md R263). -/
def State.withConfig (s : State) (width rows : Word) (f : Fmt) (stride xstep : Word) : State :=
  { s with width := width, rows := rows, fmt := f, dstStride := stride, dstXstep := xstep }

/-- A state with another pass in progress: other latches, other row state and other row buffers. -/
def State.withPass (s : State) (l : Latch) (f : Filt) (cur prev : List Host.Cell) : State :=
  { s with latch := l, filt := f, cur := cur, prev := prev }

/-! ## References that the machine is compared with -/

/-- One bit of the CRC of polynomial 0x04C11DB7, most significant bit first: the unreflected form of
40_checksum.md R100. -/
def crcMsbBit (t : Word) : Word := if t.msb then (t <<< 1) ^^^ 0x04C11DB7#32 else t <<< 1

/-- `n` bits of it. -/
def crcMsbBits : Nat → Word → Word
  | 0, t => t
  | n + 1, t => crcMsbBits n (crcMsbBit t)

/-- The sum of the bytes of a sequence. -/
def byteSum (vs : List Byte) : Nat := (vs.map BitVec.toNat).sum

/-- The sum of the byte sums of the non-empty prefixes of a sequence, each with the initial 1: the sum of
sums of Adler-32 before reduction (40_checksum.md R102, R103). -/
def prefixSum (vs : List Byte) : Nat :=
  ((List.range vs.length).map fun i => 1 + byteSum (vs.take (i + 1))).sum

/-- A row reconstructed as a list: each byte from its neighbours among the bytes already reconstructed and
the row above (41_filter.md R144 to R147). -/
def decodeRowFrom (f : FilterType) (d : Nat) (above : Option (List Byte)) : List Byte → List Byte → List Byte
  | out, [] => out
  | out, v :: vs =>
    let n := originalNeighbours d above out out.length
    decodeRowFrom f d above (out ++ [reconstruct f v n.1 n.2.1 n.2.2]) vs

/-- A row reconstructed from its payload. -/
def decodeRow (f : FilterType) (d : Nat) (above : Option (List Byte)) (payload : List Byte) : List Byte :=
  decodeRowFrom f d above [] payload

/-- The row above in the pass in progress, as a list: none on a first row (41_filter.md R154). -/
def State.rowAbove (s : State) : Option (List Byte) :=
  if s.filt.first then none else RowBuf.slice s.prev 0 s.latch.rowBytes

/-- Bit `p` of a packed row, the high-order bit of a byte first (42_swizzle.md R182). -/
def rowBit (buf : List Byte) (p : Nat) : Bool := (buf.getD (p / 8) 0#8).getLsbD (7 - p % 8)

end Sys2Proof.Machine
end

