-- ==== Sys2Proof/Certificates/Slice0/Obligations.lean ====
section
/-! DEFINITION. The statements about the engine, each from numbered rules of the spec, or derived from
them where its docstring says so. -/

section Statements

open Sys2Proof Sys2Proof.Machine

/-! ## Encoding (30_encoding.md) -/

/-- Every command is the command its word decodes to, an ill-formed PAL_LOAD too (R80 to R83). -/
def Obligations.DecodeEncodeRoundTrip : Prop := ∀ i : Instr, decode (encode i) = .ok i

/-- A word that is a command is that command's word: no bit of it is dropped (R80 to R84). -/
def Obligations.EncodeDecodeInverse : Prop := ∀ (w : Word) (i : Instr), decode w = .ok i → encode i = w

/-- The defined opcodes with their numbers, forms and masks, and "A word selects a command when
`w & mask = OP << 24`" (R83). -/
def Obligations.WordSelectsItsCommand : Prop :=
  (∀ o : Opcode,
    (o, o.number, o.form) ∈
      [(Opcode.nop, 0x00#8, Form.z), (.crcInit, 0x01#8, .z), (.crcByte, 0x02#8, .b), (.crcMem, 0x03#8, .l),
       (.crcCheck, 0x04#8, .k), (.adlerInit, 0x08#8, .z), (.adlerByte, 0x09#8, .b), (.adlerMem, 0x0A#8, .l),
       (.adlerCheck, 0x0B#8, .k), (.passBegin, 0x10#8, .z), (.unfilterByte, 0x11#8, .b),
       (.unfilter, 0x12#8, .l), (.palLoad, 0x18#8, .n), (.swizzleRow, 0x19#8, .z)]) ∧
  ∀ (f : Form) (mask : Word),
    (f, mask) ∈ [(Form.z, 0xFFFFFFFF#32), (.b, 0xFFFFFF00#32), (.l, 0xFF000000#32), (.k, 0xFFFFFFFE#32),
      (.n, 0xFFFFFE00#32)] →
    ∀ o : Opcode, o.form = f → ∀ w : Word,
      (∃ i, decode w = .ok i ∧ i.opcode = o) ↔ w &&& mask = o.number.setWidth 32 <<< 24

/-- Which words are illegal, and that an illegal word, or a PAL_LOAD with `n = 0` or `n > 256`, raises
E_BAD_CMD without an address "and has no other effect" (R84). -/
def Obligations.IllegalWordFaults : Prop :=
  (∀ op : Byte, (∀ o : Opcode, o.number ≠ op) ↔
    (0x05 ≤ op.toNat ∧ op.toNat ≤ 0x07) ∨ (0x0C ≤ op.toNat ∧ op.toNat ≤ 0x0F) ∨
      (0x13 ≤ op.toNat ∧ op.toNat ≤ 0x17) ∨ 0x1A ≤ op.toNat) ∧
  (∀ w : Word, IllegalWord w ↔ ∀ i, decode w ≠ .ok i) ∧
  (∀ (w : Word) (s : State), IllegalWord w → s.status.err = false →
    cmdWrite w s = .next (s.enterFault .badCmd none)) ∧
  ∀ (n : BitVec 9) (s : State), n.toNat = 0 ∨ 256 < n.toNat →
    exec (.palLoad n) s = .next (s.enterFault .badCmd none) ∧
      (s.status.err = false → cmdWrite (0x18#8 ++ 0#15 ++ n) s = .next (s.enterFault .badCmd none))

/-- How the operand fields are assembled: unsigned, zero-extended and not scaled (R82). -/
def Obligations.OperandFieldsAreWordBits : Prop :=
  ∀ (w : Word) (i : Instr), decode w = .ok i →
    (∀ v, i = .crcByte v ∨ i = .adlerByte v ∨ i = .unfilterByte v → v.toNat = w.toNat % 2 ^ 8) ∧
    (∀ len, i = .crcMem len ∨ i = .adlerMem len ∨ i = .unfilter len → len.toNat = w.toNat % 2 ^ 24) ∧
    (∀ k, i = .crcCheck k ∨ i = .adlerCheck k → k = w.getLsbD 0) ∧
    (∀ n, i = .palLoad n → n.toNat = w.toNat % 2 ^ 9)

/-- One word of each family, written out from the encodings of R81 and R83. -/
def Obligations.SpecWordsDecode : Prop :=
  decode 0x00000000#32 = .ok .nop ∧ decode 0x02000061#32 = .ok (.crcByte 0x61#8) ∧
  decode 0x04000001#32 = .ok (.crcCheck true) ∧ decode 0x0A000009#32 = .ok (.adlerMem 9#24) ∧
  decode 0x1200000A#32 = .ok (.unfilter 10#24) ∧ decode 0x18000100#32 = .ok (.palLoad 256#9) ∧
  decode 0x19000000#32 = .ok .swizzleRow

/-! ## One step (43_system.md R221 to R225) -/

/-- "A host write of word `w` to CMD runs the command in one atomic step": ignored while halted, E_BAD_CMD
for an illegal word, else the command that the word decodes to (R223). -/
def Obligations.StepRunsTheDecodedCommand : Prop :=
  ∀ (w : Word) (rest : List HostEvent) (s : State), s.inbox = .write 0x008 .w32 w :: rest →
    (s.status.err = true → step s = .next { s with inbox := rest }) ∧
    (s.status.err = false → IllegalWord w →
      step s = .next (State.enterFault { s with inbox := rest } .badCmd none)) ∧
    (s.status.err = false → ∀ i, decode w = .ok i → step s = exec i { s with inbox := rest })

/-- A host access of another width, at an offset that is no multiple of 4, or beyond the window has no
step (R225). -/
def Obligations.AccessOutsideTheModelIsRefused : Prop :=
  ∀ (off : Nat) (width : AccessWidth) (rest : List HostEvent) (s : State),
    ¬(width = .w32 ∧ off % 4 = 0 ∧ off < 0x1000) →
    (∀ v, s.inbox = .write off width v :: rest → step s = .refused .hostAccessOutsideModel) ∧
    (s.inbox = .read off width :: rest → step s = .refused .hostAccessOutsideModel)

/-- What the model's step does with the events that are no register access, and without one: a store of
another agent, and waiting (the model's choices, notes/assumptions/1.md and 2.md; 20_memory.md R71 and
70_reset_and_hazards.md R261 are what they rest on); and what power-on reset, and SOFT_RESET like it, leave
alone: the bus memory, the platform and the model's own fields (the model's deduction,
notes/assumptions/3.md, which no rule states). -/
def Obligations.StepWithoutARegisterAccess : Prop :=
  ∀ s : State,
    (s.inbox = [] → step s = .next s) ∧
    (∀ (a : Addr) (v : Byte) (rest : List HostEvent), s.inbox = .store a v :: rest →
      ∃ t, step s = .next t ∧ t = { s with inbox := rest, mem := t.mem } ∧
        ∀ b, Memory.read t.mem b = if b = a.toNat then v else Memory.read s.mem b) ∧
    ∀ (e : HostEvent) (rest : List HostEvent),
      e = .powerOnReset ∨ (∃ v : Word, v.getLsbD 0 = true ∧ e = .write 0x000 .w32 v) → s.inbox = e :: rest →
      ∃ t, step s = .next t ∧ t.mem = s.mem ∧ t.platform = s.platform ∧ t.inbox = rest ∧
        t.readData = s.readData ∧ t.busLog = s.busLog

/-! ## Reset, and the invariant -/

/-- The values of R49, at the reset state and after either reset, from any state. What a reset leaves alone is
not R49's (StepWithoutARegisterAccess). -/
def Obligations.ResetValues : Prop :=
  ResetTable State.reset ∧ ∀ (rest : List HostEvent) (s : State),
    (s.inbox = .powerOnReset :: rest → ∃ t, step s = .next t ∧ ResetTable t) ∧
    ∀ v : Word, v.getLsbD 0 = true → s.inbox = .write 0x000 .w32 v :: rest →
      ∃ t, step s = .next t ∧ ResetTable t

/-- The invariant holds at reset. The platform of State.reset is the model's choice
(notes/assumptions/5.md, 6.md). -/
def Obligations.InvariantHoldsAtReset : Prop := EngineInv State.reset

/-- Every step keeps the invariant, from every state that has it: the bus memory and the row buffers keep
their canonical form, the latches stay what check_config returned, F_X stays in the row, the row counter in
the pass, and the fault record is 0 without a fault and one of the ten codes with one. -/
def Obligations.StepKeepsInvariant : Prop := ∀ s t : State, EngineInv s → step s = .next t → EngineInv t

/-- Under the invariant every legal event is a step: no run stops the model, and a read of an unwritten row
byte is "never reached" (93_implementation_defined.md U3; 10_state.md R42). -/
def Obligations.LegalStepsNeverStop : Prop :=
  ∀ s : State, EngineInv s → (∀ e rest, s.inbox = e :: rest → e.legal = true) → ∃ t, step s = .next t

/-- What CUR and PREV hold beyond the bytes written in the pass is never observable: states that differ in
nothing else step to states that differ in nothing else (10_state.md R42, 49). -/
def Obligations.RowBufferContentsNeverObservable : Prop :=
  ∀ s t : State, EngineInv s → EngineInv t → SameButHidden s t →
    (∀ e rest, s.inbox = e :: rest → e.legal = true) →
    ∃ s' t', step s = .next s' ∧ step t = .next t' ∧ SameButHidden s' t'

/-! ## The register window (10_state.md, 43_system.md) -/

/-- The effect of a host write by offset, whatever STATUS.ERR is (R221). -/
def Obligations.RegisterWrites : Prop :=
  ∀ (v : Word) (s : State),
    (v.getLsbD 0 = true → hostEvent (.write 0x000 .w32 v) s = .next s.resetEngine) ∧
    (v.getLsbD 0 = false → hostEvent (.write 0x000 .w32 v) s
      = .next { s with ctrl := ⟨v.getLsbD 1, v.getLsbD 2, v.getLsbD 3⟩ }) ∧
    hostEvent (.write 0x008 .w32 v) s = cmdWrite v s ∧
    hostEvent (.write 0x010 .w32 v) s = .next { s with crc := v } ∧
    hostEvent (.write 0x014 .w32 v) s = .next { s with adler := v } ∧
    hostEvent (.write 0x018 .w32 v) s = .next { s with srcAddr := v } ∧
    hostEvent (.write 0x01C .w32 v) s = .next { s with dstAddr := v } ∧
    hostEvent (.write 0x020 .w32 v) s = .next { s with dstStride := v } ∧
    hostEvent (.write 0x024 .w32 v) s = .next { s with dstXstep := v } ∧
    hostEvent (.write 0x028 .w32 v) s = .next { s with width := v } ∧
    hostEvent (.write 0x02C .w32 v) s = .next { s with rows := v } ∧
    hostEvent (.write 0x030 .w32 v) s = .next { s with
      fmt := ⟨v.extractLsb' 0 5, v.extractLsb' 8 3, v.extractLsb' 16 2, v.extractLsb' 20 1⟩ } ∧
    (∀ i : Nat, i < 256 → ∃ t, hostEvent (.write (0x400 + 4 * i) .w32 v) s = .next t ∧
      t = { s with pal := t.pal } ∧ ∀ j : Nat, t.pal[j]? = if j = i then some v else s.pal[j]?) ∧
    ∀ off : Nat, off % 4 = 0 →
      off ∈ [0x004, 0x00C, 0x034, 0x038, 0x03C, 0x040, 0x044] ∨ (0x048 ≤ off ∧ off ≤ 0x3FC) ∨
        (0x800 ≤ off ∧ off ≤ 0xFFC) →
      hostEvent (.write off .w32 v) s = .next s

/-- What a host read returns, by offset; it has no side effect, never faults, and a second one returns the
same (R222). -/
def Obligations.RegisterReads : Prop :=
  ∀ s : State,
    (∀ off : Nat, off % 4 = 0 → off < 0x1000 →
      hostEvent (.read off .w32) s = .next { s with readData := mmioRead off s }) ∧
    (∀ (off : Nat) (v : Word), mmioRead off { s with readData := v } = mmioRead off s) ∧
    (let c := mmioRead 0x000 s
     c.extractLsb' 0 1 = 0#1 ∧ c.getLsbD 1 = s.ctrl.ignoreChecksum ∧ c.getLsbD 2 = s.ctrl.adlerTap ∧
       c.getLsbD 3 = s.ctrl.errIe ∧ c.extractLsb' 4 28 = 0#28) ∧
    (let st := mmioRead 0x004 s
     st.getLsbD 0 = s.status.err ∧ st.getLsbD 1 = s.status.errAddrValid ∧
       st.getLsbD 2 = s.status.crcMatch ∧ st.getLsbD 3 = s.status.adlerMatch ∧
       st.getLsbD 4 = s.status.chkLog ∧ st.getLsbD 5 = s.irq ∧ st.extractLsb' 6 2 = 0#2 ∧
       st.extractLsb' 8 8 = s.status.errCode ∧ st.extractLsb' 16 16 = 0#16) ∧
    mmioRead 0x008 s = 0#32 ∧ mmioRead 0x00C s = s.errAddr ∧ mmioRead 0x010 s = s.crc ∧
    mmioRead 0x014 s = s.adler ∧ mmioRead 0x018 s = s.srcAddr ∧ mmioRead 0x01C s = s.dstAddr ∧
    mmioRead 0x020 s = s.dstStride ∧ mmioRead 0x024 s = s.dstXstep ∧ mmioRead 0x028 s = s.width ∧
    mmioRead 0x02C s = s.rows ∧
    (let f := mmioRead 0x030 s
     f.extractLsb' 0 5 = s.fmt.srcDepth ∧ f.extractLsb' 5 3 = 0#3 ∧ f.extractLsb' 8 3 = s.fmt.srcCt ∧
       f.extractLsb' 11 5 = 0#5 ∧ f.extractLsb' 16 2 = s.fmt.dstFmt ∧ f.extractLsb' 18 2 = 0#2 ∧
       f.extractLsb' 20 1 = s.fmt.blend ∧ f.extractLsb' 21 11 = 0#11) ∧
    (let f := mmioRead 0x034 s
     (s.filt.phase, f.extractLsb' 0 2) ∈
         [(Phase.idle, 0#2), (.awaitFilter, 1#2), (.inRow, 2#2), (.done, 3#2)] ∧
       (s.filt.ftype, f.extractLsb' 2 3) ∈
         [(FilterType.none, 0#3), (.sub, 1#3), (.up, 2#3), (.average, 3#3), (.paeth, 4#3)] ∧
       f.getLsbD 5 = s.filt.first ∧ f.extractLsb' 6 26 = 0#26) ∧
    mmioRead 0x038 s = s.filt.x ∧ mmioRead 0x03C s = s.filt.row ∧
    mmioRead 0x040 s = BitVec.ofNat 32 s.latch.rowBytes ∧ mmioRead 0x044 s = BitVec.ofNat 32 s.latch.dist ∧
    (∀ i : Nat, i < 256 → s.pal[i]? = some (mmioRead (0x400 + 4 * i) s)) ∧
    ∀ off : Nat, (0x048 ≤ off ∧ off < 0x400) ∨ (0x800 ≤ off ∧ off < 0x1000) → mmioRead off s = 0#32

/-- Reserved bits of CTRL, STATUS, FMT and FSTATE read 0 and a write to them is ignored; the bits of CTRL
and FMT that are not reserved store the written value, but for SOFT_RESET (R45). A host read of a reserved
offset returns 0 and a host write to one is ignored (R44). -/
def Obligations.ReservedBitsAndOffsets : Prop :=
  ∀ s : State,
    mmioRead 0x000 s &&& ~~~0x0000000F#32 = 0#32 ∧ mmioRead 0x004 s &&& ~~~0x0000FF3F#32 = 0#32 ∧
    mmioRead 0x030 s &&& ~~~0x0013071F#32 = 0#32 ∧ mmioRead 0x034 s &&& ~~~0x0000003F#32 = 0#32 ∧
    (∀ v w : Word, v &&& 0x0000000F#32 = w &&& 0x0000000F#32 →
      hostEvent (.write 0x000 .w32 v) s = hostEvent (.write 0x000 .w32 w) s) ∧
    (∀ v w : Word, v &&& 0x0013071F#32 = w &&& 0x0013071F#32 →
      hostEvent (.write 0x030 .w32 v) s = hostEvent (.write 0x030 .w32 w) s) ∧
    (∀ v : Word, hostEvent (.write 0x004 .w32 v) s = .next s ∧ hostEvent (.write 0x034 .w32 v) s = .next s) ∧
    (∀ v : Word, v.getLsbD 0 = false → ∃ t, hostEvent (.write 0x000 .w32 v) s = .next t ∧
      mmioRead 0x000 t = v &&& 0x0000000E#32) ∧
    (∀ v : Word, ∃ t, hostEvent (.write 0x030 .w32 v) s = .next t ∧ mmioRead 0x030 t = v &&& 0x0013071F#32) ∧
    ∀ off : Nat, off % 4 = 0 → (0x048 ≤ off ∧ off ≤ 0x3FC) ∨ (0x800 ≤ off ∧ off ≤ 0xFFC) →
      hostEvent (.read off .w32) s = .next { s with readData := 0#32 } ∧
        ∀ v, hostEvent (.write off .w32 v) s = .next s

/-! ## Faults and the interrupt (60_exceptions.md) -/

/-- Fault entry "does exactly this": ERR is set, the code and the address or its absence recorded, nothing
else saved or changed, the command ended there; IRQ rises at once if ERR_IE = 1 (R233). -/
def Obligations.FaultEntry : Prop :=
  (∀ code : ErrCode, (code, code.number) ∈
    [(ErrCode.badCmd, 0x01#8), (.bus, 0x02#8), (.badCrc, 0x03#8), (.badAdler, 0x04#8), (.badFormat, 0x05#8),
     (.unsupported, 0x06#8), (.rowTooLong, 0x07#8), (.noPass, 0x08#8), (.badFilter, 0x09#8),
     (.passOverrun, 0x0A#8)]) ∧
  ∀ (code : ErrCode) (s : State),
    (∀ addr : Addr, s.enterFault code (some addr) = { s with
      status := ⟨true, true, s.status.crcMatch, s.status.adlerMatch, s.status.chkLog, code.number⟩
      errAddr := addr }) ∧
    s.enterFault code none = { s with
      status := ⟨true, false, s.status.crcMatch, s.status.adlerMatch, s.status.chkLog, code.number⟩
      errAddr := 0#32 } ∧
    ∀ addr : Option Addr, (s.enterFault code addr).irq = s.ctrl.errIe ∧
      ∀ rest : Unit → State → Res Unit,
        ((raise code addr s).bind rest).toOutcome = .next (s.enterFault code addr)

/-- While STATUS.ERR = 1 a word written to CMD is ignored, whatever it is; host register reads and writes
still work (R236). -/
def Obligations.HaltedEngineIgnoresCommands : Prop :=
  ∀ s : State, s.status.err = true →
    (∀ w : Word, hostEvent (.write 0x008 .w32 w) s = .next s) ∧
    (∀ off : Nat, off % 4 = 0 → off < 0x1000 →
      hostEvent (.read off .w32) s = .next { s with readData := mmioRead off s }) ∧
    (∀ (off : Nat) (v : Word), off ∈ [0x010, 0x014, 0x018, 0x01C, 0x020, 0x024, 0x028, 0x02C] →
      ∃ t, hostEvent (.write off .w32 v) s = .next t ∧ mmioRead off t = v) ∧
    ∀ (i : Nat) (v : Word), i < 256 →
      ∃ t, hostEvent (.write (0x400 + 4 * i) .w32 v) s = .next t ∧ t.pal[i]? = some v

/-- The fault state is left only by power-on reset or CTRL.SOFT_RESET, which clears the fault record and
the IRQ output with everything else; every other event keeps ERR, the code and the address (R237). -/
def Obligations.OnlyResetLeavesTheFault : Prop :=
  ∀ (e : HostEvent) (rest : List HostEvent) (s : State),
    s.status.err = true → s.inbox = e :: rest → e.legal = true →
    ∃ t, step s = .next t ∧
      (e.isReset = true → t.status.err = false ∧ t.status.errCode = 0x00#8 ∧ t.errAddr = 0#32 ∧
        t.irq = false ∧ ResetTable t) ∧
      (e.isReset = false → t.status = s.status ∧ t.errAddr = s.errAddr)

/-- A command raises only the codes listed for it, and an undefined opcode only E_BAD_CMD (60_exceptions.md
section 1, the table of codes by command). -/
def Obligations.CommandsRaiseOnlyTheirCodes : Prop :=
  ∀ (w : Word) (s t : State), s.status.err = false → cmdWrite w s = .next t → t.status.err = true →
    match opcodeOf (opField w) with
    | none => t.status.errCode = ErrCode.badCmd.number
    | some o => ∃ code ∈ raisable o, t.status.errCode = code.number

/-- What ERR_ADDR and ERR_ADDR_VALID record, by code; for E_BUS, the address of the access the command made that
was refused, the first in its order (R232). -/
def Obligations.ErrAddrByCode : Prop :=
  ∀ (w : Word) (s t : State), s.status.err = false → cmdWrite w s = .next t → t.status.err = true →
    (t.status.errCode = ErrCode.bus.number → t.status.errAddrValid = true ∧
      ∃ (i : Instr) (kind : AccessKind), decode w = .ok i ∧ busFaultAccess i s t (t.errAddr, kind) ∧
        s.platform.admits t.errAddr kind = false) ∧
    (t.status.errCode = ErrCode.badCrc.number ∨ t.status.errCode = ErrCode.badAdler.number →
      t.status.errAddrValid = true ∧ t.errAddr = s.srcAddr ∧ t.srcAddr = s.srcAddr) ∧
    (t.status.errCode = ErrCode.noPass.number ∨ t.status.errCode = ErrCode.badFilter.number ∨
        t.status.errCode = ErrCode.passOverrun.number →
      (opField w = Opcode.unfilter.number ∧ t.status.errAddrValid = true ∧ t.errAddr = t.srcAddr) ∨
      (opField w = Opcode.unfilterByte.number ∧ t.status.errAddrValid = false ∧ t.errAddr = 0#32)) ∧
    (t.status.errCode = ErrCode.badCmd.number ∨ t.status.errCode = ErrCode.badFormat.number ∨
        t.status.errCode = ErrCode.unsupported.number ∨ t.status.errCode = ErrCode.rowTooLong.number →
      t.status.errAddrValid = false ∧ t.errAddr = 0#32)

/-- `IRQ = STATUS.ERR & CTRL.ERR_IE`, which STATUS.IRQ reads. It rises only in a step that enters a fault
while ERR_IE = 1 or in which the host sets ERR_IE while ERR = 1, and falls only when the host writes
ERR_IE = 0 or the engine is reset (R240). -/
def Obligations.IrqFollowsErrAndEnable : Prop :=
  (∀ s : State, (s.irq = true ↔ s.status.err = true ∧ s.ctrl.errIe = true) ∧
    (mmioRead 0x004 s).getLsbD 5 = s.irq) ∧
  ∀ (e : HostEvent) (rest : List HostEvent) (s t : State), s.inbox = e :: rest → step s = .next t →
    (s.irq = false → t.irq = true →
      (∃ w, e = .write 0x008 .w32 w ∧ s.status.err = false ∧ t.status.err = true ∧ s.ctrl.errIe = true) ∨
      (∃ v, e = .write 0x000 .w32 v ∧ v.getLsbD 0 = false ∧ v.getLsbD 3 = true ∧ s.status.err = true)) ∧
    (s.irq = true → t.irq = false →
      e.isReset = true ∨ ∃ v, e = .write 0x000 .w32 v ∧ v.getLsbD 3 = false)

/-! ## The checksum unit (40_checksum.md), and NOP -/

/-- NOP does nothing: no state changes; with a reserved bit set it is E_BAD_CMD, and while halted it is
ignored (43_system.md R220). -/
def Obligations.NopDoesNothing : Prop :=
  encode .nop = 0x00000000#32 ∧ ∀ s : State,
    exec .nop s = .next s ∧ cmdWrite 0x00000000#32 s = .next s ∧
    ∀ x : BitVec 24, x ≠ 0#24 →
      (s.status.err = false → cmdWrite (0x00#8 ++ x) s = .next (s.enterFault .badCmd none)) ∧
      (s.status.err = true → cmdWrite (0x00#8 ++ x) s = .next s)

/-- CRC_INIT and ADLER_INIT set their register and nothing else, and fault on a reserved bit (R106, R111). -/
def Obligations.ChecksumInit : Prop :=
  encode .crcInit = 0x01000000#32 ∧ encode .adlerInit = 0x08000000#32 ∧ ∀ s : State,
    exec .crcInit s = .next { s with crc := 0x00000000#32 } ∧
    exec .adlerInit s = .next { s with adler := 0x00000001#32 } ∧
    ∀ x : BitVec 24, x ≠ 0#24 → s.status.err = false →
      cmdWrite (0x01#8 ++ x) s = .next (s.enterFault .badCmd none) ∧
      cmdWrite (0x08#8 ++ x) s = .next (s.enterFault .badCmd none)

/-- CRC_BYTE and ADLER_BYTE feed one byte to their register and change nothing else; they fault on a reserved
bit; the corner cases and examples of the rules (R107, R112). -/
def Obligations.ChecksumByte : Prop :=
  (∀ (v : Byte) (s : State),
    encode (.crcByte v) = 0x02#8 ++ 0#16 ++ v ∧ encode (.adlerByte v) = 0x09#8 ++ 0#16 ++ v ∧
    exec (.crcByte v) s = .next { s with crc := crc32Byte s.crc v } ∧
    exec (.adlerByte v) s = .next { s with adler := adler32Byte s.adler v } ∧
    ∀ x : BitVec 16, x ≠ 0#16 → s.status.err = false →
      cmdWrite (0x02#8 ++ x ++ v) s = .next (s.enterFault .badCmd none) ∧
      cmdWrite (0x09#8 ++ x ++ v) s = .next (s.enterFault .badCmd none)) ∧
  crc32Byte 0#32 0x00#8 = 0xD202EF8D#32 ∧ crc32Byte 0#32 0xFF#8 = 0xFF000000#32 ∧
  crc32Byte 0#32 0x61#8 = 0xE8B7BE43#32 ∧ adler32Byte 0xFFF0FFF0#32 0x01#8 = 0xFFF00000#32 ∧
  adler32Byte 0xFFFFFFFF#32 0x00#8 = 0x001C000E#32 ∧ adler32Byte 1#32 0x61#8 = 0x00620062#32

/-- CRC_MEM feeds `len` bytes from SRC_ADDR on, which advances, wrapping; it ends at the first byte whose read
is not admitted, with the bytes before it in CRC and SRC_ADDR at it; the checksum of the rule's example
(R108). -/
def Obligations.CrcMemFeedsTheBytes : Prop :=
  crc32 0#32 [0x31, 0x32, 0x33, 0x34, 0x35, 0x36, 0x37, 0x38, 0x39] = 0xCBF43926#32 ∧
  ∀ (len : BitVec 24) (s : State), encode (.crcMem len) = 0x03#8 ++ len ∧
    (s.admitsRun .read s.srcAddr len.toNat →
      exec (.crcMem len) s = .next { s with
        crc := crc32 s.crc (s.bytesFrom s.srcAddr len.toNat)
        srcAddr := s.srcAddr + BitVec.ofNat 32 len.toNat }) ∧
    ∀ n < len.toNat, s.admitsRun .read s.srcAddr n →
      s.platform.admits (s.srcAddr + BitVec.ofNat 32 n) .read = false →
      exec (.crcMem len) s = .next (State.enterFault { s with
        crc := crc32 s.crc (s.bytesFrom s.srcAddr n)
        srcAddr := s.srcAddr + BitVec.ofNat 32 n } .bus (some (s.srcAddr + BitVec.ofNat 32 n)))

/-- ADLER_MEM feeds `len` bytes from SRC_ADDR on, as CRC_MEM does; the checksum of the rule's example and
its two long corner values (R113). -/
def Obligations.AdlerMemFeedsTheBytes : Prop :=
  (∀ (len : BitVec 24) (s : State), encode (.adlerMem len) = 0x0A#8 ++ len ∧
    (s.admitsRun .read s.srcAddr len.toNat →
      exec (.adlerMem len) s = .next { s with
        adler := adler32 s.adler (s.bytesFrom s.srcAddr len.toNat)
        srcAddr := s.srcAddr + BitVec.ofNat 32 len.toNat }) ∧
    ∀ n < len.toNat, s.admitsRun .read s.srcAddr n →
      s.platform.admits (s.srcAddr + BitVec.ofNat 32 n) .read = false →
      exec (.adlerMem len) s = .next (State.enterFault { s with
        adler := adler32 s.adler (s.bytesFrom s.srcAddr n)
        srcAddr := s.srcAddr + BitVec.ofNat 32 n } .bus (some (s.srcAddr + BitVec.ofNat 32 n)))) ∧
  adler32 1#32 [0x57, 0x69, 0x6B, 0x69, 0x70, 0x65, 0x64, 0x69, 0x61] = 0x11E60398#32 ∧
  adler32 1#32 (List.replicate 5552 0xFF#8) = 0xF18F9B8C#32 ∧
  adler32 1#32 (List.replicate 5553 0xFF#8) = 0x8E299C8B#32

/-- CRC_CHECK compares CRC with the big-endian trailer at SRC_ADDR: match, fatal mismatch, logged mismatch, a
refused trailer byte, a reserved bit (R110). -/
def Obligations.CrcCheckComparesTheTrailer : Prop :=
  ∀ (k : Bool) (s : State), encode (.crcCheck k) = (if k then 0x04000001#32 else 0x04000000#32) ∧
    (s.admitsRun .read s.srcAddr 4 →
      (s.trailerAt s.srcAddr = s.crc → exec (.crcCheck k) s = .next { s with
        status := { s.status with crcMatch := true }
        srcAddr := s.srcAddr + 4#32 }) ∧
      (s.trailerAt s.srcAddr ≠ s.crc → k = true ∧ s.ctrl.ignoreChecksum = false →
        exec (.crcCheck k) s = .next (State.enterFault { s with
          status := { s.status with crcMatch := false } } .badCrc (some s.srcAddr))) ∧
      (s.trailerAt s.srcAddr ≠ s.crc → k = false ∨ s.ctrl.ignoreChecksum = true →
        exec (.crcCheck k) s = .next { s with
          status := { s.status with crcMatch := false, chkLog := true }
          srcAddr := s.srcAddr + 4#32 })) ∧
    (∀ n < 4, s.admitsRun .read s.srcAddr n →
      s.platform.admits (s.srcAddr + BitVec.ofNat 32 n) .read = false →
      exec (.crcCheck k) s = .next (s.enterFault .bus (some (s.srcAddr + BitVec.ofNat 32 n)))) ∧
    ∀ x : BitVec 23, x ≠ 0#23 → s.status.err = false →
      cmdWrite (0x04#8 ++ x ++ BitVec.ofBool k) s = .next (s.enterFault .badCmd none)

/-- ADLER_CHECK is CRC_CHECK with ADLER, ADLER_MATCH and E_BAD_ADLER; the trailer bytes are not tapped
(R114). -/
def Obligations.AdlerCheckComparesTheTrailer : Prop :=
  ∀ (k : Bool) (s : State), encode (.adlerCheck k) = (if k then 0x0B000001#32 else 0x0B000000#32) ∧
    (s.admitsRun .read s.srcAddr 4 →
      (s.trailerAt s.srcAddr = s.adler → exec (.adlerCheck k) s = .next { s with
        status := { s.status with adlerMatch := true }
        srcAddr := s.srcAddr + 4#32 }) ∧
      (s.trailerAt s.srcAddr ≠ s.adler → k = true ∧ s.ctrl.ignoreChecksum = false →
        exec (.adlerCheck k) s = .next (State.enterFault { s with
          status := { s.status with adlerMatch := false } } .badAdler (some s.srcAddr))) ∧
      (s.trailerAt s.srcAddr ≠ s.adler → k = false ∨ s.ctrl.ignoreChecksum = true →
        exec (.adlerCheck k) s = .next { s with
          status := { s.status with adlerMatch := false, chkLog := true }
          srcAddr := s.srcAddr + 4#32 })) ∧
    (∀ n < 4, s.admitsRun .read s.srcAddr n →
      s.platform.admits (s.srcAddr + BitVec.ofNat 32 n) .read = false →
      exec (.adlerCheck k) s = .next (s.enterFault .bus (some (s.srcAddr + BitVec.ofNat 32 n)))) ∧
    ∀ x : BitVec 23, x ≠ 0#23 → s.status.err = false →
      cmdWrite (0x0B#8 ++ x ++ BitVec.ofBool k) s = .next (s.enterFault .badCmd none)

/-- "a mismatch is fatal exactly when `k = 1` and CTRL.IGNORE_CHECKSUM = 0" (R105). With the bit 1 a mismatch
never faults whatever K is, the comparison is still made and logged; and no command but the two checks
depends on the bit: the running values are computed whatever its value (R104). -/
def Obligations.MismatchFatalExactlyWhenCritical : Prop :=
  (∀ (k : Bool) (s : State), s.status.err = false → s.admitsRun .read s.srcAddr 4 →
    (s.trailerAt s.srcAddr ≠ s.crc → ∃ t, exec (.crcCheck k) s = .next t ∧
      (t.status.err = true ↔ k = true ∧ s.ctrl.ignoreChecksum = false) ∧ t.status.crcMatch = false ∧
      (t.status.err = false → t.status.chkLog = true)) ∧
    (s.trailerAt s.srcAddr ≠ s.adler → ∃ t, exec (.adlerCheck k) s = .next t ∧
      (t.status.err = true ↔ k = true ∧ s.ctrl.ignoreChecksum = false) ∧ t.status.adlerMatch = false ∧
      (t.status.err = false → t.status.chkLog = true))) ∧
  ∀ (i : Instr) (b : Bool) (s : State), (∀ k, i ≠ .crcCheck k) → (∀ k, i ≠ .adlerCheck k) →
    exec i { s with ctrl := { s.ctrl with ignoreChecksum := b } }
      = mapNext (fun t => { t with ctrl := { t.ctrl with ignoreChecksum := b } }) (exec i s)

/-- Two CRC_MEM over adjacent bytes leave the state that one leaves, ADLER_MEM likewise, and a run of
CRC_BYTE or ADLER_BYTE leaves the checksum of its bytes (40_checksum.md section 2, split invariance). -/
def Obligations.ChecksumSplitInvariance : Prop :=
  (∀ (p q : BitVec 24) (s : State), p.toNat + q.toNat < 2 ^ 24 →
    issue [.crcMem p, .crcMem q] s = issue [.crcMem (p + q)] s ∧
    issue [.adlerMem p, .adlerMem q] s = issue [.adlerMem (p + q)] s) ∧
  ∀ (vs : List Byte) (s : State), s.status.err = false →
    issue (vs.map .crcByte) s = .next { s with crc := crc32 s.crc vs } ∧
    issue (vs.map .adlerByte) s = .next { s with adler := adler32 s.adler vs }

/-- If a critical check succeeds on a trailer, it raises its fault on any other trailer
(40_checksum.md section 4, the sensitivity law). -/
def Obligations.TrailerSensitivity : Prop :=
  ∀ (s : State) (m : List Host.Cell), s.status.err = false → s.ctrl.ignoreChecksum = false →
    s.admitsRun .read s.srcAddr 4 →
    State.bytesFrom { s with mem := m } s.srcAddr 4 ≠ s.bytesFrom s.srcAddr 4 →
    (∀ t, exec (.crcCheck true) s = .next t → t.status.err = false →
      ∃ u, exec (.crcCheck true) { s with mem := m } = .next u ∧ u.status.err = true ∧
        u.status.errCode = ErrCode.badCrc.number) ∧
    ∀ t, exec (.adlerCheck true) s = .next t → t.status.err = false →
      ∃ u, exec (.adlerCheck true) { s with mem := m } = .next u ∧ u.status.err = true ∧
        u.status.errCode = ErrCode.badAdler.number

/-- Sequences that differ in one byte have different checksums, from any starting value: a consequence of
the update functions (40_checksum.md section 1). -/
def Obligations.SingleByteChangeIsDetected : Prop :=
  ∀ (c : Word) (before after : List Byte) (v w : Byte), v ≠ w →
    crc32 c (before ++ v :: after) ≠ crc32 c (before ++ w :: after) ∧
    adler32 c (before ++ v :: after) ≠ adler32 c (before ++ w :: after)

/-- The CRC of a sequence is the bit-reversed, inverted remainder of the division by polynomial 0x04C11DB7,
most significant bit first: "The parameters are the reflected form of polynomial 0x04C11DB7", with the check
value (40_checksum.md section 1). -/
def Obligations.CrcIsReflectedPolynomialDivision : Prop :=
  (∀ (c : Word) (vs : List Byte),
    crc32 c vs = ~~~(vs.foldl (fun t v => crcMsbBits 8 (t ^^^ (v.reverse ++ 0#24))) (~~~c).reverse).reverse) ∧
  crc32 0#32 [0x31, 0x32, 0x33, 0x34, 0x35, 0x36, 0x37, 0x38, 0x39] = 0xCBF43926#32

/-- The Adler-32 of a sequence is the byte sum plus 1 and the sum of the running sums, both mod 65521
(40_checksum.md section 1). -/
def Obligations.AdlerClosedForm : Prop :=
  ∀ vs : List Byte, adler32 1#32 vs
    = BitVec.ofNat 16 (prefixSum vs % 65521) ++ BitVec.ofNat 16 ((1 + byteSum vs) % 65521)

/-! ## The filter unit (41_filter.md) -/

/-- PASS_BEGIN with a legal, admitted configuration whose row fits: what it latches and resets. With any
other configuration it faults and latches nothing; with a reserved bit it is E_BAD_CMD (R150). -/
def Obligations.PassBeginLatchesTheConfiguration : Prop :=
  encode .passBegin = 0x10000000#32 ∧
  (∀ (channels bpp rb : Nat) (s : State), (s.fmt.srcCt, s.fmt.srcDepth, channels) ∈ legalFormats →
    conversionAdmitted s.fmt → bpp = channels * s.fmt.srcDepth.toNat →
    rb = (s.width.toNat * bpp + 7) / 8 → rb ≤ s.platform.maxRowBytes →
    exec .passBegin s = .next { s with
      latch := ⟨s.width, s.rows, s.fmt, s.dstStride, s.dstXstep, bpp, rb, max 1 (bpp / 8)⟩
      filt := ⟨if s.width = 0#32 ∨ s.rows = 0#32 then .done else .awaitFilter, .none, 0#32, 0#32, true⟩ }) ∧
  (∀ s : State, (∀ channels, (s.fmt.srcCt, s.fmt.srcDepth, channels) ∈ legalFormats →
      conversionAdmitted s.fmt →
      s.platform.maxRowBytes < (s.width.toNat * (channels * s.fmt.srcDepth.toNat) + 7) / 8) →
    ∃ code ∈ [ErrCode.badFormat, .unsupported, .rowTooLong],
      exec .passBegin s = .next (s.enterFault code none)) ∧
  ∀ (x : BitVec 24) (s : State), x ≠ 0#24 → s.status.err = false →
    cmdWrite (0x10#8 ++ x) s = .next (s.enterFault .badCmd none)

/-- check_config's checks in their order, for both commands that make them, and what it returns (R143). -/
def Obligations.ConfigurationFaultsInOrder : Prop :=
  ∀ (i : Instr) (s : State), i = .passBegin ∨ i = .swizzleRow →
    ((∀ channels, (s.fmt.srcCt, s.fmt.srcDepth, channels) ∉ legalFormats) →
      exec i s = .next (s.enterFault .badFormat none)) ∧
    (s.fmt.dstFmt = 3#2 → exec i s = .next (s.enterFault .badFormat none)) ∧
    ∀ channels bpp rb : Nat, (s.fmt.srcCt, s.fmt.srcDepth, channels) ∈ legalFormats → s.fmt.dstFmt ≠ 3#2 →
      bpp = channels * s.fmt.srcDepth.toNat → rb = (s.width.toNat * bpp + 7) / 8 →
      (¬ conversionAdmitted s.fmt → exec i s = .next (s.enterFault .unsupported none)) ∧
      (conversionAdmitted s.fmt → s.platform.maxRowBytes < rb →
        exec i s = .next (s.enterFault .rowTooLong none)) ∧
      (conversionAdmitted s.fmt → rb ≤ s.platform.maxRowBytes →
        liveConfig s = .ok ⟨rb, max 1 (bpp / 8), bpp⟩ s)

/-- A byte in phase IDLE faults E_NO_PASS and in phase DONE E_PASS_OVERRUN, with its bus address from UNFILTER
and without one from UNFILTER_BYTE; a new PASS_BEGIN leaves both phases (R156). -/
def Obligations.PhasesThatTakeNoBytes : Prop :=
  (∀ (phase : Phase) (code : ErrCode), (phase, code) ∈ [(Phase.idle, ErrCode.noPass), (.done, .passOverrun)] →
    ∀ s : State, s.filt.phase = phase →
      (∀ v, exec (.unfilterByte v) s = .next (s.enterFault code none)) ∧
      ∀ len : BitVec 24, len ≠ 0#24 → s.platform.admits s.srcAddr .read = true →
        exec (.unfilter len) s = .next (s.enterFault code (some s.srcAddr))) ∧
  ∀ s t : State, exec .passBegin s = .next t → s.status.err = false → t.status.err = false →
    t.filt.phase ≠ .idle ∧ (s.width ≠ 0#32 → s.rows ≠ 0#32 → t.filt.phase = .awaitFilter)

/-- A filter-type byte of 0 to 4 starts a row; one of 5 to 255 raises E_BAD_FILTER and is not consumed
(R148). -/
def Obligations.FilterTypeByteRule : Prop :=
  ∀ (v : Byte) (s : State), s.filt.phase = .awaitFilter →
    (∀ f, (f, v) ∈ [(FilterType.none, 0#8), (.sub, 1#8), (.up, 2#8), (.average, 3#8), (.paeth, 4#8)] →
      exec (.unfilterByte v) s = .next { s with
        filt := ⟨.inRow, f, 0#32, s.filt.row, s.filt.first⟩
        adler := if s.ctrl.adlerTap then adler32Byte s.adler v else s.adler }) ∧
    (4 < v.toNat → exec (.unfilterByte v) s = .next (s.enterFault .badFilter none)) ∧
    ∀ len : BitVec 24, len ≠ 0#24 → s.platform.admits s.srcAddr .read = true →
      Memory.read s.mem s.srcAddr.toNat = v → 4 < v.toNat →
      exec (.unfilter len) s = .next (s.enterFault .badFilter (some s.srcAddr))

/-- Payload byte F_X of a row: its neighbours (R144), its predictor (R145), and the stored byte (R147),
whether the row then goes on, ends, or ends in a refused emission; before the row's last byte nothing else
changes but F_X and, with the tap, ADLER. -/
def Obligations.PayloadByteIsReconstructed : Prop :=
  ∀ (v : Byte) (s : State), EngineInv s → s.status.err = false → s.filt.phase = .inRow →
    ∃ (a b c : Byte) (p : Nat) (t : State),
      (s.latch.dist ≤ s.filt.x.toNat → RowBuf.get s.cur (s.filt.x.toNat - s.latch.dist) = some a) ∧
      (s.filt.x.toNat < s.latch.dist → a = 0#8) ∧
      (s.filt.first = true → b = 0#8 ∧ c = 0#8) ∧
      (s.filt.first = false → RowBuf.get s.prev s.filt.x.toNat = some b) ∧
      (s.filt.x.toNat < s.latch.dist → c = 0#8) ∧
      (s.filt.first = false → s.latch.dist ≤ s.filt.x.toNat →
        RowBuf.get s.prev (s.filt.x.toNat - s.latch.dist) = some c) ∧
      (s.filt.ftype, p) ∈ [(FilterType.none, 0), (.sub, a.toNat), (.up, b.toNat),
        (.average, (a.toNat + b.toNat) / 2), (.paeth, (paeth a b c).toNat)] ∧
      exec (.unfilterByte v) s = .next t ∧
      t.cur = RowBuf.put s.cur s.filt.x.toNat (BitVec.ofNat 8 ((v.toNat + p) % 256)) ∧
      (s.filt.x.toNat + 1 < s.latch.rowBytes → t = { s with
        cur := t.cur
        filt := ⟨.inRow, s.filt.ftype, s.filt.x + 1#32, s.filt.row, s.filt.first⟩
        adler := if s.ctrl.adlerTap then adler32Byte s.adler v else s.adler })

/-- `row_end()`: at the row's last payload byte, when every access of the emission is admitted, the row is
emitted under the latched formats, DST_ADDR moves by L_STRIDE, PREV takes the row, and the row state machine
goes on; every byte outside the emission's targets keeps its value (R153). -/
def Obligations.RowEndEffects : Prop :=
  ∀ (v : Byte) (s : State), EngineInv s → s.status.err = false → s.filt.phase = .inRow →
    s.filt.x.toNat + 1 = s.latch.rowBytes →
    s.emissionAdmitted s.dstAddr s.latch.width s.latch.fmt s.latch.xstep s.latch.rowBytes →
    ∃ (row : List Byte) (u t : State), row.length = s.latch.rowBytes ∧
      (∀ j < s.filt.x.toNat, row[j]? = RowBuf.get s.cur j) ∧
      emitRow row s.latch.width s.latch.fmt s.latch.xstep s = .ok () u ∧
      exec (.unfilterByte v) s = .next t ∧
      t = { s with
        cur := t.cur, prev := t.prev, mem := u.mem, busLog := u.busLog
        dstAddr := s.dstAddr + s.latch.stride
        filt := ⟨if s.filt.row + 1#32 = s.latch.rows then .done else .awaitFilter, s.filt.ftype, 0#32,
          s.filt.row + 1#32, false⟩
        adler := if s.ctrl.adlerTap then adler32Byte s.adler v else s.adler } ∧
      RowBuf.slice t.cur 0 s.latch.rowBytes = some row ∧
      RowBuf.slice t.prev 0 s.latch.rowBytes = some row ∧
      ∀ b, ¬ emitTarget s.dstAddr s.latch.width s.latch.fmt s.latch.xstep s.latch.rowBytes b →
        Memory.read t.mem b = Memory.read s.mem b

/-- A destination access refused during row emission, a write or under SRC_OVER a read: the byte is stored and
F_X = L_ROW_BYTES, the emission ends at the first refused access (with its earlier bytes written, as
RowsLandPixelByPixel says), the rest of `row_end()` is not done, the byte is not tapped (60_exceptions.md
section 2, the first exception). -/
def Obligations.RefusedEmissionKeepsTheRowOpen : Prop :=
  ∀ (v : Byte) (s : State), EngineInv s → s.status.err = false → s.filt.phase = .inRow →
    s.filt.x.toNat + 1 = s.latch.rowBytes →
    ¬ s.emissionAdmitted s.dstAddr s.latch.width s.latch.fmt s.latch.xstep s.latch.rowBytes →
    ∃ (row : List Byte) (w t : State) (c : Access), exec (.unfilterByte v) s = .next t ∧
      emitRow row s.latch.width s.latch.fmt s.latch.xstep s = .ended w ∧
      s.platform.firstRefused
        (emissionAccesses s.dstAddr s.latch.width s.latch.fmt s.latch.xstep s.latch.rowBytes) = some c ∧
      t.errAddr = c.1 ∧
      t = { s with
        status := { s.status with err := true, errAddrValid := true, errCode := ErrCode.bus.number }
        errAddr := w.errAddr, cur := t.cur, mem := w.mem, busLog := w.busLog
        filt := { s.filt with x := BitVec.ofNat 32 s.latch.rowBytes } } ∧
      RowBuf.slice t.cur 0 s.latch.rowBytes = some row ∧ (∀ j < s.filt.x.toNat, row[j]? = RowBuf.get s.cur j) ∧
      ∀ b, ¬ emitTarget s.dstAddr s.latch.width s.latch.fmt s.latch.xstep s.latch.rowBytes b →
        Memory.read t.mem b = Memory.read s.mem b

/-- The Paeth predictor is the neighbour nearest to `a + b - c` on exact integers, "tie-break order a, then
b, then c" (R146). -/
def Obligations.PaethPicksTheNearest : Prop :=
  ∀ a b c : Byte, ∃ (p : Int) (far : Byte → Nat),
    p = (a.toNat : Int) + b.toNat - c.toNat ∧ (∀ y : Byte, far y = (p - y.toNat).natAbs) ∧
    (∀ y ∈ [a, b, c], far (paeth a b c) ≤ far y) ∧
    (far a ≤ far b → far a ≤ far c → paeth a b c = a) ∧
    (¬(far a ≤ far b ∧ far a ≤ far c) → far b ≤ far c → paeth a b c = b) ∧
    (¬(far a ≤ far b ∧ far a ≤ far c) → ¬ far b ≤ far c → paeth a b c = c)

/-- On a first row Paeth equals Sub, Up equals None and Average adds half of `a`; with `a = c = 0` Paeth
equals Up on any row (41_filter.md section 4). -/
def Obligations.FirstRowCollapses : Prop :=
  ∀ raw a b : Byte,
    reconstruct .paeth raw a 0#8 0#8 = reconstruct .sub raw a 0#8 0#8 ∧
    reconstruct .up raw a 0#8 0#8 = reconstruct .none raw a 0#8 0#8 ∧
    reconstruct .average raw a 0#8 0#8 = raw + BitVec.ofNat 8 (a.toNat / 2) ∧
    reconstruct .paeth raw 0#8 b 0#8 = reconstruct .up raw 0#8 b 0#8

/-- One UNFILTER over a filter-type byte and a whole row leaves in PREV the row that a list reference
decodes from the source bytes and the row above, emits that row, and advances both pointers: the row state
machine refines the reference (41_filter.md sections 2 and 3). -/
def Obligations.UnfilterDecodesAWholeRow : Prop :=
  ∀ (f : FilterType) (len : BitVec 24) (s : State), EngineInv s → s.status.err = false →
    s.filt.phase = .awaitFilter → len.toNat = 1 + s.latch.rowBytes →
    s.admitsRun .read s.srcAddr (1 + s.latch.rowBytes) →
    Memory.read s.mem s.srcAddr.toNat = filterTypeByte f →
    s.emissionAdmitted s.dstAddr s.latch.width s.latch.fmt s.latch.xstep s.latch.rowBytes →
    ∃ (row : List Byte) (u t : State),
      row = decodeRow f s.latch.dist s.rowAbove (s.bytesFrom (s.srcAddr + 1#32) s.latch.rowBytes) ∧
      emitRow row s.latch.width s.latch.fmt s.latch.xstep s = .ok () u ∧
      exec (.unfilter len) s = .next t ∧
      t = { s with
        cur := t.cur, prev := t.prev, mem := u.mem, busLog := u.busLog
        srcAddr := s.srcAddr + BitVec.ofNat 32 (1 + s.latch.rowBytes)
        dstAddr := s.dstAddr + s.latch.stride
        filt := ⟨if s.filt.row + 1#32 = s.latch.rows then .done else .awaitFilter, f, 0#32,
          s.filt.row + 1#32, false⟩
        adler := if s.ctrl.adlerTap then
          adler32 s.adler (s.bytesFrom s.srcAddr (1 + s.latch.rowBytes)) else s.adler } ∧
      RowBuf.slice t.prev 0 s.latch.rowBytes = some row

/-- The round-trip law: from the start of a pass, the filtered stream of any rows, for any filter types,
reconstructs CUR = the original row at each row end (41_filter.md section 4: the encode-direction filter is
its oracle). -/
def Obligations.FilterRoundTrip : Prop :=
  ∀ (rows : List (FilterType × List Byte)) (f : FilterType) (row : List Byte) (s : State), EngineInv s →
    s.status.err = false → s.filt.phase = .awaitFilter → s.filt.row = 0#32 →
    rows.length + 1 ≤ s.latch.rows.toNat →
    (∀ r ∈ rows ++ [(f, row)], r.2.length = s.latch.rowBytes) →
    (∀ k ≤ rows.length, s.emissionAdmitted (s.dstAddr + BitVec.ofNat 32 k * s.latch.stride) s.latch.width
      s.latch.fmt s.latch.xstep s.latch.rowBytes) →
    ∃ t, issue ((encodeRows s.latch.dist none (rows ++ [(f, row)])).map .unfilterByte) s = .next t ∧
      t.status.err = false ∧ t.filt.row.toNat = rows.length + 1 ∧
      RowBuf.slice t.cur 0 s.latch.rowBytes = some row ∧ RowBuf.slice t.prev 0 s.latch.rowBytes = some row

/-- UNFILTER takes its bytes one at a time, each read at SRC_ADDR before the filter unit sees it: what it does
with the first is what UNFILTER_BYTE of that byte does, with SRC_ADDR as the address of a fault of the byte's
own; a fault ends the command with SRC_ADDR at its byte, and `len = 0` does nothing in any phase
(41_filter.md section 3, UNFILTER_BYTE and UNFILTER). -/
def Obligations.UnfilterFeedsByteByByte : Prop :=
  (∀ s : State, exec (.unfilter 0#24) s = .next s) ∧
  ∀ (len : BitVec 24) (s : State), len ≠ 0#24 → s.status.err = false →
    (s.platform.admits s.srcAddr .read = false →
      exec (.unfilter len) s = .next (s.enterFault .bus (some s.srcAddr))) ∧
    (s.platform.admits s.srcAddr .read = true →
      ∀ t, exec (.unfilterByte (Memory.read s.mem s.srcAddr.toNat)) s = .next t →
        (t.status.err = false →
          exec (.unfilter len) s = exec (.unfilter (len - 1#24)) { t with srcAddr := s.srcAddr + 1#32 }) ∧
        (t.status.err = true → t.srcAddr = s.srcAddr) ∧
        (t.status.err = true → t.status.errAddrValid = true → exec (.unfilter len) s = .next t) ∧
        (t.status.err = true → t.status.errAddrValid = false → exec (.unfilter len) s = .next { t with
          status := { t.status with errAddrValid := true }
          errAddr := s.srcAddr }))

/-- UNFILTER p and then UNFILTER q leave the state and the bus writes that UNFILTER p+q leaves, from every
state; and UNFILTER 1 leaves what UNFILTER_BYTE of the byte at SRC_ADDR leaves, with SRC_ADDR advanced
(41_filter.md section 4, split invariance). -/
def Obligations.UnfilterSplitInvariance : Prop :=
  (∀ (p q : BitVec 24) (s : State), p.toNat + q.toNat < 2 ^ 24 →
    issue [.unfilter p, .unfilter q] s = issue [.unfilter (p + q)] s) ∧
  ∀ (s t : State), s.status.err = false → s.platform.admits s.srcAddr .read = true →
    exec (.unfilterByte (Memory.read s.mem s.srcAddr.toNat)) s = .next t → t.status.err = false →
    exec (.unfilter 1#24) s = .next { t with srcAddr := s.srcAddr + 1#32 }

/-- PASS_BEGIN copies the live configuration, and no later value of it has an effect on the pass; SWIZZLE_ROW
reads it live and not the pass (70_reset_and_hazards.md R263). -/
def Obligations.PassIgnoresLiveConfiguration : Prop :=
  ∀ s : State,
    (∀ (w r : Word) (f : Fmt) (stride xstep : Word),
      (∀ len, exec (.unfilter len) (s.withConfig w r f stride xstep)
        = mapNext (fun t => t.withConfig w r f stride xstep) (exec (.unfilter len) s)) ∧
      ∀ v, exec (.unfilterByte v) (s.withConfig w r f stride xstep)
        = mapNext (fun t => t.withConfig w r f stride xstep) (exec (.unfilterByte v) s)) ∧
    (∀ t, exec .passBegin s = .next t → s.status.err = false → t.status.err = false →
      t.latch.width = s.width ∧ t.latch.rows = s.rows ∧ t.latch.fmt = s.fmt ∧
        t.latch.stride = s.dstStride ∧ t.latch.xstep = s.dstXstep) ∧
    ∀ (l : Latch) (f : Filt) (cur prev : List Host.Cell),
      exec .swizzleRow (s.withPass l f cur prev)
        = mapNext (fun t => t.withPass l f cur prev) (exec .swizzleRow s)

/-- The frame of the filter commands: what they leave alone, and where their stores go: the targets of the
rows they complete (as many as F_ROW advances by), at DST_ADDR and then at steps of L_STRIDE, and of one more
row when its emission is refused (41_filter.md section 3; 42_swizzle.md section 3). -/
def Obligations.UnfilterFrame : Prop :=
  ∀ (i : Instr) (s t : State), (∃ len, i = .unfilter len) ∨ (∃ v, i = .unfilterByte v) →
    s.status.err = false → exec i s = .next t →
    t = { s with
      status := { s.status with
        err := t.status.err, errAddrValid := t.status.errAddrValid, errCode := t.status.errCode }
      errAddr := t.errAddr, adler := t.adler, srcAddr := t.srcAddr, dstAddr := t.dstAddr
      filt := t.filt
      cur := t.cur, prev := t.prev, mem := t.mem, busLog := t.busLog } ∧
    ((∃ v, i = .unfilterByte v) → t.srcAddr = s.srcAddr) ∧
    (s.ctrl.adlerTap = false → t.adler = s.adler) ∧
    (t.status.err = false → t.status = s.status ∧ t.errAddr = s.errAddr) ∧
    t.dstAddr = s.dstAddr + (t.filt.row - s.filt.row) * s.latch.stride ∧
    ((∃ v, i = .unfilterByte v) → (t.filt.row - s.filt.row).toNat ≤ 1) ∧
    (∀ len, i = .unfilter len → (t.filt.row - s.filt.row).toNat ≤ len.toNat) ∧
    ∀ b, (∀ k, k < (t.filt.row - s.filt.row).toNat ∨
          (k = (t.filt.row - s.filt.row).toNat ∧ t.status.err = true ∧
            t.status.errCode = ErrCode.bus.number ∧ t.filt.phase = .inRow ∧
            t.filt.x.toNat = s.latch.rowBytes) →
        ¬ emitTarget (s.dstAddr + BitVec.ofNat 32 k * s.latch.stride) s.latch.width s.latch.fmt
          s.latch.xstep s.latch.rowBytes b) →
      Memory.read t.mem b = Memory.read s.mem b

/-- The Adler tap: while CTRL.ADLER_TAP = 1 every byte the filter unit consumes, filter-type bytes too, also
updates ADLER; a byte that faults is not tapped (40_checksum.md R115). -/
def Obligations.AdlerTapFollowsTheFilter : Prop :=
  ∀ (v : Byte) (s t : State), s.status.err = false →
    (exec (.unfilterByte v) s = .next t →
      t.adler = if s.ctrl.adlerTap = true ∧ t.status.err = false then adler32Byte s.adler v else s.adler) ∧
    (s.platform.admits s.srcAddr .read = true → Memory.read s.mem s.srcAddr.toNat = v →
      exec (.unfilter 1#24) s = .next t →
      t.adler = if s.ctrl.adlerTap = true ∧ t.status.err = false then adler32Byte s.adler v else s.adler)

/-! ## The swizzler unit (42_swizzle.md) -/

/-- PAL_LOAD: `n` triplets R, G, B from SRC_ADDR on into the first entries, A = 0xFF, the other entries left;
`n` out of range; a refused triplet byte, with the entries before it loaded and SRC_ADDR at its triplet; a
reserved bit (R192). -/
def Obligations.PalLoadLoadsTriplets : Prop :=
  ∀ (n : BitVec 9) (s : State),
    (n.toNat = 0 ∨ 256 < n.toNat → exec (.palLoad n) s = .next (s.enterFault .badCmd none)) ∧
    (1 ≤ n.toNat → n.toNat ≤ 256 →
      (s.admitsRun .read s.srcAddr (3 * n.toNat) →
        ∃ t, exec (.palLoad n) s = .next t ∧
          t = { s with pal := t.pal, srcAddr := s.srcAddr + BitVec.ofNat 32 (3 * n.toNat) } ∧
          (∀ i < n.toNat, ∃ r g b, s.bytesFrom (s.srcAddr + BitVec.ofNat 32 (3 * i)) 3 = [r, g, b] ∧
            t.pal[i]? = some (0xFF#8 ++ r ++ g ++ b)) ∧
          ∀ i, n.toNat ≤ i → t.pal[i]? = s.pal[i]?) ∧
      ∀ k, k < 3 * n.toNat → s.admitsRun .read s.srcAddr k →
        s.platform.admits (s.srcAddr + BitVec.ofNat 32 k) .read = false →
        ∃ t : State, exec (.palLoad n) s = .next (t.enterFault .bus (some (s.srcAddr + BitVec.ofNat 32 k))) ∧
          t = { s with pal := t.pal, srcAddr := s.srcAddr + BitVec.ofNat 32 (3 * (k / 3)) } ∧
          (∀ i < k / 3, ∃ r g b, s.bytesFrom (s.srcAddr + BitVec.ofNat 32 (3 * i)) 3 = [r, g, b] ∧
            t.pal[i]? = some (0xFF#8 ++ r ++ g ++ b)) ∧
          ∀ i, k / 3 ≤ i → t.pal[i]? = s.pal[i]?) ∧
    ∀ x : BitVec 15, x ≠ 0#15 → s.status.err = false →
      cmdWrite (0x18#8 ++ x ++ n) s = .next (s.enterFault .badCmd none)

/-- SWIZZLE_ROW: the configuration is checked, the whole row read, then emitted with the live registers, and
both pointers advance; a refused source byte leaves everything; the first refused destination access, a write
or under SRC_OVER a read, ends the emission, its earlier bytes written, and leaves the pointers; a reserved
bit; the filter unit is neither read nor written (R193). -/
def Obligations.SwizzleRowConvertsOneRow : Prop :=
  encode .swizzleRow = 0x19000000#32 ∧ ∀ s : State,
    (∀ code, checkConfig s.width s.fmt s.platform.maxRowBytes = .error code →
      exec .swizzleRow s = .next (s.enterFault code none)) ∧
    (∀ g, checkConfig s.width s.fmt s.platform.maxRowBytes = .ok g →
      (s.admitsRun .read s.srcAddr g.rowBytes →
        (s.emissionAdmitted s.dstAddr s.width s.fmt s.dstXstep g.rowBytes →
          ∃ u, emitRow (s.bytesFrom s.srcAddr g.rowBytes) s.width s.fmt s.dstXstep s = .ok () u ∧
            u = { s with mem := u.mem, busLog := u.busLog } ∧
            (∀ b, ¬ emitTarget s.dstAddr s.width s.fmt s.dstXstep g.rowBytes b →
              Memory.read u.mem b = Memory.read s.mem b) ∧
            exec .swizzleRow s = .next { u with
              srcAddr := s.srcAddr + BitVec.ofNat 32 g.rowBytes
              dstAddr := s.dstAddr + s.dstStride }) ∧
        (¬ s.emissionAdmitted s.dstAddr s.width s.fmt s.dstXstep g.rowBytes →
          ∃ (u t : State) (c : Access), exec .swizzleRow s = .next t ∧
            emitRow (s.bytesFrom s.srcAddr g.rowBytes) s.width s.fmt s.dstXstep s = .ended t ∧
            s.platform.firstRefused (emissionAccesses s.dstAddr s.width s.fmt s.dstXstep g.rowBytes)
              = some c ∧
            t = State.enterFault u .bus (some c.1) ∧
            u = { s with mem := u.mem, busLog := u.busLog } ∧
            ∀ b, ¬ emitTarget s.dstAddr s.width s.fmt s.dstXstep g.rowBytes b →
              Memory.read u.mem b = Memory.read s.mem b)) ∧
      (∀ n < g.rowBytes, s.admitsRun .read s.srcAddr n →
        s.platform.admits (s.srcAddr + BitVec.ofNat 32 n) .read = false →
        exec .swizzleRow s = .next (s.enterFault .bus (some (s.srcAddr + BitVec.ofNat 32 n)))) ∧
      (s.width = 0#32 → exec .swizzleRow s = .next { s with dstAddr := s.dstAddr + s.dstStride })) ∧
    (∀ x : BitVec 24, x ≠ 0#24 → s.status.err = false →
      cmdWrite (0x19#8 ++ x) s = .next (s.enterFault .badCmd none)) ∧
    ∀ (l : Latch) (f : Filt) (cur prev : List Host.Cell),
      exec .swizzleRow (s.withPass l f cur prev)
        = mapNext (fun t => t.withPass l f cur prev) (exec .swizzleRow s)

/-- Where, in what order and with what values a row is emitted. Under any good configuration an emission is its
accesses followed in order (pixels ascending, bytes B, G, R, A, RAW bytes ascending), up to the first refused
one, with the earlier ones done; the last write to an address wins; and pixel by pixel its bytes are the
conversion's, those of `OverFn` of the bytes read under SRC_OVER. When no two pixels overlap, a RAW row lands
unchanged at DST_ADDR, pixel `i` of a Y8 row at DST_ADDR + i * XSTEP, and of a BGRA row as four bytes there
(42_swizzle.md sections 1, 3 and 5; R188, R195). -/
def Obligations.RowsLandPixelByPixel : Prop :=
  (∀ (width : Word) (f : Fmt) (m : Nat) (g : Geometry) (sf : SrcFormat) (xstep : Word) (row : List Byte)
      (s : State),
    checkConfig width f m = .ok g → srcFormatOf f = some sf → row.length = g.rowBytes →
    ∃ ops : List BusOp, ops.map BusOp.access = emissionAccesses s.dstAddr width f xstep g.rowBytes ∧
      readsMemory ops s ∧ emitRow row width f xstep s = follow ops s ∧
      (∀ (t : State) (pre post : List BusOp) (a : Addr) (v : Byte), emitRow row width f xstep s = .ok () t →
        ops = pre ++ ⟨(a, .write), v⟩ :: post → (∀ o ∈ post, o.access ≠ (a, .write)) →
        Memory.read t.mem a.toNat = v) ∧
      (f.dstFmt = 0#2 → ops.map BusOp.value = row) ∧
      (f.dstFmt = 1#2 → ∀ i < width.toNat, (ops[i]?).map BusOp.value = toY8 sf row i) ∧
      (f.dstFmt = 2#2 → ∀ i < width.toNat, ∃ px, toBgra s.pal sf row i = some px ∧
        (f.blend = 0#1 → ((ops.drop (4 * i)).take 4).map BusOp.value = [px.b, px.g, px.r, px.a]) ∧
        (f.blend = 1#1 → ∃ old : Pixel, ((ops.drop (8 * i)).take 8).map BusOp.value
          = [old.b, old.g, old.r, old.a] ++ pixelBytes (Config.overFn old px)))) ∧
  ∀ (g : Geometry) (sf : SrcFormat) (s : State),
    checkConfig s.width s.fmt s.platform.maxRowBytes = .ok g → srcFormatOf s.fmt = some sf →
    s.admitsRun .read s.srcAddr g.rowBytes →
    s.emissionAdmitted s.dstAddr s.width s.fmt s.dstXstep g.rowBytes →
    ∃ (row : List Byte) (t : State), row = s.bytesFrom s.srcAddr g.rowBytes ∧ exec .swizzleRow s = .next t ∧
      (s.fmt.dstFmt = 0#2 → g.rowBytes ≤ 2 ^ 32 → t.bytesFrom s.dstAddr g.rowBytes = row) ∧
      (s.fmt.dstFmt = 1#2 → 1 ≤ s.dstXstep.toNat → s.width.toNat * s.dstXstep.toNat ≤ 2 ^ 32 →
        ∀ i < s.width.toNat,
          toY8 sf row i = some (Memory.read t.mem (pixelAddr s.dstAddr s.dstXstep i).toNat)) ∧
      (s.fmt.dstFmt = 2#2 → 4 ≤ s.dstXstep.toNat → s.width.toNat * s.dstXstep.toNat ≤ 2 ^ 32 →
        ∀ i < s.width.toNat, ∃ px, toBgra s.pal sf row i = some px ∧
          (s.fmt.blend = 0#1 →
            t.bytesFrom (pixelAddr s.dstAddr s.dstXstep i) 4 = [px.b, px.g, px.r, px.a]) ∧
          (s.fmt.blend = 1#1 → ∃ old : Pixel,
            s.bytesFrom (pixelAddr s.dstAddr s.dstXstep i) 4 = [old.b, old.g, old.r, old.a] ∧
            t.bytesFrom (pixelAddr s.dstAddr s.dstXstep i) 4 = pixelBytes (Config.overFn old px)))

/-- Bit-depth normalisation (R183, R184) and the table of `to_bgra` (R186). -/
def Obligations.PixelConversionTable : Prop :=
  (∀ v : BitVec 1, norm8 .d1 (v.setWidth 16) = v ++ v ++ v ++ v ++ v ++ v ++ v ++ v) ∧
  (∀ v : BitVec 2, norm8 .d2 (v.setWidth 16) = v ++ v ++ v ++ v) ∧
  (∀ v : BitVec 4, norm8 .d4 (v.setWidth 16) = v ++ v) ∧
  (∀ v : BitVec 1, (norm8 .d1 (v.setWidth 16)).toNat = v.toNat * 255) ∧
  (∀ v : BitVec 2, (norm8 .d2 (v.setWidth 16)).toNat = v.toNat * 85) ∧
  (∀ v : BitVec 4, (norm8 .d4 (v.setWidth 16)).toNat = v.toNat * 17) ∧
  (∀ v : Byte, norm8 .d8 (v.setWidth 16) = v) ∧
  (∀ hi lo : Byte, norm8 .d16 (hi ++ lo) = hi) ∧
  ∀ (pal : Vector Word 256) (d : Depth) (buf : List Byte) (i : Nat),
    (∀ y, sample ⟨.gray, d⟩ buf i 0 = some y →
      toBgra pal ⟨.gray, d⟩ buf i = some ⟨norm8 d y, norm8 d y, norm8 d y, 0xFF#8⟩) ∧
    (∀ r g b, sample ⟨.rgb, d⟩ buf i 0 = some r → sample ⟨.rgb, d⟩ buf i 1 = some g →
      sample ⟨.rgb, d⟩ buf i 2 = some b →
      toBgra pal ⟨.rgb, d⟩ buf i = some ⟨norm8 d b, norm8 d g, norm8 d r, 0xFF#8⟩) ∧
    (∀ (idx : BitVec 16) (w : Word), sample ⟨.indexed, d⟩ buf i 0 = some idx → pal[idx.toNat]? = some w →
      toBgra pal ⟨.indexed, d⟩ buf i
        = some ⟨w.extractLsb' 0 8, w.extractLsb' 8 8, w.extractLsb' 16 8, w.extractLsb' 24 8⟩) ∧
    (∀ y a, sample ⟨.grayAlpha, d⟩ buf i 0 = some y → sample ⟨.grayAlpha, d⟩ buf i 1 = some a →
      toBgra pal ⟨.grayAlpha, d⟩ buf i = some ⟨norm8 d y, norm8 d y, norm8 d y, norm8 d a⟩) ∧
    ∀ r g b a, sample ⟨.rgba, d⟩ buf i 0 = some r → sample ⟨.rgba, d⟩ buf i 1 = some g →
      sample ⟨.rgba, d⟩ buf i 2 = some b → sample ⟨.rgba, d⟩ buf i 3 = some a →
      toBgra pal ⟨.rgba, d⟩ buf i = some ⟨norm8 d b, norm8 d g, norm8 d r, norm8 d a⟩

/-- `sample(buf, i, ch)`: below 8 bits the bits of the packed row, the leftmost pixel in the high-order bits;
at 8 bits a byte; at 16 bits a big-endian pair (R182). -/
def Obligations.SampleReadsThePackedRow : Prop :=
  (∀ (ct : ColourType) (d : Depth) (n : Nat) (buf : List Byte) (i : Nat),
    (d, n) ∈ [(Depth.d1, 1), (.d2, 2), (.d4, 4)] → i * n / 8 < buf.length →
    ∃ v, sample ⟨ct, d⟩ buf i 0 = some v ∧ v.toNat < 2 ^ n ∧
      ∀ k < n, v.getLsbD (n - 1 - k) = rowBit buf (i * n + k)) ∧
  (∀ (ct : ColourType) (buf : List Byte) (i ch : Nat) (v : Byte), buf[i * ct.channels + ch]? = some v →
    sample ⟨ct, .d8⟩ buf i ch = some (v.setWidth 16)) ∧
  ∀ (ct : ColourType) (buf : List Byte) (i ch : Nat) (hi lo : Byte),
    buf[2 * (i * ct.channels + ch)]? = some hi → buf[2 * (i * ct.channels + ch) + 1]? = some lo →
    sample ⟨ct, .d16⟩ buf i ch = some (hi ++ lo)

/-- Bits of a row beyond its last pixel are ignored by Y8 and BGRA emission (42_swizzle.md section 5). -/
def Obligations.UnusedRowBitsAreIgnored : Prop :=
  ∀ (buf buf' : List Byte) (width : Word) (f : Fmt) (sf : SrcFormat) (xstep : Word) (s : State),
    srcFormatOf f = some sf → f.dstFmt ≠ 0#2 → buf.length = buf'.length →
    (∀ p < width.toNat * sf.bpp, rowBit buf p = rowBit buf' p) →
    emitRow buf width f xstep s = emitRow buf' width f xstep s

/-! ## The whole machine -/

/-- Whatever a command does to memory it does by bus writes that the platform admits, in the order of the log
of bus writes, and only the filter commands and SWIZZLE_ROW do any (20_memory.md sections 1 and 2). -/
def Obligations.EveryMemoryChangeIsAnAdmittedBusWrite : Prop :=
  ∀ (i : Instr) (s t : State), exec i s = .next t →
    ∃ writes : List Host.Cell, t.busLog = writes ++ s.busLog ∧
      t.mem = writes.foldr (fun c m => Memory.write m c.1 c.2) s.mem ∧
      (∀ c ∈ writes, ∃ a : Addr, c.1 = a.toNat ∧ s.platform.admits a .write = true) ∧
      (writes ≠ [] → (∃ len, i = .unfilter len) ∨ (∃ v, i = .unfilterByte v) ∨ i = .swizzleRow)

/-- Which commands write which state: every register and every piece of internal state is left alone by the
commands the rules of 10_state.md do not name for it, and no command writes CTRL, the configuration
registers, the platform or the model's own inbox and read value (10_state.md sections 1 and 2). -/
def Obligations.CommandsWriteOnlyTheirState : Prop :=
  ∀ (i : Instr) (s t : State), exec i s = .next t →
    t.ctrl = s.ctrl ∧ t.dstStride = s.dstStride ∧ t.dstXstep = s.dstXstep ∧ t.width = s.width ∧
    t.rows = s.rows ∧ t.fmt = s.fmt ∧ t.platform = s.platform ∧ t.inbox = s.inbox ∧
    t.readData = s.readData ∧
    (t.crc ≠ s.crc → i = .crcInit ∨ (∃ v, i = .crcByte v) ∨ ∃ len, i = .crcMem len) ∧
    (t.adler ≠ s.adler → i = .adlerInit ∨ (∃ v, i = .adlerByte v) ∨ (∃ len, i = .adlerMem len) ∨
      s.ctrl.adlerTap = true ∧ ((∃ len, i = .unfilter len) ∨ ∃ v, i = .unfilterByte v)) ∧
    (t.srcAddr ≠ s.srcAddr → (∃ len, i = .crcMem len) ∨ (∃ k, i = .crcCheck k) ∨ (∃ len, i = .adlerMem len) ∨
      (∃ k, i = .adlerCheck k) ∨ (∃ len, i = .unfilter len) ∨ (∃ n, i = .palLoad n) ∨ i = .swizzleRow) ∧
    (t.dstAddr ≠ s.dstAddr → (∃ len, i = .unfilter len) ∨ (∃ v, i = .unfilterByte v) ∨ i = .swizzleRow) ∧
    (t.pal ≠ s.pal → ∃ n, i = .palLoad n) ∧
    (t.latch ≠ s.latch → i = .passBegin) ∧
    (t.filt ≠ s.filt → i = .passBegin ∨ (∃ len, i = .unfilter len) ∨ ∃ v, i = .unfilterByte v) ∧
    (t.cur ≠ s.cur ∨ t.prev ≠ s.prev → (∃ len, i = .unfilter len) ∨ ∃ v, i = .unfilterByte v) ∧
    (t.mem ≠ s.mem ∨ t.busLog ≠ s.busLog →
      (∃ len, i = .unfilter len) ∨ (∃ v, i = .unfilterByte v) ∨ i = .swizzleRow) ∧
    (t.status.crcMatch ≠ s.status.crcMatch → ∃ k, i = .crcCheck k) ∧
    (t.status.adlerMatch ≠ s.status.adlerMatch → ∃ k, i = .adlerCheck k) ∧
    (t.status.chkLog ≠ s.status.chkLog → t.status.chkLog = true ∧
      ((∃ k, i = .crcCheck k) ∨ ∃ k, i = .adlerCheck k)) ∧
    (s.status.err = false → t.status.err = false →
      t.status.errCode = s.status.errCode ∧ t.status.errAddrValid = s.status.errAddrValid ∧
        t.errAddr = s.errAddr)

end Statements
end

