-- ==== Sys2Proof/Laws/Cells.lean ====
section
/-! SUPPORT. Lists of cells, the bus memory and the row buffers: a read after a write, everything else
left alone, and the canonical form kept. -/

namespace Sys2Proof.Machine

/-! ### Lists of cells -/

@[simp] theorem cellsGet_nil (a : Nat) : cellsGet [] a = none := rfl

@[simp] theorem cellsGet_put_same (m : List Host.Cell) (a : Nat) (v : Byte) :
    cellsGet (cellsPut m a v) a = some v := by
  induction m with
  | nil => simp [cellsPut, cellsGet]
  | cons c rest ih =>
    obtain ⟨k, w⟩ := c
    unfold cellsPut
    split
    · simp [cellsGet]
    · split
      · simp [cellsGet]
      · rename_i h1 h2
        simp [cellsGet, ih, Ne.symm h2]

theorem cellsGet_put_other (m : List Host.Cell) {a b : Nat} (v : Byte) (h : b ≠ a) :
    cellsGet (cellsPut m a v) b = cellsGet m b := by
  induction m with
  | nil => simp [cellsPut, cellsGet, Ne.symm h]
  | cons c rest ih =>
    obtain ⟨k, w⟩ := c
    unfold cellsPut
    split
    · simp [cellsGet, Ne.symm h]
    · split
      · rename_i h1 h2
        subst h2
        simp [cellsGet, Ne.symm h]
      · simp [cellsGet, ih]

theorem cellsGet_put (m : List Host.Cell) (a b : Nat) (v : Byte) :
    cellsGet (cellsPut m a v) b = if b = a then some v else cellsGet m b := by
  split
  · subst b; simp
  · exact cellsGet_put_other m v ‹_›

@[simp] theorem cellsGet_drop_same (m : List Host.Cell) (a : Nat) : cellsGet (cellsDrop m a) a = none := by
  induction m with
  | nil => rfl
  | cons c rest ih =>
    obtain ⟨k, w⟩ := c
    by_cases h : k = a
    · simpa [cellsDrop, h] using ih
    · simpa [cellsDrop, cellsGet, h] using ih

theorem cellsGet_drop_other (m : List Host.Cell) {a b : Nat} (h : b ≠ a) :
    cellsGet (cellsDrop m a) b = cellsGet m b := by
  induction m with
  | nil => rfl
  | cons c rest ih =>
    obtain ⟨k, w⟩ := c
    by_cases hk : k = a
    · subst hk
      simpa [cellsDrop, cellsGet, Ne.symm h] using ih
    · by_cases hb : k = b
      · simp [cellsDrop, cellsGet, hb, h]
      · simpa [cellsDrop, cellsGet, hk, hb] using ih

/-- What a cell of the list after a put can be. -/
theorem mem_cellsPut {m : List Host.Cell} {a : Nat} {v : Byte} {c : Host.Cell}
    (h : c ∈ cellsPut m a v) : c = (a, v) ∨ c ∈ m := by
  induction m with
  | nil => simpa [cellsPut] using h
  | cons d rest ih =>
    obtain ⟨k, w⟩ := d
    unfold cellsPut at h
    split at h
    · simpa using h
    · split at h
      · rcases List.mem_cons.1 h with h | h
        · exact .inl h
        · exact .inr (List.mem_cons_of_mem _ h)
      · rcases List.mem_cons.1 h with h | h
        · exact .inr (by simp [h])
        · exact (ih h).imp id (List.mem_cons_of_mem _)

theorem mem_cellsDrop {m : List Host.Cell} {a : Nat} {c : Host.Cell} (h : c ∈ cellsDrop m a) : c ∈ m :=
  (List.mem_filter.1 h).1

theorem cellsRising_put {m : List Host.Cell} (a : Nat) (v : Byte) (h : cellsRising m) :
    cellsRising (cellsPut m a v) := by
  induction m with
  | nil => simp [cellsRising, cellsPut]
  | cons d rest ih =>
    obtain ⟨k, w⟩ := d
    have hr := List.pairwise_cons.1 h
    unfold cellsPut
    split
    · rename_i hlt
      refine List.pairwise_cons.2 ⟨fun c hc => ?_, h⟩
      rcases List.mem_cons.1 hc with rfl | hc
      · exact hlt
      · exact Nat.lt_trans hlt (hr.1 c hc)
    · split
      · rename_i heq
        subst heq
        exact List.pairwise_cons.2 ⟨hr.1, hr.2⟩
      · rename_i hge hne
        refine List.pairwise_cons.2 ⟨fun c hc => ?_, ih hr.2⟩
        rcases mem_cellsPut hc with rfl | hc
        · simp only; omega
        · exact hr.1 c hc

theorem cellsRising_drop {m : List Host.Cell} (a : Nat) (h : cellsRising m) : cellsRising (cellsDrop m a) :=
  List.Pairwise.filter _ h

/-! ### The bus memory -/

@[simp] theorem Memory.read_write_same (m : List Host.Cell) (a : Nat) (v : Byte) :
    Memory.read (Memory.write m a v) a = v := by
  unfold Memory.read Memory.write
  split
  · simp [*]
  · simp

theorem Memory.read_write_other (m : List Host.Cell) {a b : Nat} (v : Byte) (h : b ≠ a) :
    Memory.read (Memory.write m a v) b = Memory.read m b := by
  unfold Memory.read Memory.write
  split
  · rw [cellsGet_drop_other m h]
  · rw [cellsGet_put_other m v h]

theorem Memory.read_write (m : List Host.Cell) (a b : Nat) (v : Byte) :
    Memory.read (Memory.write m a v) b = if b = a then v else Memory.read m b := by
  split
  · subst b; simp
  · exact Memory.read_write_other m v ‹_›

/-- A store at a bus address keeps the canonical form. -/
theorem Memory.wf_write {m : List Host.Cell} (a : Addr) (v : Byte) (h : Memory.wf m) :
    Memory.wf (Memory.write m a.toNat v) := by
  unfold Memory.write
  split
  · exact ⟨cellsRising_drop _ h.1, fun c hc => h.2 c (mem_cellsDrop hc)⟩
  · rename_i hv
    refine ⟨cellsRising_put _ _ h.1, fun c hc => ?_⟩
    rcases mem_cellsPut hc with rfl | hc
    · exact ⟨a.isLt, hv⟩
    · exact h.2 c hc

theorem Memory.wf_nil : Memory.wf [] := ⟨List.Pairwise.nil, fun _ h => absurd h (by simp)⟩

/-! ### The row buffers -/

@[simp] theorem RowBuf.get_nil (i : Nat) : RowBuf.get [] i = none := rfl

theorem RowBuf.get_put (buf : List Host.Cell) (i j : Nat) (v : Byte) :
    RowBuf.get (RowBuf.put buf i v) j = if j = i then some v else RowBuf.get buf j :=
  cellsGet_put buf i j v

theorem RowBuf.wf_nil (n : Nat) : RowBuf.wf n [] := ⟨List.Pairwise.nil, fun _ h => absurd h (by simp)⟩

theorem RowBuf.wf_put {n : Nat} {buf : List Host.Cell} {i : Nat} (v : Byte) (hi : i < n)
    (h : RowBuf.wf n buf) : RowBuf.wf n (RowBuf.put buf i v) := by
  refine ⟨cellsRising_put _ _ h.1, fun c hc => ?_⟩
  rcases mem_cellsPut hc with rfl | hc
  · exact hi
  · exact h.2 c hc

/-- A slice is there exactly when every element of it has been written. -/
theorem RowBuf.slice_isSome (buf : List Host.Cell) (i n : Nat) :
    (RowBuf.slice buf i n).isSome ↔ ∀ j < n, (RowBuf.get buf (i + j)).isSome := by
  induction n generalizing i with
  | zero => simp [RowBuf.slice]
  | succ n ih =>
    unfold RowBuf.slice
    constructor
    · intro h j hj
      split at h
      · rename_i v vs hv hvs
        cases j with
        | zero => simp [hv]
        | succ j =>
          have := (ih (i + 1)).1 (by simp [hvs]) j (by omega)
          rwa [show i + (j + 1) = i + 1 + j by omega]
      · simp at h
    · intro h
      obtain ⟨v, hv⟩ := Option.isSome_iff_exists.1 (h 0 (by omega))
      obtain ⟨vs, hvs⟩ := Option.isSome_iff_exists.1 ((ih (i + 1)).2 fun j hj => by
        have := h (j + 1) (by omega)
        rwa [show i + (j + 1) = i + 1 + j by omega] at this)
      simp only [Nat.add_zero] at hv
      simp [hv, hvs]

/-- The bytes of a slice are the elements, in order. -/
theorem RowBuf.slice_spec {buf : List Host.Cell} {i n : Nat} {row : List Byte}
    (h : RowBuf.slice buf i n = some row) :
    row.length = n ∧ ∀ j < n, row[j]? = RowBuf.get buf (i + j) := by
  induction n generalizing i row with
  | zero =>
    simp only [RowBuf.slice, Option.some.injEq] at h
    subst h
    simp
  | succ n ih =>
    unfold RowBuf.slice at h
    split at h
    · rename_i v vs hv hvs
      simp only [Option.some.injEq] at h
      subst h
      obtain ⟨hl, hj⟩ := ih hvs
      refine ⟨by simp [hl], fun j hj' => ?_⟩
      cases j with
      | zero => simp [hv]
      | succ j =>
        rw [List.getElem?_cons_succ, hj j (by omega), show i + 1 + j = i + (j + 1) by omega]
    · simp at h

/-- A slice depends only on its own elements. -/
theorem RowBuf.slice_congr {buf buf' : List Host.Cell} {i n : Nat}
    (h : ∀ j < n, RowBuf.get buf (i + j) = RowBuf.get buf' (i + j)) :
    RowBuf.slice buf i n = RowBuf.slice buf' i n := by
  induction n generalizing i with
  | zero => rfl
  | succ n ih =>
    unfold RowBuf.slice
    rw [ih (i := i + 1) fun j hj => by
      rw [show i + 1 + j = i + (j + 1) by omega]; exact h (j + 1) (by omega)]
    have := h 0 (by omega)
    rw [Nat.add_zero] at this
    rw [this]

/-- Element `j` after a row is stored from `i` on. -/
theorem RowBuf.get_putRow (buf : List Host.Cell) (i j : Nat) (vs : List Byte) :
    RowBuf.get (RowBuf.putRow buf i vs) j
      = if i ≤ j ∧ j < i + vs.length then vs[j - i]? else RowBuf.get buf j := by
  induction vs generalizing buf i with
  | nil =>
    simp only [RowBuf.putRow, List.length_nil, Nat.add_zero]
    rw [if_neg (by omega)]
  | cons v vs ih =>
    simp only [RowBuf.putRow, List.length_cons]
    rw [ih, RowBuf.get_put]
    by_cases h1 : i + 1 ≤ j ∧ j < i + 1 + vs.length
    · rw [if_pos h1, if_pos (by omega), show j - i = (j - (i + 1)) + 1 by omega]
      simp
    · rw [if_neg h1]
      by_cases h2 : j = i
      · subst h2; simp
      · rw [if_neg h2, if_neg (by omega)]

theorem RowBuf.wf_putRow {n : Nat} {buf : List Host.Cell} {i : Nat} {vs : List Byte}
    (hi : i + vs.length ≤ n) (h : RowBuf.wf n buf) : RowBuf.wf n (RowBuf.putRow buf i vs) := by
  induction vs generalizing buf i with
  | nil => exact h
  | cons v vs ih =>
    simp only [List.length_cons] at hi
    exact ih (by omega) (RowBuf.wf_put v (by omega) h)

end Sys2Proof.Machine
end

