-- ==== Sys2Proof/Laws/Res.lean ====
section
/-! SUPPORT. How a piece of pseudocode can end, and what holds of each end. -/

namespace Sys2Proof.Machine

@[simp] theorem Res.bind_ok {α β : Type} (a : α) (s : State) (k : α → State → Res β) :
    (Res.ok a s).bind k = k a s := rfl

@[simp] theorem Res.bind_ended {α β : Type} (s : State) (k : α → State → Res β) :
    (Res.ended s : Res α).bind k = .ended s := rfl

@[simp] theorem Res.bind_stuck {α β : Type} (f : Fault) (k : α → State → Res β) :
    (Res.stuck f : Res α).bind k = .stuck f := rfl

@[simp] theorem Res.bind_raise {α β : Type} (c : ErrCode) (a : Option Addr) (s : State)
    (k : α → State → Res β) : (raise c a s : Res α).bind k = raise c a s := rfl

theorem Res.bind_assoc {α β γ : Type} (r : Res α) (k : α → State → Res β) (l : β → State → Res γ) :
    (r.bind k).bind l = r.bind fun a s => (k a s).bind l := by cases r <;> rfl

@[simp] theorem Res.toOutcome_ok (s : State) : (Res.ok () s).toOutcome = .next s := rfl
@[simp] theorem Res.toOutcome_ended (s : State) : (Res.ended s).toOutcome = .next s := rfl
@[simp] theorem Res.toOutcome_stuck (f : Fault) : (Res.stuck f).toOutcome = .fault f := rfl
@[simp] theorem Res.toOutcome_raise (c : ErrCode) (a : Option Addr) (s : State) :
    (raise c a s).toOutcome = .next (s.enterFault c a) := rfl

/-- `P` of the value and state it goes through with, `Q` of the state it ends in, and the model does not
stop. -/
def Res.Good {α : Type} (P : α → State → Prop) (Q : State → Prop) : Res α → Prop
  | .ok a s => P a s
  | .ended s => Q s
  | .stuck _ => False

@[simp] theorem Res.good_ok {α : Type} (P : α → State → Prop) (Q : State → Prop) (a : α) (s : State) :
    (Res.ok a s).Good P Q ↔ P a s := Iff.rfl

@[simp] theorem Res.good_raise {α : Type} (P : α → State → Prop) (Q : State → Prop) (c : ErrCode)
    (a : Option Addr) (s : State) : (raise c a s : Res α).Good P Q ↔ Q (s.enterFault c a) := Iff.rfl

theorem Res.Good.bind {α β : Type} {r : Res α} {P : α → State → Prop} {Q : State → Prop}
    {k : α → State → Res β} {P' : β → State → Prop} (h : r.Good P Q)
    (hk : ∀ a s, P a s → (k a s).Good P' Q) : (r.bind k).Good P' Q := by
  cases r with
  | ok a s => exact hk a s h
  | ended s => exact h
  | stuck f => exact h

theorem Res.Good.mono {α : Type} {r : Res α} {P P' : α → State → Prop} {Q Q' : State → Prop}
    (h : r.Good P Q) (hP : ∀ a s, P a s → P' a s) (hQ : ∀ s, Q s → Q' s) : r.Good P' Q' := by
  cases r with
  | ok a s => exact hP a s h
  | ended s => exact hQ s h
  | stuck f => exact h

/-- A command that is good answers a next state, in which one of the two holds. -/
theorem Res.Good.toOutcome {r : Res Unit} {P : Unit → State → Prop} {Q : State → Prop}
    (h : r.Good P Q) : ∃ t, r.toOutcome = .next t ∧ (P () t ∨ Q t) := by
  cases r with
  | ok a s => exact ⟨s, rfl, .inl h⟩
  | ended s => exact ⟨s, rfl, .inr h⟩
  | stuck f => exact h.elim

/-- A good piece of pseudocode that cannot end goes through. -/
theorem Res.Good.completes {α : Type} {r : Res α} {P : α → State → Prop} {Q : State → Prop}
    (h : r.Good P Q) (hQ : ∀ t, ¬ Q t) : ∃ a t, r = .ok a t ∧ P a t := by
  cases r with
  | ok a s => exact ⟨a, s, rfl, h⟩
  | ended s => exact absurd h (hQ s)
  | stuck f => exact h.elim

/-- `P` of the value and state it goes through with, `Q` of the state it ends in; the model may stop. -/
def Res.Sound {α : Type} (P : α → State → Prop) (Q : State → Prop) : Res α → Prop
  | .ok a s => P a s
  | .ended s => Q s
  | .stuck _ => True

@[simp] theorem Res.sound_ok {α : Type} (P : α → State → Prop) (Q : State → Prop) (a : α) (s : State) :
    (Res.ok a s).Sound P Q ↔ P a s := Iff.rfl

@[simp] theorem Res.sound_stuck {α : Type} (P : α → State → Prop) (Q : State → Prop) (f : Fault) :
    (Res.stuck f : Res α).Sound P Q := trivial

@[simp] theorem Res.sound_raise {α : Type} (P : α → State → Prop) (Q : State → Prop) (c : ErrCode)
    (a : Option Addr) (s : State) : (raise c a s : Res α).Sound P Q ↔ Q (s.enterFault c a) := Iff.rfl

theorem Res.Good.sound {α : Type} {r : Res α} {P : α → State → Prop} {Q : State → Prop}
    (h : r.Good P Q) : r.Sound P Q := by
  cases r with
  | ok a s => exact h
  | ended s => exact h
  | stuck f => trivial

theorem Res.Sound.bind {α β : Type} {r : Res α} {P : α → State → Prop} {Q : State → Prop}
    {k : α → State → Res β} {P' : β → State → Prop} (h : r.Sound P Q)
    (hk : ∀ a s, P a s → (k a s).Sound P' Q) : (r.bind k).Sound P' Q := by
  cases r with
  | ok a s => exact hk a s h
  | ended s => exact h
  | stuck f => trivial

theorem Res.Sound.mono {α : Type} {r : Res α} {P P' : α → State → Prop} {Q Q' : State → Prop}
    (h : r.Sound P Q) (hP : ∀ a s, P a s → P' a s) (hQ : ∀ s, Q s → Q' s) : r.Sound P' Q' := by
  cases r with
  | ok a s => exact hP a s h
  | ended s => exact hQ s h
  | stuck f => trivial

/-- Whatever next state a sound command answers, one of the two holds in it. -/
theorem Res.Sound.of_next {r : Res Unit} {P : Unit → State → Prop} {Q : State → Prop}
    (h : r.Sound P Q) {t : State} (ht : r.toOutcome = .next t) : P () t ∨ Q t := by
  cases r with
  | ok a s => cases ht; exact .inl h
  | ended s => cases ht; exact .inr h
  | stuck f => cases ht

theorem forRange_sound {body : Nat → State → Res Unit} {P : State → Prop} {Q : State → Prop} (i n : Nat)
    (hbody : ∀ j, i ≤ j → j < i + n → ∀ s, P s → (body j s).Sound (fun _ => P) Q) (s : State) (h : P s) :
    (forRange body i n s).Sound (fun _ => P) Q := by
  induction n generalizing i s with
  | zero => exact h
  | succ n ih =>
    exact (hbody i (Nat.le_refl i) (by omega) s h).bind fun _ s' hs' =>
      ih (i + 1) (fun j h1 h2 => hbody j (by omega) (by omega)) s' hs'

/-- An invariant of a loop over a range. -/
theorem forRange_good {body : Nat → State → Res Unit} {P : State → Prop} {Q : State → Prop} (i n : Nat)
    (hbody : ∀ j, i ≤ j → j < i + n → ∀ s, P s → (body j s).Good (fun _ => P) Q) (s : State) (h : P s) :
    (forRange body i n s).Good (fun _ => P) Q := by
  induction n generalizing i s with
  | zero => exact h
  | succ n ih =>
    exact (hbody i (Nat.le_refl i) (by omega) s h).bind fun _ s' hs' =>
      ih (i + 1) (fun j h1 h2 => hbody j (by omega) (by omega)) s' hs'

end Sys2Proof.Machine
end

