-- ==== Sys2Proof/Laws/State.lean ====
section
/-! SUPPORT. One lemma per field per update of the state, so that no later proof unfolds a record update. -/

namespace Sys2Proof.Machine

/-! ### `State.enterFault` -/

@[simp] theorem State.enterFault_ctrl (s : State) (c : ErrCode) (a : Option Addr) :
    (s.enterFault c a).ctrl = s.ctrl := rfl
@[simp] theorem State.enterFault_errAddr (s : State) (c : ErrCode) (a : Option Addr) :
    (s.enterFault c a).errAddr = a.getD 0#32 := rfl
@[simp] theorem State.enterFault_crc (s : State) (c : ErrCode) (a : Option Addr) :
    (s.enterFault c a).crc = s.crc := rfl
@[simp] theorem State.enterFault_adler (s : State) (c : ErrCode) (a : Option Addr) :
    (s.enterFault c a).adler = s.adler := rfl
@[simp] theorem State.enterFault_srcAddr (s : State) (c : ErrCode) (a : Option Addr) :
    (s.enterFault c a).srcAddr = s.srcAddr := rfl
@[simp] theorem State.enterFault_dstAddr (s : State) (c : ErrCode) (a : Option Addr) :
    (s.enterFault c a).dstAddr = s.dstAddr := rfl
@[simp] theorem State.enterFault_dstStride (s : State) (c : ErrCode) (a : Option Addr) :
    (s.enterFault c a).dstStride = s.dstStride := rfl
@[simp] theorem State.enterFault_dstXstep (s : State) (c : ErrCode) (a : Option Addr) :
    (s.enterFault c a).dstXstep = s.dstXstep := rfl
@[simp] theorem State.enterFault_width (s : State) (c : ErrCode) (a : Option Addr) :
    (s.enterFault c a).width = s.width := rfl
@[simp] theorem State.enterFault_rows (s : State) (c : ErrCode) (a : Option Addr) :
    (s.enterFault c a).rows = s.rows := rfl
@[simp] theorem State.enterFault_fmt (s : State) (c : ErrCode) (a : Option Addr) :
    (s.enterFault c a).fmt = s.fmt := rfl
@[simp] theorem State.enterFault_pal (s : State) (c : ErrCode) (a : Option Addr) :
    (s.enterFault c a).pal = s.pal := rfl
@[simp] theorem State.enterFault_latch (s : State) (c : ErrCode) (a : Option Addr) :
    (s.enterFault c a).latch = s.latch := rfl
@[simp] theorem State.enterFault_filt (s : State) (c : ErrCode) (a : Option Addr) :
    (s.enterFault c a).filt = s.filt := rfl
@[simp] theorem State.enterFault_cur (s : State) (c : ErrCode) (a : Option Addr) :
    (s.enterFault c a).cur = s.cur := rfl
@[simp] theorem State.enterFault_prev (s : State) (c : ErrCode) (a : Option Addr) :
    (s.enterFault c a).prev = s.prev := rfl
@[simp] theorem State.enterFault_mem (s : State) (c : ErrCode) (a : Option Addr) :
    (s.enterFault c a).mem = s.mem := rfl
@[simp] theorem State.enterFault_platform (s : State) (c : ErrCode) (a : Option Addr) :
    (s.enterFault c a).platform = s.platform := rfl
@[simp] theorem State.enterFault_inbox (s : State) (c : ErrCode) (a : Option Addr) :
    (s.enterFault c a).inbox = s.inbox := rfl
@[simp] theorem State.enterFault_readData (s : State) (c : ErrCode) (a : Option Addr) :
    (s.enterFault c a).readData = s.readData := rfl
@[simp] theorem State.enterFault_busLog (s : State) (c : ErrCode) (a : Option Addr) :
    (s.enterFault c a).busLog = s.busLog := rfl
@[simp] theorem State.enterFault_status_err (s : State) (c : ErrCode) (a : Option Addr) :
    (s.enterFault c a).status.err = true := rfl
@[simp] theorem State.enterFault_status_errCode (s : State) (c : ErrCode) (a : Option Addr) :
    (s.enterFault c a).status.errCode = c.number := rfl
@[simp] theorem State.enterFault_status_errAddrValid (s : State) (c : ErrCode) (a : Option Addr) :
    (s.enterFault c a).status.errAddrValid = a.isSome := rfl
@[simp] theorem State.enterFault_status_crcMatch (s : State) (c : ErrCode) (a : Option Addr) :
    (s.enterFault c a).status.crcMatch = s.status.crcMatch := rfl
@[simp] theorem State.enterFault_status_adlerMatch (s : State) (c : ErrCode) (a : Option Addr) :
    (s.enterFault c a).status.adlerMatch = s.status.adlerMatch := rfl
@[simp] theorem State.enterFault_status_chkLog (s : State) (c : ErrCode) (a : Option Addr) :
    (s.enterFault c a).status.chkLog = s.status.chkLog := rfl

/-! ### `State.advanceSrc` -/

@[simp] theorem State.advanceSrc_ctrl (s : State) (n : Nat) : (s.advanceSrc n).ctrl = s.ctrl := rfl
@[simp] theorem State.advanceSrc_status (s : State) (n : Nat) :
    (s.advanceSrc n).status = s.status := rfl
@[simp] theorem State.advanceSrc_errAddr (s : State) (n : Nat) :
    (s.advanceSrc n).errAddr = s.errAddr := rfl
@[simp] theorem State.advanceSrc_crc (s : State) (n : Nat) : (s.advanceSrc n).crc = s.crc := rfl
@[simp] theorem State.advanceSrc_adler (s : State) (n : Nat) :
    (s.advanceSrc n).adler = s.adler := rfl
@[simp] theorem State.advanceSrc_srcAddr (s : State) (n : Nat) :
    (s.advanceSrc n).srcAddr = s.srcAddr + BitVec.ofNat 32 n := rfl
@[simp] theorem State.advanceSrc_dstAddr (s : State) (n : Nat) :
    (s.advanceSrc n).dstAddr = s.dstAddr := rfl
@[simp] theorem State.advanceSrc_dstStride (s : State) (n : Nat) :
    (s.advanceSrc n).dstStride = s.dstStride := rfl
@[simp] theorem State.advanceSrc_dstXstep (s : State) (n : Nat) :
    (s.advanceSrc n).dstXstep = s.dstXstep := rfl
@[simp] theorem State.advanceSrc_width (s : State) (n : Nat) :
    (s.advanceSrc n).width = s.width := rfl
@[simp] theorem State.advanceSrc_rows (s : State) (n : Nat) : (s.advanceSrc n).rows = s.rows := rfl
@[simp] theorem State.advanceSrc_fmt (s : State) (n : Nat) : (s.advanceSrc n).fmt = s.fmt := rfl
@[simp] theorem State.advanceSrc_pal (s : State) (n : Nat) : (s.advanceSrc n).pal = s.pal := rfl
@[simp] theorem State.advanceSrc_latch (s : State) (n : Nat) :
    (s.advanceSrc n).latch = s.latch := rfl
@[simp] theorem State.advanceSrc_filt (s : State) (n : Nat) : (s.advanceSrc n).filt = s.filt := rfl
@[simp] theorem State.advanceSrc_cur (s : State) (n : Nat) : (s.advanceSrc n).cur = s.cur := rfl
@[simp] theorem State.advanceSrc_prev (s : State) (n : Nat) : (s.advanceSrc n).prev = s.prev := rfl
@[simp] theorem State.advanceSrc_mem (s : State) (n : Nat) : (s.advanceSrc n).mem = s.mem := rfl
@[simp] theorem State.advanceSrc_platform (s : State) (n : Nat) :
    (s.advanceSrc n).platform = s.platform := rfl
@[simp] theorem State.advanceSrc_inbox (s : State) (n : Nat) :
    (s.advanceSrc n).inbox = s.inbox := rfl
@[simp] theorem State.advanceSrc_readData (s : State) (n : Nat) :
    (s.advanceSrc n).readData = s.readData := rfl
@[simp] theorem State.advanceSrc_busLog (s : State) (n : Nat) :
    (s.advanceSrc n).busLog = s.busLog := rfl

/-! ### `State.advanceDst` -/

@[simp] theorem State.advanceDst_ctrl (s : State) (w : Word) : (s.advanceDst w).ctrl = s.ctrl := rfl
@[simp] theorem State.advanceDst_status (s : State) (w : Word) :
    (s.advanceDst w).status = s.status := rfl
@[simp] theorem State.advanceDst_errAddr (s : State) (w : Word) :
    (s.advanceDst w).errAddr = s.errAddr := rfl
@[simp] theorem State.advanceDst_crc (s : State) (w : Word) : (s.advanceDst w).crc = s.crc := rfl
@[simp] theorem State.advanceDst_adler (s : State) (w : Word) :
    (s.advanceDst w).adler = s.adler := rfl
@[simp] theorem State.advanceDst_srcAddr (s : State) (w : Word) :
    (s.advanceDst w).srcAddr = s.srcAddr := rfl
@[simp] theorem State.advanceDst_dstAddr (s : State) (w : Word) :
    (s.advanceDst w).dstAddr = s.dstAddr + w := rfl
@[simp] theorem State.advanceDst_dstStride (s : State) (w : Word) :
    (s.advanceDst w).dstStride = s.dstStride := rfl
@[simp] theorem State.advanceDst_dstXstep (s : State) (w : Word) :
    (s.advanceDst w).dstXstep = s.dstXstep := rfl
@[simp] theorem State.advanceDst_width (s : State) (w : Word) :
    (s.advanceDst w).width = s.width := rfl
@[simp] theorem State.advanceDst_rows (s : State) (w : Word) : (s.advanceDst w).rows = s.rows := rfl
@[simp] theorem State.advanceDst_fmt (s : State) (w : Word) : (s.advanceDst w).fmt = s.fmt := rfl
@[simp] theorem State.advanceDst_pal (s : State) (w : Word) : (s.advanceDst w).pal = s.pal := rfl
@[simp] theorem State.advanceDst_latch (s : State) (w : Word) :
    (s.advanceDst w).latch = s.latch := rfl
@[simp] theorem State.advanceDst_filt (s : State) (w : Word) : (s.advanceDst w).filt = s.filt := rfl
@[simp] theorem State.advanceDst_cur (s : State) (w : Word) : (s.advanceDst w).cur = s.cur := rfl
@[simp] theorem State.advanceDst_prev (s : State) (w : Word) : (s.advanceDst w).prev = s.prev := rfl
@[simp] theorem State.advanceDst_mem (s : State) (w : Word) : (s.advanceDst w).mem = s.mem := rfl
@[simp] theorem State.advanceDst_platform (s : State) (w : Word) :
    (s.advanceDst w).platform = s.platform := rfl
@[simp] theorem State.advanceDst_inbox (s : State) (w : Word) :
    (s.advanceDst w).inbox = s.inbox := rfl
@[simp] theorem State.advanceDst_readData (s : State) (w : Word) :
    (s.advanceDst w).readData = s.readData := rfl
@[simp] theorem State.advanceDst_busLog (s : State) (w : Word) :
    (s.advanceDst w).busLog = s.busLog := rfl

/-! ### `State.setCrcMatch` -/

@[simp] theorem State.setCrcMatch_ctrl (s : State) (v : Bool) :
    (s.setCrcMatch v).ctrl = s.ctrl := rfl
@[simp] theorem State.setCrcMatch_errAddr (s : State) (v : Bool) :
    (s.setCrcMatch v).errAddr = s.errAddr := rfl
@[simp] theorem State.setCrcMatch_crc (s : State) (v : Bool) : (s.setCrcMatch v).crc = s.crc := rfl
@[simp] theorem State.setCrcMatch_adler (s : State) (v : Bool) :
    (s.setCrcMatch v).adler = s.adler := rfl
@[simp] theorem State.setCrcMatch_srcAddr (s : State) (v : Bool) :
    (s.setCrcMatch v).srcAddr = s.srcAddr := rfl
@[simp] theorem State.setCrcMatch_dstAddr (s : State) (v : Bool) :
    (s.setCrcMatch v).dstAddr = s.dstAddr := rfl
@[simp] theorem State.setCrcMatch_dstStride (s : State) (v : Bool) :
    (s.setCrcMatch v).dstStride = s.dstStride := rfl
@[simp] theorem State.setCrcMatch_dstXstep (s : State) (v : Bool) :
    (s.setCrcMatch v).dstXstep = s.dstXstep := rfl
@[simp] theorem State.setCrcMatch_width (s : State) (v : Bool) :
    (s.setCrcMatch v).width = s.width := rfl
@[simp] theorem State.setCrcMatch_rows (s : State) (v : Bool) :
    (s.setCrcMatch v).rows = s.rows := rfl
@[simp] theorem State.setCrcMatch_fmt (s : State) (v : Bool) : (s.setCrcMatch v).fmt = s.fmt := rfl
@[simp] theorem State.setCrcMatch_pal (s : State) (v : Bool) : (s.setCrcMatch v).pal = s.pal := rfl
@[simp] theorem State.setCrcMatch_latch (s : State) (v : Bool) :
    (s.setCrcMatch v).latch = s.latch := rfl
@[simp] theorem State.setCrcMatch_filt (s : State) (v : Bool) :
    (s.setCrcMatch v).filt = s.filt := rfl
@[simp] theorem State.setCrcMatch_cur (s : State) (v : Bool) : (s.setCrcMatch v).cur = s.cur := rfl
@[simp] theorem State.setCrcMatch_prev (s : State) (v : Bool) :
    (s.setCrcMatch v).prev = s.prev := rfl
@[simp] theorem State.setCrcMatch_mem (s : State) (v : Bool) : (s.setCrcMatch v).mem = s.mem := rfl
@[simp] theorem State.setCrcMatch_platform (s : State) (v : Bool) :
    (s.setCrcMatch v).platform = s.platform := rfl
@[simp] theorem State.setCrcMatch_inbox (s : State) (v : Bool) :
    (s.setCrcMatch v).inbox = s.inbox := rfl
@[simp] theorem State.setCrcMatch_readData (s : State) (v : Bool) :
    (s.setCrcMatch v).readData = s.readData := rfl
@[simp] theorem State.setCrcMatch_busLog (s : State) (v : Bool) :
    (s.setCrcMatch v).busLog = s.busLog := rfl
@[simp] theorem State.setCrcMatch_status (s : State) (v : Bool) :
    (s.setCrcMatch v).status = { s.status with crcMatch := v } := rfl

/-! ### `State.setAdlerMatch` -/

@[simp] theorem State.setAdlerMatch_ctrl (s : State) (v : Bool) :
    (s.setAdlerMatch v).ctrl = s.ctrl := rfl
@[simp] theorem State.setAdlerMatch_errAddr (s : State) (v : Bool) :
    (s.setAdlerMatch v).errAddr = s.errAddr := rfl
@[simp] theorem State.setAdlerMatch_crc (s : State) (v : Bool) :
    (s.setAdlerMatch v).crc = s.crc := rfl
@[simp] theorem State.setAdlerMatch_adler (s : State) (v : Bool) :
    (s.setAdlerMatch v).adler = s.adler := rfl
@[simp] theorem State.setAdlerMatch_srcAddr (s : State) (v : Bool) :
    (s.setAdlerMatch v).srcAddr = s.srcAddr := rfl
@[simp] theorem State.setAdlerMatch_dstAddr (s : State) (v : Bool) :
    (s.setAdlerMatch v).dstAddr = s.dstAddr := rfl
@[simp] theorem State.setAdlerMatch_dstStride (s : State) (v : Bool) :
    (s.setAdlerMatch v).dstStride = s.dstStride := rfl
@[simp] theorem State.setAdlerMatch_dstXstep (s : State) (v : Bool) :
    (s.setAdlerMatch v).dstXstep = s.dstXstep := rfl
@[simp] theorem State.setAdlerMatch_width (s : State) (v : Bool) :
    (s.setAdlerMatch v).width = s.width := rfl
@[simp] theorem State.setAdlerMatch_rows (s : State) (v : Bool) :
    (s.setAdlerMatch v).rows = s.rows := rfl
@[simp] theorem State.setAdlerMatch_fmt (s : State) (v : Bool) :
    (s.setAdlerMatch v).fmt = s.fmt := rfl
@[simp] theorem State.setAdlerMatch_pal (s : State) (v : Bool) :
    (s.setAdlerMatch v).pal = s.pal := rfl
@[simp] theorem State.setAdlerMatch_latch (s : State) (v : Bool) :
    (s.setAdlerMatch v).latch = s.latch := rfl
@[simp] theorem State.setAdlerMatch_filt (s : State) (v : Bool) :
    (s.setAdlerMatch v).filt = s.filt := rfl
@[simp] theorem State.setAdlerMatch_cur (s : State) (v : Bool) :
    (s.setAdlerMatch v).cur = s.cur := rfl
@[simp] theorem State.setAdlerMatch_prev (s : State) (v : Bool) :
    (s.setAdlerMatch v).prev = s.prev := rfl
@[simp] theorem State.setAdlerMatch_mem (s : State) (v : Bool) :
    (s.setAdlerMatch v).mem = s.mem := rfl
@[simp] theorem State.setAdlerMatch_platform (s : State) (v : Bool) :
    (s.setAdlerMatch v).platform = s.platform := rfl
@[simp] theorem State.setAdlerMatch_inbox (s : State) (v : Bool) :
    (s.setAdlerMatch v).inbox = s.inbox := rfl
@[simp] theorem State.setAdlerMatch_readData (s : State) (v : Bool) :
    (s.setAdlerMatch v).readData = s.readData := rfl
@[simp] theorem State.setAdlerMatch_busLog (s : State) (v : Bool) :
    (s.setAdlerMatch v).busLog = s.busLog := rfl
@[simp] theorem State.setAdlerMatch_status (s : State) (v : Bool) :
    (s.setAdlerMatch v).status = { s.status with adlerMatch := v } := rfl

/-! ### `State.setChkLog` -/

@[simp] theorem State.setChkLog_ctrl (s : State) : s.setChkLog.ctrl = s.ctrl := rfl
@[simp] theorem State.setChkLog_errAddr (s : State) : s.setChkLog.errAddr = s.errAddr := rfl
@[simp] theorem State.setChkLog_crc (s : State) : s.setChkLog.crc = s.crc := rfl
@[simp] theorem State.setChkLog_adler (s : State) : s.setChkLog.adler = s.adler := rfl
@[simp] theorem State.setChkLog_srcAddr (s : State) : s.setChkLog.srcAddr = s.srcAddr := rfl
@[simp] theorem State.setChkLog_dstAddr (s : State) : s.setChkLog.dstAddr = s.dstAddr := rfl
@[simp] theorem State.setChkLog_dstStride (s : State) : s.setChkLog.dstStride = s.dstStride := rfl
@[simp] theorem State.setChkLog_dstXstep (s : State) : s.setChkLog.dstXstep = s.dstXstep := rfl
@[simp] theorem State.setChkLog_width (s : State) : s.setChkLog.width = s.width := rfl
@[simp] theorem State.setChkLog_rows (s : State) : s.setChkLog.rows = s.rows := rfl
@[simp] theorem State.setChkLog_fmt (s : State) : s.setChkLog.fmt = s.fmt := rfl
@[simp] theorem State.setChkLog_pal (s : State) : s.setChkLog.pal = s.pal := rfl
@[simp] theorem State.setChkLog_latch (s : State) : s.setChkLog.latch = s.latch := rfl
@[simp] theorem State.setChkLog_filt (s : State) : s.setChkLog.filt = s.filt := rfl
@[simp] theorem State.setChkLog_cur (s : State) : s.setChkLog.cur = s.cur := rfl
@[simp] theorem State.setChkLog_prev (s : State) : s.setChkLog.prev = s.prev := rfl
@[simp] theorem State.setChkLog_mem (s : State) : s.setChkLog.mem = s.mem := rfl
@[simp] theorem State.setChkLog_platform (s : State) : s.setChkLog.platform = s.platform := rfl
@[simp] theorem State.setChkLog_inbox (s : State) : s.setChkLog.inbox = s.inbox := rfl
@[simp] theorem State.setChkLog_readData (s : State) : s.setChkLog.readData = s.readData := rfl
@[simp] theorem State.setChkLog_busLog (s : State) : s.setChkLog.busLog = s.busLog := rfl
@[simp] theorem State.setChkLog_status (s : State) :
    s.setChkLog.status = { s.status with chkLog := true } := rfl

/-! ### `State.setPal` -/

@[simp] theorem State.setPal_ctrl (s : State) (i : Nat) (w : Word) :
    (s.setPal i w).ctrl = s.ctrl := rfl
@[simp] theorem State.setPal_status (s : State) (i : Nat) (w : Word) :
    (s.setPal i w).status = s.status := rfl
@[simp] theorem State.setPal_errAddr (s : State) (i : Nat) (w : Word) :
    (s.setPal i w).errAddr = s.errAddr := rfl
@[simp] theorem State.setPal_crc (s : State) (i : Nat) (w : Word) :
    (s.setPal i w).crc = s.crc := rfl
@[simp] theorem State.setPal_adler (s : State) (i : Nat) (w : Word) :
    (s.setPal i w).adler = s.adler := rfl
@[simp] theorem State.setPal_srcAddr (s : State) (i : Nat) (w : Word) :
    (s.setPal i w).srcAddr = s.srcAddr := rfl
@[simp] theorem State.setPal_dstAddr (s : State) (i : Nat) (w : Word) :
    (s.setPal i w).dstAddr = s.dstAddr := rfl
@[simp] theorem State.setPal_dstStride (s : State) (i : Nat) (w : Word) :
    (s.setPal i w).dstStride = s.dstStride := rfl
@[simp] theorem State.setPal_dstXstep (s : State) (i : Nat) (w : Word) :
    (s.setPal i w).dstXstep = s.dstXstep := rfl
@[simp] theorem State.setPal_width (s : State) (i : Nat) (w : Word) :
    (s.setPal i w).width = s.width := rfl
@[simp] theorem State.setPal_rows (s : State) (i : Nat) (w : Word) :
    (s.setPal i w).rows = s.rows := rfl
@[simp] theorem State.setPal_fmt (s : State) (i : Nat) (w : Word) :
    (s.setPal i w).fmt = s.fmt := rfl
@[simp] theorem State.setPal_pal (s : State) (i : Nat) (w : Word) :
    (s.setPal i w).pal = s.pal.setIfInBounds i w := rfl
@[simp] theorem State.setPal_latch (s : State) (i : Nat) (w : Word) :
    (s.setPal i w).latch = s.latch := rfl
@[simp] theorem State.setPal_filt (s : State) (i : Nat) (w : Word) :
    (s.setPal i w).filt = s.filt := rfl
@[simp] theorem State.setPal_cur (s : State) (i : Nat) (w : Word) :
    (s.setPal i w).cur = s.cur := rfl
@[simp] theorem State.setPal_prev (s : State) (i : Nat) (w : Word) :
    (s.setPal i w).prev = s.prev := rfl
@[simp] theorem State.setPal_mem (s : State) (i : Nat) (w : Word) :
    (s.setPal i w).mem = s.mem := rfl
@[simp] theorem State.setPal_platform (s : State) (i : Nat) (w : Word) :
    (s.setPal i w).platform = s.platform := rfl
@[simp] theorem State.setPal_inbox (s : State) (i : Nat) (w : Word) :
    (s.setPal i w).inbox = s.inbox := rfl
@[simp] theorem State.setPal_readData (s : State) (i : Nat) (w : Word) :
    (s.setPal i w).readData = s.readData := rfl
@[simp] theorem State.setPal_busLog (s : State) (i : Nat) (w : Word) :
    (s.setPal i w).busLog = s.busLog := rfl

/-! ### `feedCrc` -/

@[simp] theorem feedCrc_ctrl (v : Byte) (s : State) : (feedCrc v s).ctrl = s.ctrl := rfl
@[simp] theorem feedCrc_status (v : Byte) (s : State) : (feedCrc v s).status = s.status := rfl
@[simp] theorem feedCrc_errAddr (v : Byte) (s : State) : (feedCrc v s).errAddr = s.errAddr := rfl
@[simp] theorem feedCrc_crc (v : Byte) (s : State) : (feedCrc v s).crc = crc32Byte s.crc v := rfl
@[simp] theorem feedCrc_adler (v : Byte) (s : State) : (feedCrc v s).adler = s.adler := rfl
@[simp] theorem feedCrc_srcAddr (v : Byte) (s : State) : (feedCrc v s).srcAddr = s.srcAddr := rfl
@[simp] theorem feedCrc_dstAddr (v : Byte) (s : State) : (feedCrc v s).dstAddr = s.dstAddr := rfl
@[simp] theorem feedCrc_dstStride (v : Byte) (s : State) :
    (feedCrc v s).dstStride = s.dstStride := rfl
@[simp] theorem feedCrc_dstXstep (v : Byte) (s : State) : (feedCrc v s).dstXstep = s.dstXstep := rfl
@[simp] theorem feedCrc_width (v : Byte) (s : State) : (feedCrc v s).width = s.width := rfl
@[simp] theorem feedCrc_rows (v : Byte) (s : State) : (feedCrc v s).rows = s.rows := rfl
@[simp] theorem feedCrc_fmt (v : Byte) (s : State) : (feedCrc v s).fmt = s.fmt := rfl
@[simp] theorem feedCrc_pal (v : Byte) (s : State) : (feedCrc v s).pal = s.pal := rfl
@[simp] theorem feedCrc_latch (v : Byte) (s : State) : (feedCrc v s).latch = s.latch := rfl
@[simp] theorem feedCrc_filt (v : Byte) (s : State) : (feedCrc v s).filt = s.filt := rfl
@[simp] theorem feedCrc_cur (v : Byte) (s : State) : (feedCrc v s).cur = s.cur := rfl
@[simp] theorem feedCrc_prev (v : Byte) (s : State) : (feedCrc v s).prev = s.prev := rfl
@[simp] theorem feedCrc_mem (v : Byte) (s : State) : (feedCrc v s).mem = s.mem := rfl
@[simp] theorem feedCrc_platform (v : Byte) (s : State) : (feedCrc v s).platform = s.platform := rfl
@[simp] theorem feedCrc_inbox (v : Byte) (s : State) : (feedCrc v s).inbox = s.inbox := rfl
@[simp] theorem feedCrc_readData (v : Byte) (s : State) : (feedCrc v s).readData = s.readData := rfl
@[simp] theorem feedCrc_busLog (v : Byte) (s : State) : (feedCrc v s).busLog = s.busLog := rfl

/-! ### `feedAdler` -/

@[simp] theorem feedAdler_ctrl (v : Byte) (s : State) : (feedAdler v s).ctrl = s.ctrl := rfl
@[simp] theorem feedAdler_status (v : Byte) (s : State) : (feedAdler v s).status = s.status := rfl
@[simp] theorem feedAdler_errAddr (v : Byte) (s : State) :
    (feedAdler v s).errAddr = s.errAddr := rfl
@[simp] theorem feedAdler_crc (v : Byte) (s : State) : (feedAdler v s).crc = s.crc := rfl
@[simp] theorem feedAdler_adler (v : Byte) (s : State) :
    (feedAdler v s).adler = adler32Byte s.adler v := rfl
@[simp] theorem feedAdler_srcAddr (v : Byte) (s : State) :
    (feedAdler v s).srcAddr = s.srcAddr := rfl
@[simp] theorem feedAdler_dstAddr (v : Byte) (s : State) :
    (feedAdler v s).dstAddr = s.dstAddr := rfl
@[simp] theorem feedAdler_dstStride (v : Byte) (s : State) :
    (feedAdler v s).dstStride = s.dstStride := rfl
@[simp] theorem feedAdler_dstXstep (v : Byte) (s : State) :
    (feedAdler v s).dstXstep = s.dstXstep := rfl
@[simp] theorem feedAdler_width (v : Byte) (s : State) : (feedAdler v s).width = s.width := rfl
@[simp] theorem feedAdler_rows (v : Byte) (s : State) : (feedAdler v s).rows = s.rows := rfl
@[simp] theorem feedAdler_fmt (v : Byte) (s : State) : (feedAdler v s).fmt = s.fmt := rfl
@[simp] theorem feedAdler_pal (v : Byte) (s : State) : (feedAdler v s).pal = s.pal := rfl
@[simp] theorem feedAdler_latch (v : Byte) (s : State) : (feedAdler v s).latch = s.latch := rfl
@[simp] theorem feedAdler_filt (v : Byte) (s : State) : (feedAdler v s).filt = s.filt := rfl
@[simp] theorem feedAdler_cur (v : Byte) (s : State) : (feedAdler v s).cur = s.cur := rfl
@[simp] theorem feedAdler_prev (v : Byte) (s : State) : (feedAdler v s).prev = s.prev := rfl
@[simp] theorem feedAdler_mem (v : Byte) (s : State) : (feedAdler v s).mem = s.mem := rfl
@[simp] theorem feedAdler_platform (v : Byte) (s : State) :
    (feedAdler v s).platform = s.platform := rfl
@[simp] theorem feedAdler_inbox (v : Byte) (s : State) : (feedAdler v s).inbox = s.inbox := rfl
@[simp] theorem feedAdler_readData (v : Byte) (s : State) :
    (feedAdler v s).readData = s.readData := rfl
@[simp] theorem feedAdler_busLog (v : Byte) (s : State) : (feedAdler v s).busLog = s.busLog := rfl

/-! ### `storePayload` -/

@[simp] theorem storePayload_ctrl (v : Byte) (s : State) : (storePayload v s).ctrl = s.ctrl := rfl
@[simp] theorem storePayload_status (v : Byte) (s : State) :
    (storePayload v s).status = s.status := rfl
@[simp] theorem storePayload_errAddr (v : Byte) (s : State) :
    (storePayload v s).errAddr = s.errAddr := rfl
@[simp] theorem storePayload_crc (v : Byte) (s : State) : (storePayload v s).crc = s.crc := rfl
@[simp] theorem storePayload_adler (v : Byte) (s : State) :
    (storePayload v s).adler = s.adler := rfl
@[simp] theorem storePayload_srcAddr (v : Byte) (s : State) :
    (storePayload v s).srcAddr = s.srcAddr := rfl
@[simp] theorem storePayload_dstAddr (v : Byte) (s : State) :
    (storePayload v s).dstAddr = s.dstAddr := rfl
@[simp] theorem storePayload_dstStride (v : Byte) (s : State) :
    (storePayload v s).dstStride = s.dstStride := rfl
@[simp] theorem storePayload_dstXstep (v : Byte) (s : State) :
    (storePayload v s).dstXstep = s.dstXstep := rfl
@[simp] theorem storePayload_width (v : Byte) (s : State) :
    (storePayload v s).width = s.width := rfl
@[simp] theorem storePayload_rows (v : Byte) (s : State) : (storePayload v s).rows = s.rows := rfl
@[simp] theorem storePayload_fmt (v : Byte) (s : State) : (storePayload v s).fmt = s.fmt := rfl
@[simp] theorem storePayload_pal (v : Byte) (s : State) : (storePayload v s).pal = s.pal := rfl
@[simp] theorem storePayload_latch (v : Byte) (s : State) :
    (storePayload v s).latch = s.latch := rfl
@[simp] theorem storePayload_cur (v : Byte) (s : State) :
    (storePayload v s).cur = RowBuf.put s.cur s.filt.x.toNat v := rfl
@[simp] theorem storePayload_prev (v : Byte) (s : State) : (storePayload v s).prev = s.prev := rfl
@[simp] theorem storePayload_mem (v : Byte) (s : State) : (storePayload v s).mem = s.mem := rfl
@[simp] theorem storePayload_platform (v : Byte) (s : State) :
    (storePayload v s).platform = s.platform := rfl
@[simp] theorem storePayload_inbox (v : Byte) (s : State) :
    (storePayload v s).inbox = s.inbox := rfl
@[simp] theorem storePayload_readData (v : Byte) (s : State) :
    (storePayload v s).readData = s.readData := rfl
@[simp] theorem storePayload_busLog (v : Byte) (s : State) :
    (storePayload v s).busLog = s.busLog := rfl
@[simp] theorem storePayload_filt (v : Byte) (s : State) :
    (storePayload v s).filt = { s.filt with x := s.filt.x + 1#32 } := rfl

/-! ### `startRow` -/

@[simp] theorem startRow_ctrl (f : FilterType) (s : State) : (startRow f s).ctrl = s.ctrl := rfl
@[simp] theorem startRow_status (f : FilterType) (s : State) :
    (startRow f s).status = s.status := rfl
@[simp] theorem startRow_errAddr (f : FilterType) (s : State) :
    (startRow f s).errAddr = s.errAddr := rfl
@[simp] theorem startRow_crc (f : FilterType) (s : State) : (startRow f s).crc = s.crc := rfl
@[simp] theorem startRow_adler (f : FilterType) (s : State) : (startRow f s).adler = s.adler := rfl
@[simp] theorem startRow_srcAddr (f : FilterType) (s : State) :
    (startRow f s).srcAddr = s.srcAddr := rfl
@[simp] theorem startRow_dstAddr (f : FilterType) (s : State) :
    (startRow f s).dstAddr = s.dstAddr := rfl
@[simp] theorem startRow_dstStride (f : FilterType) (s : State) :
    (startRow f s).dstStride = s.dstStride := rfl
@[simp] theorem startRow_dstXstep (f : FilterType) (s : State) :
    (startRow f s).dstXstep = s.dstXstep := rfl
@[simp] theorem startRow_width (f : FilterType) (s : State) : (startRow f s).width = s.width := rfl
@[simp] theorem startRow_rows (f : FilterType) (s : State) : (startRow f s).rows = s.rows := rfl
@[simp] theorem startRow_fmt (f : FilterType) (s : State) : (startRow f s).fmt = s.fmt := rfl
@[simp] theorem startRow_pal (f : FilterType) (s : State) : (startRow f s).pal = s.pal := rfl
@[simp] theorem startRow_latch (f : FilterType) (s : State) : (startRow f s).latch = s.latch := rfl
@[simp] theorem startRow_cur (f : FilterType) (s : State) : (startRow f s).cur = s.cur := rfl
@[simp] theorem startRow_prev (f : FilterType) (s : State) : (startRow f s).prev = s.prev := rfl
@[simp] theorem startRow_mem (f : FilterType) (s : State) : (startRow f s).mem = s.mem := rfl
@[simp] theorem startRow_platform (f : FilterType) (s : State) :
    (startRow f s).platform = s.platform := rfl
@[simp] theorem startRow_inbox (f : FilterType) (s : State) : (startRow f s).inbox = s.inbox := rfl
@[simp] theorem startRow_readData (f : FilterType) (s : State) :
    (startRow f s).readData = s.readData := rfl
@[simp] theorem startRow_busLog (f : FilterType) (s : State) :
    (startRow f s).busLog = s.busLog := rfl
@[simp] theorem startRow_filt (f : FilterType) (s : State) :
    (startRow f s).filt = { s.filt with ftype := f, x := 0#32, phase := .inRow } := rfl

/-! ### `finishRow` -/

@[simp] theorem finishRow_ctrl (r : List Byte) (s : State) : (finishRow r s).ctrl = s.ctrl := rfl
@[simp] theorem finishRow_status (r : List Byte) (s : State) :
    (finishRow r s).status = s.status := rfl
@[simp] theorem finishRow_errAddr (r : List Byte) (s : State) :
    (finishRow r s).errAddr = s.errAddr := rfl
@[simp] theorem finishRow_crc (r : List Byte) (s : State) : (finishRow r s).crc = s.crc := rfl
@[simp] theorem finishRow_adler (r : List Byte) (s : State) : (finishRow r s).adler = s.adler := rfl
@[simp] theorem finishRow_srcAddr (r : List Byte) (s : State) :
    (finishRow r s).srcAddr = s.srcAddr := rfl
@[simp] theorem finishRow_dstAddr (r : List Byte) (s : State) :
    (finishRow r s).dstAddr = s.dstAddr + s.latch.stride := rfl
@[simp] theorem finishRow_dstStride (r : List Byte) (s : State) :
    (finishRow r s).dstStride = s.dstStride := rfl
@[simp] theorem finishRow_dstXstep (r : List Byte) (s : State) :
    (finishRow r s).dstXstep = s.dstXstep := rfl
@[simp] theorem finishRow_width (r : List Byte) (s : State) : (finishRow r s).width = s.width := rfl
@[simp] theorem finishRow_rows (r : List Byte) (s : State) : (finishRow r s).rows = s.rows := rfl
@[simp] theorem finishRow_fmt (r : List Byte) (s : State) : (finishRow r s).fmt = s.fmt := rfl
@[simp] theorem finishRow_pal (r : List Byte) (s : State) : (finishRow r s).pal = s.pal := rfl
@[simp] theorem finishRow_latch (r : List Byte) (s : State) : (finishRow r s).latch = s.latch := rfl
@[simp] theorem finishRow_cur (r : List Byte) (s : State) : (finishRow r s).cur = s.cur := rfl
@[simp] theorem finishRow_prev (r : List Byte) (s : State) :
    (finishRow r s).prev = RowBuf.putRow s.prev 0 r := rfl
@[simp] theorem finishRow_mem (r : List Byte) (s : State) : (finishRow r s).mem = s.mem := rfl
@[simp] theorem finishRow_platform (r : List Byte) (s : State) :
    (finishRow r s).platform = s.platform := rfl
@[simp] theorem finishRow_inbox (r : List Byte) (s : State) : (finishRow r s).inbox = s.inbox := rfl
@[simp] theorem finishRow_readData (r : List Byte) (s : State) :
    (finishRow r s).readData = s.readData := rfl
@[simp] theorem finishRow_busLog (r : List Byte) (s : State) :
    (finishRow r s).busLog = s.busLog := rfl
@[simp] theorem finishRow_filt_first (r : List Byte) (s : State) :
    (finishRow r s).filt.first = false := rfl
@[simp] theorem finishRow_filt_row (r : List Byte) (s : State) :
    (finishRow r s).filt.row = s.filt.row + 1#32 := rfl
@[simp] theorem finishRow_filt_x (r : List Byte) (s : State) : (finishRow r s).filt.x = 0#32 := rfl
@[simp] theorem finishRow_filt_ftype (r : List Byte) (s : State) :
    (finishRow r s).filt.ftype = s.filt.ftype := rfl
@[simp] theorem finishRow_filt_phase (r : List Byte) (s : State) :
    (finishRow r s).filt.phase =
      if s.filt.row + 1#32 = s.latch.rows then .done else .awaitFilter := rfl

/-! ### `beginPass` -/

@[simp] theorem beginPass_ctrl (g : Geometry) (s : State) : (beginPass g s).ctrl = s.ctrl := rfl
@[simp] theorem beginPass_status (g : Geometry) (s : State) :
    (beginPass g s).status = s.status := rfl
@[simp] theorem beginPass_errAddr (g : Geometry) (s : State) :
    (beginPass g s).errAddr = s.errAddr := rfl
@[simp] theorem beginPass_crc (g : Geometry) (s : State) : (beginPass g s).crc = s.crc := rfl
@[simp] theorem beginPass_adler (g : Geometry) (s : State) : (beginPass g s).adler = s.adler := rfl
@[simp] theorem beginPass_srcAddr (g : Geometry) (s : State) :
    (beginPass g s).srcAddr = s.srcAddr := rfl
@[simp] theorem beginPass_dstAddr (g : Geometry) (s : State) :
    (beginPass g s).dstAddr = s.dstAddr := rfl
@[simp] theorem beginPass_dstStride (g : Geometry) (s : State) :
    (beginPass g s).dstStride = s.dstStride := rfl
@[simp] theorem beginPass_dstXstep (g : Geometry) (s : State) :
    (beginPass g s).dstXstep = s.dstXstep := rfl
@[simp] theorem beginPass_width (g : Geometry) (s : State) : (beginPass g s).width = s.width := rfl
@[simp] theorem beginPass_rows (g : Geometry) (s : State) : (beginPass g s).rows = s.rows := rfl
@[simp] theorem beginPass_fmt (g : Geometry) (s : State) : (beginPass g s).fmt = s.fmt := rfl
@[simp] theorem beginPass_pal (g : Geometry) (s : State) : (beginPass g s).pal = s.pal := rfl
@[simp] theorem beginPass_latch (g : Geometry) (s : State) :
    (beginPass g s).latch = ⟨s.width, s.rows, s.fmt, s.dstStride, s.dstXstep, g.bpp, g.rowBytes, g.dist⟩ := rfl
@[simp] theorem beginPass_cur (g : Geometry) (s : State) : (beginPass g s).cur = s.cur := rfl
@[simp] theorem beginPass_prev (g : Geometry) (s : State) : (beginPass g s).prev = s.prev := rfl
@[simp] theorem beginPass_mem (g : Geometry) (s : State) : (beginPass g s).mem = s.mem := rfl
@[simp] theorem beginPass_platform (g : Geometry) (s : State) :
    (beginPass g s).platform = s.platform := rfl
@[simp] theorem beginPass_inbox (g : Geometry) (s : State) : (beginPass g s).inbox = s.inbox := rfl
@[simp] theorem beginPass_readData (g : Geometry) (s : State) :
    (beginPass g s).readData = s.readData := rfl
@[simp] theorem beginPass_busLog (g : Geometry) (s : State) :
    (beginPass g s).busLog = s.busLog := rfl
@[simp] theorem beginPass_filt (g : Geometry) (s : State) :
    (beginPass g s).filt =
      ⟨if s.width = 0#32 ∨ s.rows = 0#32 then .done else .awaitFilter, .none, 0#32, 0#32, true⟩ := rfl

/-! ### `State.queueCmd` -/

@[simp] theorem State.queueCmd_ctrl (s : State) (w : Word) : (s.queueCmd w).ctrl = s.ctrl := rfl
@[simp] theorem State.queueCmd_status (s : State) (w : Word) :
    (s.queueCmd w).status = s.status := rfl
@[simp] theorem State.queueCmd_errAddr (s : State) (w : Word) :
    (s.queueCmd w).errAddr = s.errAddr := rfl
@[simp] theorem State.queueCmd_crc (s : State) (w : Word) : (s.queueCmd w).crc = s.crc := rfl
@[simp] theorem State.queueCmd_adler (s : State) (w : Word) : (s.queueCmd w).adler = s.adler := rfl
@[simp] theorem State.queueCmd_srcAddr (s : State) (w : Word) :
    (s.queueCmd w).srcAddr = s.srcAddr := rfl
@[simp] theorem State.queueCmd_dstAddr (s : State) (w : Word) :
    (s.queueCmd w).dstAddr = s.dstAddr := rfl
@[simp] theorem State.queueCmd_dstStride (s : State) (w : Word) :
    (s.queueCmd w).dstStride = s.dstStride := rfl
@[simp] theorem State.queueCmd_dstXstep (s : State) (w : Word) :
    (s.queueCmd w).dstXstep = s.dstXstep := rfl
@[simp] theorem State.queueCmd_width (s : State) (w : Word) : (s.queueCmd w).width = s.width := rfl
@[simp] theorem State.queueCmd_rows (s : State) (w : Word) : (s.queueCmd w).rows = s.rows := rfl
@[simp] theorem State.queueCmd_fmt (s : State) (w : Word) : (s.queueCmd w).fmt = s.fmt := rfl
@[simp] theorem State.queueCmd_pal (s : State) (w : Word) : (s.queueCmd w).pal = s.pal := rfl
@[simp] theorem State.queueCmd_latch (s : State) (w : Word) : (s.queueCmd w).latch = s.latch := rfl
@[simp] theorem State.queueCmd_filt (s : State) (w : Word) : (s.queueCmd w).filt = s.filt := rfl
@[simp] theorem State.queueCmd_cur (s : State) (w : Word) : (s.queueCmd w).cur = s.cur := rfl
@[simp] theorem State.queueCmd_prev (s : State) (w : Word) : (s.queueCmd w).prev = s.prev := rfl
@[simp] theorem State.queueCmd_mem (s : State) (w : Word) : (s.queueCmd w).mem = s.mem := rfl
@[simp] theorem State.queueCmd_platform (s : State) (w : Word) :
    (s.queueCmd w).platform = s.platform := rfl
@[simp] theorem State.queueCmd_inbox (s : State) (w : Word) :
    (s.queueCmd w).inbox = .write 0x008 .w32 w :: s.inbox := rfl
@[simp] theorem State.queueCmd_readData (s : State) (w : Word) :
    (s.queueCmd w).readData = s.readData := rfl
@[simp] theorem State.queueCmd_busLog (s : State) (w : Word) :
    (s.queueCmd w).busLog = s.busLog := rfl

/-! ### `State.resetEngine` -/

@[simp] theorem State.resetEngine_ctrl (s : State) : s.resetEngine.ctrl = State.reset.ctrl := rfl
@[simp] theorem State.resetEngine_status (s : State) : s.resetEngine.status = State.reset.status := rfl
@[simp] theorem State.resetEngine_errAddr (s : State) : s.resetEngine.errAddr = State.reset.errAddr := rfl
@[simp] theorem State.resetEngine_crc (s : State) : s.resetEngine.crc = State.reset.crc := rfl
@[simp] theorem State.resetEngine_adler (s : State) : s.resetEngine.adler = State.reset.adler := rfl
@[simp] theorem State.resetEngine_srcAddr (s : State) : s.resetEngine.srcAddr = State.reset.srcAddr := rfl
@[simp] theorem State.resetEngine_dstAddr (s : State) : s.resetEngine.dstAddr = State.reset.dstAddr := rfl
@[simp] theorem State.resetEngine_dstStride (s : State) : s.resetEngine.dstStride = State.reset.dstStride := rfl
@[simp] theorem State.resetEngine_dstXstep (s : State) : s.resetEngine.dstXstep = State.reset.dstXstep := rfl
@[simp] theorem State.resetEngine_width (s : State) : s.resetEngine.width = State.reset.width := rfl
@[simp] theorem State.resetEngine_rows (s : State) : s.resetEngine.rows = State.reset.rows := rfl
@[simp] theorem State.resetEngine_fmt (s : State) : s.resetEngine.fmt = State.reset.fmt := rfl
@[simp] theorem State.resetEngine_pal (s : State) : s.resetEngine.pal = State.reset.pal := rfl
@[simp] theorem State.resetEngine_latch (s : State) : s.resetEngine.latch = State.reset.latch := rfl
@[simp] theorem State.resetEngine_filt (s : State) : s.resetEngine.filt = State.reset.filt := rfl
@[simp] theorem State.resetEngine_cur (s : State) : s.resetEngine.cur = State.reset.cur := rfl
@[simp] theorem State.resetEngine_prev (s : State) : s.resetEngine.prev = State.reset.prev := rfl
@[simp] theorem State.resetEngine_mem (s : State) : s.resetEngine.mem = s.mem := rfl
@[simp] theorem State.resetEngine_platform (s : State) : s.resetEngine.platform = s.platform := rfl
@[simp] theorem State.resetEngine_inbox (s : State) : s.resetEngine.inbox = s.inbox := rfl
@[simp] theorem State.resetEngine_readData (s : State) : s.resetEngine.readData = s.readData := rfl
@[simp] theorem State.resetEngine_busLog (s : State) : s.resetEngine.busLog = s.busLog := rfl

/-! ### The Adler tap touches ADLER only -/

@[simp] theorem adlerTap_ctrl (v : Byte) (s : State) : (adlerTap v s).ctrl = s.ctrl := by
  unfold adlerTap
  split <;> rfl
@[simp] theorem adlerTap_status (v : Byte) (s : State) : (adlerTap v s).status = s.status := by
  unfold adlerTap
  split <;> rfl
@[simp] theorem adlerTap_errAddr (v : Byte) (s : State) : (adlerTap v s).errAddr = s.errAddr := by
  unfold adlerTap
  split <;> rfl
@[simp] theorem adlerTap_crc (v : Byte) (s : State) : (adlerTap v s).crc = s.crc := by
  unfold adlerTap
  split <;> rfl
@[simp] theorem adlerTap_adler (v : Byte) (s : State) :
    (adlerTap v s).adler = if s.ctrl.adlerTap then adler32Byte s.adler v else s.adler := by
  unfold adlerTap
  split <;> rfl
@[simp] theorem adlerTap_srcAddr (v : Byte) (s : State) : (adlerTap v s).srcAddr = s.srcAddr := by
  unfold adlerTap
  split <;> rfl
@[simp] theorem adlerTap_dstAddr (v : Byte) (s : State) : (adlerTap v s).dstAddr = s.dstAddr := by
  unfold adlerTap
  split <;> rfl
@[simp] theorem adlerTap_dstStride (v : Byte) (s : State) : (adlerTap v s).dstStride = s.dstStride := by
  unfold adlerTap
  split <;> rfl
@[simp] theorem adlerTap_dstXstep (v : Byte) (s : State) : (adlerTap v s).dstXstep = s.dstXstep := by
  unfold adlerTap
  split <;> rfl
@[simp] theorem adlerTap_width (v : Byte) (s : State) : (adlerTap v s).width = s.width := by
  unfold adlerTap
  split <;> rfl
@[simp] theorem adlerTap_rows (v : Byte) (s : State) : (adlerTap v s).rows = s.rows := by
  unfold adlerTap
  split <;> rfl
@[simp] theorem adlerTap_fmt (v : Byte) (s : State) : (adlerTap v s).fmt = s.fmt := by
  unfold adlerTap
  split <;> rfl
@[simp] theorem adlerTap_pal (v : Byte) (s : State) : (adlerTap v s).pal = s.pal := by
  unfold adlerTap
  split <;> rfl
@[simp] theorem adlerTap_latch (v : Byte) (s : State) : (adlerTap v s).latch = s.latch := by
  unfold adlerTap
  split <;> rfl
@[simp] theorem adlerTap_filt (v : Byte) (s : State) : (adlerTap v s).filt = s.filt := by
  unfold adlerTap
  split <;> rfl
@[simp] theorem adlerTap_cur (v : Byte) (s : State) : (adlerTap v s).cur = s.cur := by
  unfold adlerTap
  split <;> rfl
@[simp] theorem adlerTap_prev (v : Byte) (s : State) : (adlerTap v s).prev = s.prev := by
  unfold adlerTap
  split <;> rfl
@[simp] theorem adlerTap_mem (v : Byte) (s : State) : (adlerTap v s).mem = s.mem := by
  unfold adlerTap
  split <;> rfl
@[simp] theorem adlerTap_platform (v : Byte) (s : State) : (adlerTap v s).platform = s.platform := by
  unfold adlerTap
  split <;> rfl
@[simp] theorem adlerTap_inbox (v : Byte) (s : State) : (adlerTap v s).inbox = s.inbox := by
  unfold adlerTap
  split <;> rfl
@[simp] theorem adlerTap_readData (v : Byte) (s : State) : (adlerTap v s).readData = s.readData := by
  unfold adlerTap
  split <;> rfl
@[simp] theorem adlerTap_busLog (v : Byte) (s : State) : (adlerTap v s).busLog = s.busLog := by
  unfold adlerTap
  split <;> rfl

end Sys2Proof.Machine
end

