-- ==== Sys2Proof/Laws/Bus.lean ====
section
/-! SUPPORT. What the bus accesses and the byte loops can do, said once each. -/

namespace Sys2Proof.Machine

/-- Bus memory after a list of bus writes, newest first. -/
def replay (ws m : List Host.Cell) : List Host.Cell := ws.foldr (fun c m => Memory.write m c.1 c.2) m

/-- `t` is `s` after bus writes at addresses in `A`, each of them admitted and logged: memory and the log
of bus writes may differ, and nothing else does. -/
structure BusEffect (A : Nat → Prop) (s t : State) : Prop where
  frame : t = { s with mem := t.mem, busLog := t.busLog }
  log : ∃ ws, t.busLog = ws ++ s.busLog ∧ t.mem = replay ws s.mem ∧
    ∀ c ∈ ws, A c.1 ∧ ∃ a : Addr, c.1 = a.toNat ∧ s.platform.admits a .write = true

/-- `t` is `s` after bus writes at addresses in `A` and then a refused access, one of those in `R`. -/
def BusFault (A : Nat → Prop) (R : Addr → AccessKind → Prop) (s t : State) : Prop :=
  ∃ u a k, BusEffect A s u ∧ R a k ∧ s.platform.admits a k = false ∧ t = u.enterFault .bus (some a)

theorem replay_append (ws ws' m : List Host.Cell) : replay (ws' ++ ws) m = replay ws' (replay ws m) := by
  simp [replay]

theorem BusEffect.refl (A : Nat → Prop) (s : State) : BusEffect A s s :=
  ⟨rfl, [], rfl, rfl, fun _ h => absurd h (by simp)⟩

theorem BusEffect.mono {A B : Nat → Prop} {s t : State} (h : BusEffect A s t) (hAB : ∀ b, A b → B b) :
    BusEffect B s t := by
  obtain ⟨ws, hl, hm, hw⟩ := h.log
  exact ⟨h.frame, ws, hl, hm, fun c hc => ⟨hAB _ (hw c hc).1, (hw c hc).2⟩⟩

theorem BusEffect.platform {A : Nat → Prop} {s t : State} (h : BusEffect A s t) :
    t.platform = s.platform := by rw [h.frame]

theorem BusEffect.trans {A : Nat → Prop} {s t u : State} (h : BusEffect A s t) (h' : BusEffect A t u) :
    BusEffect A s u := by
  refine ⟨?_, ?_⟩
  · have h1 := h.frame
    have h2 := h'.frame
    rw [h1] at h2
    exact h2
  · obtain ⟨ws, hl, hm, hw⟩ := h.log
    obtain ⟨ws', hl', hm', hw'⟩ := h'.log
    refine ⟨ws' ++ ws, by simp [hl, hl'], by rw [hm', hm, replay_append], fun c hc => ?_⟩
    rcases List.mem_append.1 hc with hc | hc
    · rw [← h.platform]
      exact hw' c hc
    · exact hw c hc

/-- Bus writes keep the canonical form of memory. -/
theorem BusEffect.wf {A : Nat → Prop} {s t : State} (h : BusEffect A s t) (hm : Memory.wf s.mem) :
    Memory.wf t.mem := by
  obtain ⟨ws, -, ht, hw⟩ := h.log
  rw [ht]
  clear ht
  induction ws with
  | nil => exact hm
  | cons c ws ih =>
    obtain ⟨-, a, ha, -⟩ := hw c (by simp)
    have := Memory.wf_write a c.2 (ih fun d hd => hw d (by simp [hd]))
    rw [← ha] at this
    exact this

/-- Bus writes leave every byte outside their addresses. -/
theorem BusEffect.outside {A : Nat → Prop} {s t : State} (h : BusEffect A s t) {b : Nat} (hb : ¬ A b) :
    Memory.read t.mem b = Memory.read s.mem b := by
  obtain ⟨ws, -, ht, hw⟩ := h.log
  rw [ht]
  clear ht
  induction ws with
  | nil => rfl
  | cons c ws ih =>
    have hc : b ≠ c.1 := fun hbc => hb (hbc ▸ (hw c (by simp)).1)
    exact (Memory.read_write_other _ _ hc).trans (ih fun d hd => hw d (by simp [hd]))

theorem BusEffect.fault {A : Nat → Prop} {R : Addr → AccessKind → Prop} {s t u : State}
    (h : BusEffect A s t) (h' : BusFault A R t u) : BusFault A R s u := by
  obtain ⟨v, a, k, hv, hr, ha, hu⟩ := h'
  exact ⟨v, a, k, h.trans hv, hr, by rw [← h.platform]; exact ha, hu⟩

theorem BusFault.mono {A B : Nat → Prop} {R R' : Addr → AccessKind → Prop} {s t : State}
    (h : BusFault A R s t) (hAB : ∀ b, A b → B b) (hR : ∀ a k, R a k → R' a k) : BusFault B R' s t := by
  obtain ⟨v, a, k, hv, hr, ha, hu⟩ := h
  exact ⟨v, a, k, hv.mono hAB, hR a k hr, ha, hu⟩

/-- Where every access of `R` is admitted, none of them is refused. -/
theorem BusFault.elim {A : Nat → Prop} {R : Addr → AccessKind → Prop} {s t : State}
    (h : BusFault A R s t) (hadm : ∀ a k, R a k → s.platform.admits a k = true) : False := by
  obtain ⟨v, a, k, -, hr, ha, -⟩ := h
  simp [hadm a k hr] at ha

/-- The accesses of a read at one address. -/
def readAt (a : Addr) : Addr → AccessKind → Prop := fun b k => b = a ∧ k = .read

/-- The accesses of one kind in a run of addresses. -/
def runAccess (a : Addr) (n : Nat) (kind : AccessKind) : Addr → AccessKind → Prop :=
  fun b k => k = kind ∧ inRun a n b.toNat

theorem inRun_tail {a : Addr} {n b : Nat} (h : inRun (a + 1#32) n b) : inRun a (n + 1) b := by
  obtain ⟨j, hj, rfl⟩ := h
  refine ⟨j + 1, by omega, ?_⟩
  congr 1
  apply BitVec.eq_of_toNat_eq
  simp [BitVec.toNat_add]
  omega

theorem inRun_head (a : Addr) (n : Nat) : inRun a (n + 1) a.toNat := ⟨0, by omega, by simp⟩

/-- Address `a + k` for a small `k` is in a run from `a`. -/
theorem inRun_add (a : Addr) {n k : Nat} (h : k < n) : inRun a n (a + BitVec.ofNat 32 k).toNat := ⟨k, h, rfl⟩

/-! ### Reads -/

theorem busRead_ok {a : Addr} {s : State} (h : s.platform.admits a .read = true) :
    busRead a s = .ok (Memory.read s.mem a.toNat) s := if_pos h

theorem busRead_refused {a : Addr} {s : State} (h : s.platform.admits a .read = false) :
    busRead a s = raise .bus (some a) s := if_neg (by simp [h])

/-- A read leaves the state, or is the first refused one. -/
theorem busRead_good (A : Nat → Prop) (a : Addr) (s : State) :
    (busRead a s).Good (fun v t => t = s ∧ v = Memory.read s.mem a.toNat) (BusFault A (readAt a) s) := by
  cases h : s.platform.admits a .read
  · rw [busRead_refused h]
    exact ⟨s, a, .read, BusEffect.refl A s, ⟨rfl, rfl⟩, h, rfl⟩
  · rw [busRead_ok h]
    exact ⟨rfl, rfl⟩

theorem addr_add_succ (a : Addr) (n : Nat) :
    a + BitVec.ofNat 32 (n + 1) = a + 1#32 + BitVec.ofNat 32 n := by
  apply BitVec.eq_of_toNat_eq
  simp [BitVec.toNat_add]
  omega

@[simp] theorem State.bytesFrom_length (s : State) (a : Addr) (n : Nat) : (s.bytesFrom a n).length = n := by
  simp [State.bytesFrom]

theorem State.bytesFrom_zero (s : State) (a : Addr) : s.bytesFrom a 0 = [] := rfl

theorem State.bytesFrom_succ (s : State) (a : Addr) (n : Nat) :
    s.bytesFrom a (n + 1) = Memory.read s.mem a.toNat :: s.bytesFrom (a + 1#32) n := by
  unfold State.bytesFrom
  rw [List.range_succ_eq_map, List.map_cons, List.map_map]
  congr 1
  · simp
  · exact List.map_congr_left fun j _ => by rw [Function.comp_apply, Nat.succ_eq_add_one, addr_add_succ a j]

theorem State.admitsRun_succ {s : State} {k : AccessKind} {a : Addr} {n : Nat} :
    s.admitsRun k a (n + 1) ↔ s.platform.admits a k = true ∧ s.admitsRun k (a + 1#32) n := by
  constructor
  · intro h
    refine ⟨by simpa using h 0 (by omega), fun j hj => ?_⟩
    rw [← addr_add_succ]
    exact h (j + 1) (by omega)
  · rintro ⟨h0, h⟩ j hj
    cases j with
    | zero => simpa using h0
    | succ j => rw [addr_add_succ]; exact h j (by omega)

/-- A run of admitted bytes is read. -/
theorem readBytes_ok {a : Addr} {n : Nat} {s : State} (h : s.admitsRun .read a n) :
    readBytes a n s = .ok (s.bytesFrom a n) s := by
  induction n generalizing a with
  | zero => rfl
  | succ n ih =>
    obtain ⟨h0, h⟩ := State.admitsRun_succ.1 h
    rw [readBytes, busRead_ok h0, Res.bind_ok, ih h, State.bytesFrom_succ]
    rfl

/-- A run of reads leaves the state, or ends at a refused one. -/
theorem readBytes_good (A : Nat → Prop) (a : Addr) (n : Nat) (s : State) :
    (readBytes a n s).Good (fun vs t => t = s ∧ vs = s.bytesFrom a n)
      (BusFault A (runAccess a n .read) s) := by
  induction n generalizing a with
  | zero => exact ⟨rfl, rfl⟩
  | succ n ih =>
    refine ((busRead_good A a s).mono (fun _ _ h => h) fun t ht => ht.mono (fun _ h => h) ?_).bind
      fun v t => ?_
    · rintro b k ⟨rfl, rfl⟩
      exact ⟨rfl, inRun_head _ _⟩
    rintro ⟨rfl, rfl⟩
    refine ((ih (a + 1#32)).mono (fun _ _ h => h) fun u hu => hu.mono (fun _ h => h)
      fun b k hb => ⟨hb.1, inRun_tail hb.2⟩).bind fun vs t => ?_
    rintro ⟨rfl, rfl⟩
    exact ⟨rfl, (State.bytesFrom_succ t a n).symm⟩

/-- A trailer whose four bytes are admitted is read big-endian. -/
theorem readTrailer_ok {a : Addr} {s : State} (h : s.admitsRun .read a 4) :
    readTrailer a s = .ok (s.trailerAt a) s := by
  have h0 := h 0 (by omega)
  have h1 := h 1 (by omega)
  have h2 := h 2 (by omega)
  have h3 := h 3 (by omega)
  simp only [BitVec.add_zero] at h0 h1 h2 h3
  rw [readTrailer, busRead_ok h0, Res.bind_ok, busRead_ok h1, Res.bind_ok, busRead_ok h2, Res.bind_ok,
    busRead_ok h3]
  rfl

/-- A read of the four bytes at `a`, one after another. -/
theorem read4_good {α : Type} (A : Nat → Prop) (a : Addr) (s : State) (mk : Byte → Byte → Byte → Byte → α) :
    ((busRead a s).bind fun t0 s => (busRead (a + 1#32) s).bind fun t1 s =>
      (busRead (a + 2#32) s).bind fun t2 s => (busRead (a + 3#32) s).bind fun t3 s =>
        .ok (mk t0 t1 t2 t3) s).Good
      (fun w t => t = s ∧ w = mk (Memory.read s.mem a.toNat) (Memory.read s.mem (a + 1#32).toNat)
        (Memory.read s.mem (a + 2#32).toNat) (Memory.read s.mem (a + 3#32).toNat))
      (BusFault A (runAccess a 4 .read) s) := by
  have one : ∀ k < 4, ∀ t, BusFault A (readAt (a + BitVec.ofNat 32 k)) s t →
      BusFault A (runAccess a 4 .read) s t := fun k hk t ht =>
    ht.mono (fun _ h => h) fun b kd hb => ⟨hb.2, hb.1 ▸ inRun_add a hk⟩
  refine ((busRead_good A a s).mono (fun _ _ h => h) fun t ht => one 0 (by omega) t (by simpa using ht)).bind
    fun v t => ?_
  rintro ⟨rfl, rfl⟩
  refine ((busRead_good A _ t).mono (fun _ _ h => h) (one 1 (by omega))).bind fun v u => ?_
  rintro ⟨rfl, rfl⟩
  refine ((busRead_good A _ u).mono (fun _ _ h => h) (one 2 (by omega))).bind fun v t => ?_
  rintro ⟨rfl, rfl⟩
  refine ((busRead_good A _ t).mono (fun _ _ h => h) (one 3 (by omega))).bind fun v u => ?_
  rintro ⟨rfl, rfl⟩
  exact ⟨rfl, rfl⟩

theorem readTrailer_good (A : Nat → Prop) (a : Addr) (s : State) :
    (readTrailer a s).Good (fun w t => t = s ∧ w = s.trailerAt a) (BusFault A (runAccess a 4 .read) s) :=
  read4_good A a s fun t0 t1 t2 t3 => t0 ++ t1 ++ t2 ++ t3

theorem readPixel_good (A : Nat → Prop) (q : Addr) (s : State) :
    (readPixel q s).Good
      (fun p t => t = s ∧ p = ⟨Memory.read s.mem q.toNat, Memory.read s.mem (q + 1#32).toNat,
        Memory.read s.mem (q + 2#32).toNat, Memory.read s.mem (q + 3#32).toNat⟩)
      (BusFault A (runAccess q 4 .read) s) :=
  read4_good A q s Pixel.mk

/-! ### Writes -/

theorem busWrite_ok {a : Addr} {v : Byte} {s : State} (h : s.platform.admits a .write = true) :
    busWrite a v s = .ok () { s with
      mem := Memory.write s.mem a.toNat v
      busLog := (a.toNat, v) :: s.busLog } := if_pos h

theorem busWrite_refused {a : Addr} {v : Byte} {s : State} (h : s.platform.admits a .write = false) :
    busWrite a v s = raise .bus (some a) s := if_neg (by simp [h])

theorem busWrite_good (A : Nat → Prop) (a : Addr) (v : Byte) (s : State) (hA : A a.toNat) :
    (busWrite a v s).Good (fun _ => BusEffect A s) (BusFault A (runAccess a 1 .write) s) := by
  cases h : s.platform.admits a .write
  · rw [busWrite_refused h]
    exact ⟨s, a, .write, BusEffect.refl A s, ⟨rfl, inRun_head a 0⟩, h, rfl⟩
  · rw [busWrite_ok h]
    refine ⟨rfl, [(a.toNat, v)], rfl, rfl, fun c hc => ?_⟩
    rw [List.mem_singleton.1 hc]
    exact ⟨hA, a, rfl, h⟩

/-- A run of writes stores in its run and changes nothing else, or ends at a refused write of it. -/
theorem writeBytes_good (A : Nat → Prop) (a : Addr) (vs : List Byte) (s : State)
    (hA : ∀ b, inRun a vs.length b → A b) :
    (writeBytes a vs s).Good (fun _ => BusEffect A s) (BusFault A (runAccess a vs.length .write) s) := by
  induction vs generalizing a s with
  | nil => exact BusEffect.refl A s
  | cons v vs ih =>
    refine ((busWrite_good A a v s (hA _ (inRun_head _ _))).mono (fun _ _ h => h)
      fun t ht => ht.mono (fun _ h => h) ?_).bind fun _ t ht => ?_
    · rintro b k ⟨hk, j, hj, hb⟩
      exact ⟨hk, j, by simp only [List.length_cons]; omega, hb⟩
    refine (ih (a + 1#32) t fun b hb => hA b (inRun_tail hb)).mono (fun _ u hu => ht.trans hu)
      fun u hu => (ht.fault hu).mono (fun _ h => h) fun b k hb => ⟨hb.1, inRun_tail hb.2⟩

/-- What memory holds after an admitted run of writes that does not wrap onto itself. -/
theorem writeBytes_ok {a : Addr} {vs : List Byte} {s : State} (h : s.admitsRun .write a vs.length)
    (hlen : vs.length ≤ 2 ^ 32) :
    ∃ t, writeBytes a vs s = .ok () t ∧ BusEffect (inRun a vs.length) s t ∧
      t.bytesFrom a vs.length = vs := by
  induction vs generalizing a s with
  | nil => exact ⟨s, rfl, BusEffect.refl _ s, rfl⟩
  | cons v vs ih =>
    simp only [List.length_cons] at h hlen
    obtain ⟨h0, h1⟩ := State.admitsRun_succ.1 h
    rw [writeBytes, busWrite_ok h0, Res.bind_ok]
    obtain ⟨t, ht, he, hb⟩ := ih (a := a + 1#32)
      (s := { s with mem := Memory.write s.mem a.toNat v, busLog := (a.toNat, v) :: s.busLog }) h1 (by omega)
    have hs : BusEffect (inRun a (vs.length + 1)) s
        { s with mem := Memory.write s.mem a.toNat v, busLog := (a.toNat, v) :: s.busLog } :=
      ⟨rfl, [(a.toNat, v)], rfl, rfl, fun c hc => by
        rw [List.mem_singleton.1 hc]; exact ⟨inRun_head _ _, a, rfl, h0⟩⟩
    refine ⟨t, ht, hs.trans (he.mono fun b => inRun_tail), ?_⟩
    rw [List.length_cons, State.bytesFrom_succ, hb]
    congr 1
    rw [he.outside]
    · exact Memory.read_write_same _ _ _
    · rintro ⟨j, hj, hh⟩
      have := a.isLt
      simp only [BitVec.toNat_add, BitVec.toNat_ofNat] at hh
      omega

/-! ### Streams -/

theorem streamBytes_zero (h : Byte → State → Res Unit) (s : State) : streamBytes h 0 s = .ok () s := rfl

/-- A stream of `p + q` bytes is a stream of `p` and then one of `q`. -/
theorem streamBytes_add (h : Byte → State → Res Unit) (p q : Nat) (s : State) :
    streamBytes h (p + q) s = (streamBytes h p s).bind fun _ t => streamBytes h q t := by
  induction p generalizing s with
  | zero => simp [streamBytes]
  | succ p ih =>
    rw [show p + 1 + q = (p + q) + 1 by omega, streamBytes, streamBytes, Res.bind_assoc]
    congr 1
    funext v t
    rw [Res.bind_assoc]
    congr 1
    funext _ u
    exact ih _

theorem streamBytes_sound {h : Byte → State → Res Unit} {P Q : State → Prop}
    (hrefused : ∀ s a, P s → s.platform.admits a .read = false → Q (s.enterFault .bus (some a)))
    (hstep : ∀ v s, P s → (h v s).Sound (fun _ t => P (t.advanceSrc 1)) Q) (n : Nat) (s : State)
    (hs : P s) : (streamBytes h n s).Sound (fun _ => P) Q := by
  induction n generalizing s with
  | zero => exact hs
  | succ n ih =>
    unfold streamBytes
    cases ha : s.platform.admits s.srcAddr .read
    · rw [busRead_refused ha]
      exact hrefused s _ hs ha
    · rw [busRead_ok ha, Res.bind_ok]
      exact (hstep _ s hs).bind fun _ t ht => ih _ ht

/-- An invariant of a stream. -/
theorem streamBytes_good {h : Byte → State → Res Unit} {P Q : State → Prop}
    (hrefused : ∀ s a, P s → s.platform.admits a .read = false → Q (s.enterFault .bus (some a)))
    (hstep : ∀ v s, P s → (h v s).Good (fun _ t => P (t.advanceSrc 1)) Q) (n : Nat) (s : State)
    (hs : P s) : (streamBytes h n s).Good (fun _ => P) Q := by
  induction n generalizing s with
  | zero => exact hs
  | succ n ih =>
    unfold streamBytes
    cases ha : s.platform.admits s.srcAddr .read
    · rw [busRead_refused ha]
      exact hrefused s _ hs ha
    · rw [busRead_ok ha, Res.bind_ok]
      exact (hstep _ s hs).bind fun _ t ht => ih _ ht

end Sys2Proof.Machine
end

