-- ==== Sys2Proof/Laws/Emit.lean ====
section
/-! SUPPORT. check_config, samples inside a row, and everything a row emission can do. -/

namespace Sys2Proof.Machine

/-! ### check_config -/

/-- What a good configuration is (41_filter.md R143). -/
theorem checkConfig_ok {w : Word} {f : Fmt} {m : Nat} {g : Geometry} (h : checkConfig w f m = .ok g) :
    ∃ sf df, srcFormatOf f = some sf ∧ dstFormatOf f = some df ∧ admitted sf.ct df f.srcOver = true ∧
      rowLength w sf.bpp ≤ m ∧ g = ⟨rowLength w sf.bpp, filterDistance sf.bpp, sf.bpp⟩ := by
  unfold checkConfig at h
  split at h
  · simp at h
  · rename_i sf hsf
    split at h
    · simp at h
    · rename_i df hdf
      split at h
      · split at h
        · simp at h
        · exact ⟨sf, df, hsf, hdf, by assumption, by omega, by simpa using h.symm⟩
      · simp at h

theorem liveConfig_good (Q : State → Prop) (s : State) (hQ : ∀ c, Q (s.enterFault c none)) :
    (liveConfig s).Good
      (fun g t => t = s ∧ checkConfig s.width s.fmt s.platform.maxRowBytes = .ok g) Q := by
  unfold liveConfig
  split
  · exact ⟨rfl, by assumption⟩
  · exact hQ _

/-- A source format is a legal pair (41_filter.md R140). -/
theorem srcFormatOf_legal {f : Fmt} {sf : SrcFormat} (h : srcFormatOf f = some sf) :
    legalPair sf.ct sf.depth = true := by
  unfold srcFormatOf at h
  split at h
  · split at h
    · simp only [Option.some.injEq] at h
      subst h
      assumption
    · simp at h
  · simp at h

/-! ### Samples -/

/-- A pixel of the row has all its samples in the row (41_filter.md R142, 42_swizzle.md R182). -/
theorem sample_isSome {sf : SrcFormat} {buf : List Byte} {w : Word} {i ch : Nat}
    (hl : legalPair sf.ct sf.depth = true) (hbuf : buf.length = rowLength w sf.bpp) (hi : i < w.toNat)
    (hch : ch < sf.ct.channels) : (sample sf buf i ch).isSome := by
  obtain ⟨ct, d⟩ := sf
  cases d
  case d16 =>
    have h1 : 2 * (i * ct.channels + ch) + 1 < buf.length := by
      cases ct <;> simp [legalPair] at hl <;>
        simp only [rowLength, SrcFormat.bpp, ColourType.channels, Depth.bits] at * <;> omega
    simp only [sample]
    rw [List.getElem?_eq_getElem h1, List.getElem?_eq_getElem (Nat.lt_of_succ_lt h1)]
    rfl
  all_goals
    cases ct <;> simp [legalPair] at hl <;>
      simp only [rowLength, SrcFormat.bpp, ColourType.channels, Depth.bits] at hbuf hch <;>
      simp only [sample, Depth.bits, ColourType.channels, Option.isSome_map] <;>
      rw [List.getElem?_eq_getElem (by omega)] <;> rfl

theorem toY8_isSome {sf : SrcFormat} {buf : List Byte} {w : Word} {i : Nat}
    (hl : legalPair sf.ct sf.depth = true) (hbuf : buf.length = rowLength w sf.bpp) (hi : i < w.toNat) :
    (toY8 sf buf i).isSome := by
  unfold toY8
  rw [Option.isSome_map]
  exact sample_isSome hl hbuf hi (by cases sf.ct <;> decide)

theorem toBgra_isSome {pal : Vector Word 256} {sf : SrcFormat} {buf : List Byte} {w : Word} {i : Nat}
    (hl : legalPair sf.ct sf.depth = true) (hbuf : buf.length = rowLength w sf.bpp) (hi : i < w.toNat) :
    (toBgra pal sf buf i).isSome := by
  have hs : ∀ ch, ch < sf.ct.channels → ∃ v, sample sf buf i ch = some v := fun ch hch =>
    Option.isSome_iff_exists.1 (sample_isSome hl hbuf hi hch)
  unfold toBgra
  cases hct : sf.ct <;> simp only [hct, ColourType.channels] at hs <;> simp only []
  · obtain ⟨y, hy⟩ := hs 0 (by omega)
    simp [hy]
  · obtain ⟨r, hr⟩ := hs 0 (by omega)
    obtain ⟨g, hg⟩ := hs 1 (by omega)
    obtain ⟨b, hb⟩ := hs 2 (by omega)
    simp [hr, hg, hb]
  · obtain ⟨y, hy⟩ := hs 0 (by omega)
    simp [hy]
  · obtain ⟨y, hy⟩ := hs 0 (by omega)
    obtain ⟨a, ha⟩ := hs 1 (by omega)
    simp [hy, ha]
  · obtain ⟨r, hr⟩ := hs 0 (by omega)
    obtain ⟨g, hg⟩ := hs 1 (by omega)
    obtain ⟨b, hb⟩ := hs 2 (by omega)
    obtain ⟨a, ha⟩ := hs 3 (by omega)
    simp [hr, hg, hb, ha]

/-! ### Row emission -/

theorem BusEffect.dstAddr {A : Nat → Prop} {s t : State} (h : BusEffect A s t) :
    t.dstAddr = s.dstAddr := by rw [h.frame]

theorem BusEffect.pal {A : Nat → Prop} {s t : State} (h : BusEffect A s t) : t.pal = s.pal := by
  rw [h.frame]

/-- The accesses of a row emission: stores at its targets, and under SRC_OVER reads of them. -/
def emitAccess (dst : Addr) (w : Word) (f : Fmt) (xstep : Word) (len : Nat) : Addr → AccessKind → Prop :=
  fun a k => emitTarget dst w f xstep len a.toNat ∧ (k = .write ∨ k = .read ∧ f.srcOver = true)

/-- Everything one BGRA pixel can do. -/
theorem emitBgraPixel_good {sf : SrcFormat} {buf : List Byte} {f : Fmt} {xstep : Word} {i : Nat} {s : State}
    {px : Pixel} (hpx : toBgra s.pal sf buf i = some px) :
    (emitBgraPixel sf buf f.srcOver xstep i s).Good
      (fun _ => BusEffect (inRun (pixelAddr s.dstAddr xstep i) 4) s)
      (BusFault (inRun (pixelAddr s.dstAddr xstep i) 4)
        (fun a k => inRun (pixelAddr s.dstAddr xstep i) 4 a.toNat ∧
          (k = .write ∨ k = .read ∧ f.srcOver = true)) s) := by
  have hwrite : ∀ q : Pixel, (writeBytes (pixelAddr s.dstAddr xstep i) (pixelBytes q) s).Good
      (fun _ => BusEffect (inRun (pixelAddr s.dstAddr xstep i) 4) s)
      (BusFault (inRun (pixelAddr s.dstAddr xstep i) 4)
        (fun a k => inRun (pixelAddr s.dstAddr xstep i) 4 a.toNat ∧
          (k = .write ∨ k = .read ∧ f.srcOver = true)) s) := fun q =>
    (writeBytes_good _ _ _ _ fun b hb => hb).mono (fun _ _ h => h)
      fun u hu => hu.mono (fun _ h => h) fun a k hk => ⟨hk.2, .inl hk.1⟩
  unfold emitBgraPixel
  simp only [hpx]
  split
  · rename_i ho
    refine ((readPixel_good (inRun (pixelAddr s.dstAddr xstep i) 4) _ s).mono (fun _ _ h => h)
      fun u hu => hu.mono (fun _ h => h) fun a k hk => ⟨hk.2, .inr ⟨hk.1, ho⟩⟩).bind fun old u hu => ?_
    obtain ⟨rfl, -⟩ := hu
    exact hwrite _
  · exact hwrite px

/-- Everything a row emission can do under any format at all: it stores to its targets and changes
nothing else, or it ends at a refused access of its own; or the model stops. -/
theorem emitRow_sound (buf : List Byte) (w : Word) (f : Fmt) (xstep : Word) (s : State) :
    (emitRow buf w f xstep s).Sound
      (fun _ => BusEffect (emitTarget s.dstAddr w f xstep buf.length) s)
      (BusFault (emitTarget s.dstAddr w f xstep buf.length)
        (emitAccess s.dstAddr w f xstep buf.length) s) := by
  unfold emitRow
  split
  · rename_i sf df hsf hdf
    split
    · cases df
      · have ht : ∀ b, inRun s.dstAddr buf.length b → emitTarget s.dstAddr w f xstep buf.length b :=
          fun b hb => by simpa [emitTarget, hdf] using hb
        exact ((writeBytes_good _ _ _ _ ht).mono (fun _ _ h => h) fun u hu =>
          hu.mono (fun _ h => h) fun a k hk => ⟨ht _ hk.2, .inl hk.1⟩).sound
      · refine forRange_sound (P := BusEffect (emitTarget s.dstAddr w f xstep buf.length) s) _ _
          (fun i _ hi t ht => ?_) s (BusEffect.refl _ s)
        have htgt : ∀ b, inRun (pixelAddr t.dstAddr xstep i) 1 b →
            emitTarget s.dstAddr w f xstep buf.length b := by
          rintro b ⟨j, hj, rfl⟩
          simp only [emitTarget, hdf]
          refine ⟨i, by omega, ?_⟩
          rw [ht.dstAddr, show j = 0 by omega]
          simp
        unfold emitY8Pixel
        split
        · trivial
        · exact ((busWrite_good _ _ _ _ (htgt _ (inRun_head _ 0))).mono (fun _ u hu => ht.trans hu)
            fun u hu => (ht.fault hu).mono (fun _ h => h) fun a k hk => ⟨htgt _ hk.2, .inl hk.1⟩).sound
      · refine forRange_sound (P := BusEffect (emitTarget s.dstAddr w f xstep buf.length) s) _ _
          (fun i _ hi t ht => ?_) s (BusEffect.refl _ s)
        have htgt : ∀ b, inRun (pixelAddr t.dstAddr xstep i) 4 b →
            emitTarget s.dstAddr w f xstep buf.length b := by
          intro b hb
          simp only [emitTarget, hdf]
          exact ⟨i, by omega, by rw [← ht.dstAddr]; exact hb⟩
        cases hpx : toBgra t.pal sf buf i with
        | none =>
          unfold emitBgraPixel
          rw [hpx]
          trivial
        | some px =>
          exact ((emitBgraPixel_good hpx).mono (fun _ u hu => ht.trans (hu.mono htgt)) fun u hu =>
            ht.fault (hu.mono htgt fun a k hk => ⟨htgt _ hk.1, hk.2⟩)).sound
    · trivial
  · trivial

/-- A row whose format check_config admits, with all its bytes, is emitted without the model stopping. -/
theorem emitRow_never_stuck {buf : List Byte} {w : Word} {f : Fmt} {m : Nat} {g : Geometry}
    (hg : checkConfig w f m = .ok g) (hbuf : buf.length = g.rowBytes) (xstep : Word) (s : State) :
    (emitRow buf w f xstep s).Good (fun _ _ => True) (fun _ => True) := by
  obtain ⟨sf, df, hsf, hdf, had, -, rfl⟩ := checkConfig_ok hg
  have hl := srcFormatOf_legal hsf
  have tt : ∀ {α : Type} {r : Res α} {P : α → State → Prop} {Q : State → Prop}, r.Good P Q →
      r.Good (fun _ _ => True) (fun _ => True) := fun h => h.mono (fun _ _ _ => trivial) fun _ _ => trivial
  unfold emitRow
  simp only [hsf, hdf, had, if_true]
  cases df
  · exact tt (writeBytes_good (fun _ => True) _ _ _ fun _ _ => trivial)
  · refine forRange_good (P := fun _ => True) _ _ (fun i _ hi t _ => ?_) s trivial
    obtain ⟨y, hy⟩ := Option.isSome_iff_exists.1 (toY8_isSome hl hbuf (by omega : i < w.toNat))
    simp only [emitY8Pixel, hy]
    exact tt (busWrite_good (fun _ => True) _ _ _ trivial)
  · refine forRange_good (P := fun _ => True) _ _ (fun i _ hi t _ => ?_) s trivial
    obtain ⟨px, hpx⟩ := Option.isSome_iff_exists.1
      (toBgra_isSome (pal := t.pal) hl hbuf (by omega : i < w.toNat))
    exact tt (emitBgraPixel_good hpx)

theorem Res.Sound.good {α : Type} {r : Res α} {P : α → State → Prop} {Q : State → Prop}
    (h : r.Sound P Q) (hr : r.Good (fun _ _ => True) (fun _ => True)) : r.Good P Q := by
  cases r with
  | ok a s => exact h
  | ended s => exact h
  | stuck f => exact hr

/-- Everything a row emission can do under a good configuration. -/
theorem emitRow_good {buf : List Byte} {w : Word} {f : Fmt} {m : Nat} {g : Geometry}
    (hg : checkConfig w f m = .ok g) (hbuf : buf.length = g.rowBytes) (xstep : Word) (s : State) :
    (emitRow buf w f xstep s).Good
      (fun _ => BusEffect (emitTarget s.dstAddr w f xstep g.rowBytes) s)
      (BusFault (emitTarget s.dstAddr w f xstep g.rowBytes)
        (emitAccess s.dstAddr w f xstep g.rowBytes) s) := by
  have h := emitRow_sound buf w f xstep s
  rw [hbuf] at h
  exact h.good (emitRow_never_stuck hg hbuf xstep s)

/-- A row emission whose accesses are all admitted goes through. -/
theorem emitRow_ok {buf : List Byte} {w : Word} {f : Fmt} {m : Nat} {g : Geometry} {xstep : Word} {s : State}
    (hg : checkConfig w f m = .ok g) (hbuf : buf.length = g.rowBytes)
    (hadm : s.emissionAdmitted s.dstAddr w f xstep g.rowBytes) :
    ∃ t, emitRow buf w f xstep s = .ok () t ∧
      BusEffect (emitTarget s.dstAddr w f xstep g.rowBytes) s t := by
  obtain ⟨_, t, ht, he⟩ := (emitRow_good hg hbuf xstep s).completes fun t ht => ht.elim fun a k hk => by
    rcases hk.2 with rfl | ⟨rfl, ho⟩
    · exact (hadm a hk.1).1
    · exact (hadm a hk.1).2 ho
  exact ⟨t, ht, he⟩

/-- What a piece of pseudocode that goes through consists of. -/
theorem Res.bind_eq_ok {α β : Type} {r : Res α} {k : α → State → Res β} {b : β} {t : State}
    (h : r.bind k = .ok b t) : ∃ a u, r = .ok a u ∧ k a u = .ok b t := by
  cases r with
  | ok a u => exact ⟨a, u, rfl, h⟩
  | ended s => cases h
  | stuck f => cases h

/-- A byte that was stored was admitted. -/
theorem busWrite_admitted {a v s t} (h : busWrite a v s = .ok () t) : s.platform.admits a .write = true := by
  cases ha : s.platform.admits a .write
  · rw [busWrite_refused ha] at h; cases h
  · rfl

/-- Bytes that were stored were admitted. -/
theorem writeBytes_admitted {vs : List Byte} : ∀ {a : Addr} {s t : State}, writeBytes a vs s = .ok () t →
    t.platform = s.platform ∧ s.admitsRun .write a vs.length := by
  induction vs with
  | nil => intro a s t h; cases h; exact ⟨rfl, fun j hj => absurd hj (by simp)⟩
  | cons v vs ih =>
    intro a s t h
    unfold writeBytes at h
    obtain ⟨_, u, h1, h2⟩ := Res.bind_eq_ok h
    have ha := busWrite_admitted h1
    rw [busWrite_ok ha] at h1
    cases h1
    obtain ⟨h3, h4⟩ := ih h2
    exact ⟨h3, State.admitsRun_succ.2 ⟨ha, h4⟩⟩

/-- What holds of every iteration of a loop that goes through. -/
theorem forRange_each {body : Nat → State → Res Unit} {R : Nat → State → Prop}
    (hb : ∀ i s t, body i s = .ok () t → t.platform = s.platform ∧ t.dstAddr = s.dstAddr ∧ R i s)
   (hR : ∀ i s t, t.platform = s.platform → t.dstAddr = s.dstAddr → R i t → R i s) :
   ∀ (n i : Nat) (s t : State), forRange body i n s = .ok () t → ∀ j, i ≤ j → j < i + n → R j s := by
  intro n
  induction n with
  | zero => intro i s t h j h1 h2; omega
  | succ n ih =>
    intro i s t h j h1 h2
    unfold forRange at h
    obtain ⟨_, u, ha, hc⟩ := Res.bind_eq_ok h
    obtain ⟨hp, hd, hr⟩ := hb _ _ _ ha
    by_cases hj : j = i
    · subst hj; exact hr
    · exact hR _ _ _ hp hd (ih _ _ _ hc j (by omega) (by omega))

/-- The stores of a row emission that went through were admitted. -/
theorem emitRow_admitted {buf w f xstep s t} (h : emitRow buf w f xstep s = .ok () t) :
    ∀ a : Addr, emitTarget s.dstAddr w f xstep buf.length a.toNat → s.platform.admits a .write = true := by
  intro a ha
  unfold emitRow at h
  split at h
  · rename_i sf df hsf hdf
    split at h
    · cases df
      · simp only [emitTarget, hdf] at ha
        obtain ⟨j, hj, e⟩ := ha
        rw [BitVec.eq_of_toNat_eq e]
        exact (writeBytes_admitted h).2 j hj
      · simp only [emitTarget, hdf] at ha
        obtain ⟨i, hi, e⟩ := ha
        rw [BitVec.eq_of_toNat_eq e]
        refine forRange_each (R := fun i s => s.platform.admits (pixelAddr s.dstAddr xstep i) .write = true)
          ?_ ?_ _ _ _ _ h i (by omega) (by omega)
        · intro i s t hb
          unfold emitY8Pixel at hb
          split at hb
          · cases hb
          · have := busWrite_admitted hb
            rw [busWrite_ok this] at hb
            cases hb
            exact ⟨rfl, rfl, this⟩
        · intro i s t h1 h2 h3; rwa [h1, h2] at h3
      · simp only [emitTarget, hdf] at ha
        obtain ⟨i, hi, j, hj, e⟩ := ha
        rw [BitVec.eq_of_toNat_eq e]
        refine forRange_each (R := fun i s => s.admitsRun .write (pixelAddr s.dstAddr xstep i) 4)
          ?_ ?_ _ _ _ _ h i (by omega) (by omega) j hj
        · intro i s t hb
          have hd := fun px => emitBgraPixel_good (f := f) (sf := sf) (buf := buf) (xstep := xstep) (i := i)
            (s := s) (px := px)
          unfold emitBgraPixel at hb hd
          split at hb
          · cases hb
          · rename_i px hpx
            have hd := hd px hpx
            have hbe : BusEffect (inRun (pixelAddr s.dstAddr xstep i) 4) s t := by
              simp only [hpx] at hd
              rw [hb] at hd
              exact hd
            refine ⟨hbe.platform, hbe.dstAddr, ?_⟩
            split at hb
            · obtain ⟨old, u, h1, h2⟩ := Res.bind_eq_ok hb
              have := readPixel_good (fun _ => True) (pixelAddr s.dstAddr xstep i) s
              rw [h1] at this
              obtain ⟨rfl, -⟩ := this
              exact (writeBytes_admitted h2).2
            · exact (writeBytes_admitted hb).2
        · intro i s t h1 h2 h3; unfold State.admitsRun at *; rwa [h1, h2] at h3
    · cases h
  · cases h

end Sys2Proof.Machine
end

