-- ==== Sys2Proof/Laws/Access.lean ====
section
/-! SUPPORT. The bus accesses that a piece of pseudocode makes, in order, and the one that ends it. -/

namespace Sys2Proof.Machine

/-! ### Lists of accesses -/

@[simp] theorem Platform.firstRefused_nil (p : Platform) : p.firstRefused [] = none := rfl

theorem Platform.firstRefused_append (p : Platform) (l l' : List Access) :
    p.firstRefused (l ++ l') = (p.firstRefused l).or (p.firstRefused l') := List.find?_append

theorem Platform.firstRefused_cons (p : Platform) (c : Access) (l : List Access) :
    p.firstRefused (c :: l) = if p.admits c.1 c.2 = true then p.firstRefused l else some c := by
  unfold Platform.firstRefused
  cases h : p.admits c.1 c.2 <;> simp [h]

theorem Platform.firstRefused_eq_none {p : Platform} {l : List Access} :
    p.firstRefused l = none ↔ ∀ c ∈ l, p.admits c.1 c.2 = true := by
  simp [Platform.firstRefused]

theorem Platform.firstRefused_mem {p : Platform} {l : List Access} {c : Access}
    (h : p.firstRefused l = some c) : c ∈ l ∧ p.admits c.1 c.2 = false :=
  ⟨List.mem_of_find?_eq_some h, by simpa using List.find?_some h⟩

@[simp] theorem runAccesses_zero (k : AccessKind) (a : Addr) : runAccesses k a 0 = [] := rfl

theorem runAccesses_succ (k : AccessKind) (a : Addr) (n : Nat) :
    runAccesses k a (n + 1) = (a, k) :: runAccesses k (a + 1#32) n := by
  unfold runAccesses
  rw [List.range_succ_eq_map, List.map_cons, List.map_map]
  congr 1
  · simp
  · exact List.map_congr_left fun j _ => by rw [Function.comp_apply, Nat.succ_eq_add_one, addr_add_succ a j]

theorem runAccesses_add (k : AccessKind) (a : Addr) (m n : Nat) :
    runAccesses k a (m + n) = runAccesses k a m ++ runAccesses k (a + BitVec.ofNat 32 m) n := by
  unfold runAccesses
  rw [List.range_add, List.map_append, List.map_map]
  congr 1
  exact List.map_congr_left fun j _ => by
    rw [Function.comp_apply, BitVec.ofNat_add, BitVec.add_assoc]

/-- None of a run is refused exactly when the run is admitted. -/
theorem firstRefused_run {s : State} {k : AccessKind} {a : Addr} {n : Nat} :
    s.platform.firstRefused (runAccesses k a n) = none ↔ s.admitsRun k a n := by
  simp [Platform.firstRefused_eq_none, runAccesses, State.admitsRun]

/-! ### What a piece of pseudocode makes -/

/-- It makes the accesses of a list, in order: if it goes through, all were admitted; if it ends, then with
E_BUS at the first refused one. -/
def Makes {α : Type} (l : List Access) (s : State) (r : Res α) : Prop :=
  r.Sound (fun _ t => s.platform.firstRefused l = none ∧ t.platform = s.platform ∧ t.dstAddr = s.dstAddr)
    (fun t => ∃ c u, s.platform.firstRefused l = some c ∧ t = State.enterFault u .bus (some c.1))

theorem Makes.ok {α : Type} (a : α) (s : State) : Makes [] s (Res.ok a s) := ⟨rfl, rfl, rfl⟩

theorem Makes.bind {α β : Type} {l l' : List Access} {s : State} {r : Res α} {k : α → State → Res β}
    (h : Makes l s r)
    (hk : ∀ a t, r = .ok a t → t.platform = s.platform → t.dstAddr = s.dstAddr → Makes l' t (k a t)) :
    Makes (l ++ l') s (r.bind k) := by
  cases r with
  | ok a t =>
    obtain ⟨hl, hp, hd⟩ := h
    have h' := hk a t rfl hp hd
    unfold Makes at h' ⊢
    rw [Platform.firstRefused_append, hl]
    rw [hp, hd] at h'
    exact h'
  | ended t =>
    obtain ⟨c, u, hc, ht⟩ := h
    exact ⟨c, u, by rw [Platform.firstRefused_append, hc]; rfl, ht⟩
  | stuck f => trivial

theorem busRead_makes (a : Addr) (s : State) : Makes [(a, .read)] s (busRead a s) := by
  cases h : s.platform.admits a .read
  · rw [busRead_refused h]
    exact ⟨(a, .read), s, by simp [Platform.firstRefused_cons, h], rfl⟩
  · rw [busRead_ok h]
    exact ⟨by simp [Platform.firstRefused_cons, h], rfl, rfl⟩

theorem busWrite_makes (a : Addr) (v : Byte) (s : State) : Makes [(a, .write)] s (busWrite a v s) := by
  cases h : s.platform.admits a .write
  · rw [busWrite_refused h]
    exact ⟨(a, .write), s, by simp [Platform.firstRefused_cons, h], rfl⟩
  · rw [busWrite_ok h]
    exact ⟨by simp [Platform.firstRefused_cons, h], rfl, rfl⟩

theorem readBytes_makes (a : Addr) (n : Nat) (s : State) :
    Makes (runAccesses .read a n) s (readBytes a n s) := by
  induction n generalizing a s with
  | zero => exact Makes.ok _ s
  | succ n ih =>
    rw [runAccesses_succ]
    refine (busRead_makes a s).bind fun v t _ _ _ => ?_
    have := (ih (a + 1#32) t).bind (l' := []) (k := fun vs s => .ok (v :: vs) s)
      fun vs u _ _ _ => Makes.ok _ u
    rwa [List.append_nil] at this

theorem writeBytes_makes (a : Addr) (vs : List Byte) (s : State) :
    Makes (runAccesses .write a vs.length) s (writeBytes a vs s) := by
  induction vs generalizing a s with
  | nil => exact Makes.ok _ s
  | cons v vs ih =>
    rw [List.length_cons, runAccesses_succ]
    exact (busWrite_makes a v s).bind fun _ t _ _ _ => ih (a + 1#32) t

/-- A read of the four bytes at `a`. -/
theorem read4_makes {α : Type} (a : Addr) (s : State) (mk : Byte → Byte → Byte → Byte → α) :
    Makes (runAccesses .read a 4) s ((busRead a s).bind fun t0 s => (busRead (a + 1#32) s).bind fun t1 s =>
      (busRead (a + 2#32) s).bind fun t2 s => (busRead (a + 3#32) s).bind fun t3 s =>
        .ok (mk t0 t1 t2 t3) s) := by
  have hl : runAccesses .read a 4 = [(a, .read)] ++ ([(a + 1#32, .read)] ++ ([(a + 2#32, .read)] ++
      ([(a + 3#32, .read)] ++ []))) := by
    simp [runAccesses, List.range_succ]
  rw [hl]
  exact (busRead_makes _ s).bind fun _ t _ _ _ => (busRead_makes _ t).bind fun _ t _ _ _ =>
    (busRead_makes _ t).bind fun _ t _ _ _ => (busRead_makes _ t).bind fun _ t _ _ _ => Makes.ok _ t

theorem readPixel_makes (q : Addr) (s : State) : Makes (runAccesses .read q 4) s (readPixel q s) :=
  read4_makes q s Pixel.mk

theorem readTrailer_makes (a : Addr) (s : State) : Makes (runAccesses .read a 4) s (readTrailer a s) :=
  read4_makes a s fun t0 t1 t2 t3 => t0 ++ t1 ++ t2 ++ t3

/-- A loop makes the accesses of its rounds, one after another. -/
theorem forRange_makes {body : Nat → State → Res Unit} {l : Addr → Nat → List Access}
    (hb : ∀ i s, Makes (l s.dstAddr i) s (body i s)) (i n : Nat) (s : State) :
    Makes ((List.range' i n).flatMap (l s.dstAddr)) s (forRange body i n s) := by
  induction n generalizing i s with
  | zero => exact Makes.ok _ s
  | succ n ih =>
    rw [List.range'_succ, List.flatMap_cons]
    refine (hb i s).bind fun _ t _ _ hd => ?_
    rw [← hd]
    exact ih (i + 1) t

theorem pixelBytes_length (p : Pixel) : (pixelBytes p).length = 4 := rfl

theorem emitY8Pixel_makes (sf : SrcFormat) (buf : List Byte) (xstep : Word) (i : Nat) (s : State) :
    Makes [(pixelAddr s.dstAddr xstep i, .write)] s (emitY8Pixel sf buf xstep i s) := by
  unfold emitY8Pixel
  split
  · trivial
  · exact busWrite_makes _ _ _

theorem emitBgraPixel_makes (sf : SrcFormat) (buf : List Byte) (f : Fmt) (xstep : Word) (i : Nat) (s : State) :
    Makes (pixelAccesses f (pixelAddr s.dstAddr xstep i)) s (emitBgraPixel sf buf f.srcOver xstep i s) := by
  unfold emitBgraPixel
  cases toBgra s.pal sf buf i with
  | none => trivial
  | some px =>
    unfold pixelAccesses
    split
    · exact (readPixel_makes _ s).bind fun old t _ _ hd => by
        rw [← hd]
        exact writeBytes_makes _ (pixelBytes (Config.overFn old px)) t
    · exact writeBytes_makes _ (pixelBytes px) s

/-- A row emission makes its accesses in order, under any format at all. -/
theorem emitRow_makes (buf : List Byte) (w : Word) (f : Fmt) (xstep : Word) (s : State) :
    Makes (emissionAccesses s.dstAddr w f xstep buf.length) s (emitRow buf w f xstep s) := by
  unfold emitRow
  split
  · rename_i sf df _ hdf
    split
    · simp only [emissionAccesses, hdf]
      cases df
      · exact writeBytes_makes _ _ _
      · simp only [List.map_eq_flatMap, List.range_eq_range']
        exact forRange_makes (l := fun d i => [(pixelAddr d xstep i, .write)])
          (fun i t => emitY8Pixel_makes sf buf xstep i t) 0 w.toNat s
      · simp only [List.range_eq_range']
        exact forRange_makes (l := fun d i => pixelAccesses f (pixelAddr d xstep i))
          (fun i t => emitBgraPixel_makes sf buf f xstep i t) 0 w.toNat s
    · trivial
  · trivial

/-- An emission that check_config admits and that makes no refused access is admitted. -/
theorem emissionAdmitted_of_firstRefused {dst : Addr} {w : Word} {f : Fmt} {xstep : Word} {len m : Nat}
    {g : Geometry} {s : State} (hg : checkConfig w f m = .ok g)
    (h : s.platform.firstRefused (emissionAccesses dst w f xstep len) = none) :
    s.emissionAdmitted dst w f xstep len := by
  obtain ⟨sf, df, -, hdf, had, -⟩ := checkConfig_ok hg
  rw [Platform.firstRefused_eq_none] at h
  intro a ha
  simp only [emissionAccesses, hdf] at h
  simp only [emitTarget, hdf] at ha
  cases df
  · obtain ⟨j, hj, e⟩ := ha
    refine ⟨h (a, .write) ?_, fun ho => absurd had (by simp [admitted, ho])⟩
    rw [BitVec.eq_of_toNat_eq e]
    exact List.mem_map.2 ⟨j, by simpa using hj, rfl⟩
  · obtain ⟨i, hi, e⟩ := ha
    refine ⟨h (a, .write) ?_, fun ho => absurd had (by simp [admitted, ho])⟩
    rw [BitVec.eq_of_toNat_eq e]
    exact List.mem_map.2 ⟨i, by simpa using hi, rfl⟩
  · obtain ⟨i, hi, j, hj, e⟩ := ha
    rw [BitVec.eq_of_toNat_eq e]
    have hrun : ∀ k, (pixelAddr dst xstep i + BitVec.ofNat 32 j, k)
        ∈ runAccesses k (pixelAddr dst xstep i) 4 := fun k => List.mem_map.2 ⟨j, by simpa using hj, rfl⟩
    refine ⟨h (_, .write) ?_, fun ho => h (_, .read) ?_⟩
    · exact List.mem_flatMap.2 ⟨i, by simpa using hi, List.mem_append_right _ (hrun _)⟩
    · exact List.mem_flatMap.2 ⟨i, by simpa using hi, List.mem_append_left _ (by rw [if_pos ho]; exact hrun _)⟩

/-! ### Following accesses with their bytes -/

theorem follow_nil (s : State) : follow [] s = .ok () s := rfl

@[simp] theorem BusOp.apply_platform (o : BusOp) (s : State) : (o.apply s).platform = s.platform := by
  unfold BusOp.apply
  split <;> rfl

@[simp] theorem BusOp.apply_dstAddr (o : BusOp) (s : State) : (o.apply s).dstAddr = s.dstAddr := by
  unfold BusOp.apply
  split <;> rfl

@[simp] theorem BusOp.apply_pal (o : BusOp) (s : State) : (o.apply s).pal = s.pal := by
  unfold BusOp.apply
  split <;> rfl

/-- Following two lists is following one after the other. -/
theorem follow_append (l l' : List BusOp) (s : State) :
    follow (l ++ l') s = (follow l s).bind fun _ t => follow l' t := by
  induction l generalizing s with
  | nil => rfl
  | cons o l ih =>
    simp only [List.cons_append, follow]
    split
    · exact ih _
    · rfl

/-- Accesses that go through are all applied. -/
theorem follow_ok {l : List BusOp} {s t : State} (h : follow l s = .ok () t) :
    t = l.foldl (fun s o => o.apply s) s := by
  induction l generalizing s with
  | nil => cases h; rfl
  | cons o l ih =>
    simp only [follow] at h
    split at h
    · exact ih h
    · cases h

theorem readsMemory_append (l l' : List BusOp) (s : State) :
    readsMemory (l ++ l') s ↔ readsMemory l s ∧ readsMemory l' (l.foldl (fun s o => o.apply s) s) := by
  induction l generalizing s with
  | nil => simp [readsMemory]
  | cons o l ih => simp [readsMemory, ih, and_assoc]

/-- A run of writes follows its bytes. -/
theorem writeBytes_follow (a : Addr) (vs : List Byte) (s : State) :
    ∃ ops : List BusOp, ops.map BusOp.access = runAccesses .write a vs.length ∧
      ops.map BusOp.value = vs ∧ (∀ u, readsMemory ops u) ∧ writeBytes a vs s = follow ops s := by
  induction vs generalizing a s with
  | nil => exact ⟨[], rfl, rfl, fun _ => trivial, rfl⟩
  | cons v vs ih =>
    obtain ⟨ops, h1, h2, h3, h4⟩ := ih (a + 1#32) (BusOp.apply ⟨(a, .write), v⟩ s)
    refine ⟨⟨(a, .write), v⟩ :: ops, ?_, by simp [h2], fun u => ⟨fun h => (by cases h), h3 _⟩, ?_⟩
    · rw [List.map_cons, h1, List.length_cons, runAccesses_succ]
    · unfold writeBytes follow
      cases h : s.platform.admits a .write
      · rw [busWrite_refused h]
        rfl
      · rw [busWrite_ok h]
        exact h4

/-- The read of an old pixel follows its four bytes. -/
theorem readPixel_follow (q : Addr) (s : State) :
    ∃ (old : Pixel) (ops : List BusOp), ops.map BusOp.access = runAccesses .read q 4 ∧
      ops.map BusOp.value = pixelBytes old ∧ readsMemory ops s ∧ ops.foldl (fun s o => o.apply s) s = s ∧
      ∀ k : Pixel → State → Res Unit,
        (readPixel q s).bind k = (follow ops s).bind fun _ t => k old t := by
  refine ⟨⟨Memory.read s.mem q.toNat, Memory.read s.mem (q + 1#32).toNat, Memory.read s.mem (q + 2#32).toNat,
    Memory.read s.mem (q + 3#32).toNat⟩,
    [⟨(q, .read), Memory.read s.mem q.toNat⟩, ⟨(q + 1#32, .read), Memory.read s.mem (q + 1#32).toNat⟩,
      ⟨(q + 2#32, .read), Memory.read s.mem (q + 2#32).toNat⟩,
      ⟨(q + 3#32, .read), Memory.read s.mem (q + 3#32).toNat⟩], ?_, rfl, ?_, rfl, fun k => ?_⟩
  · simp [runAccesses, List.range_succ]
  · simp [readsMemory, BusOp.apply]
  · unfold readPixel follow follow follow follow
    cases h0 : s.platform.admits q .read
    · rw [busRead_refused h0]; rfl
    rw [busRead_ok h0, Res.bind_ok]
    cases h1 : s.platform.admits (q + 1#32) .read
    · rw [busRead_refused h1]; simp [BusOp.apply, h1]
    rw [busRead_ok h1, Res.bind_ok]
    cases h2 : s.platform.admits (q + 2#32) .read
    · rw [busRead_refused h2]; simp [BusOp.apply, h1, h2]
    rw [busRead_ok h2, Res.bind_ok]
    cases h3 : s.platform.admits (q + 3#32) .read
    · rw [busRead_refused h3]; simp [BusOp.apply, h1, h2, h3]
    rw [busRead_ok h3, Res.bind_ok]
    simp [BusOp.apply, h1, h2, h3, follow]

end Sys2Proof.Machine
end

