-- ==== Sys2Proof/Laws/Checksum.lean ====
section
/-! SUPPORT. The byte streams of CRC_MEM and ADLER_MEM, and everything a check of a trailer can do
(spec/40_checksum.md R108, R110, R113, R114). -/

namespace Sys2Proof.Machine

/-- A handler of bytes that neither reads nor writes the memory, SRC_ADDR or the platform. -/
structure StreamFeed (f : Byte → State → State) : Prop where
  mem : ∀ v s, (f v s).mem = s.mem
  srcAddr : ∀ v s, (f v s).srcAddr = s.srcAddr
  platform : ∀ v s, (f v s).platform = s.platform
  advance : ∀ v s n, f v (s.advanceSrc n) = (f v s).advanceSrc n

theorem feedCrc_stream : StreamFeed feedCrc := ⟨fun _ _ => rfl, fun _ _ => rfl, fun _ _ => rfl, fun _ _ _ => rfl⟩

theorem feedAdler_stream : StreamFeed feedAdler :=
  ⟨fun _ _ => rfl, fun _ _ => rfl, fun _ _ => rfl, fun _ _ _ => rfl⟩

theorem foldl_feedCrc (vs : List Byte) (s : State) :
    vs.foldl (fun s v => feedCrc v s) s = { s with crc := crc32 s.crc vs } := by
  induction vs generalizing s with
  | nil => rfl
  | cons v vs ih => rw [List.foldl_cons, ih]; rfl

theorem foldl_feedAdler (vs : List Byte) (s : State) :
    vs.foldl (fun s v => feedAdler v s) s = { s with adler := adler32 s.adler vs } := by
  induction vs generalizing s with
  | nil => rfl
  | cons v vs ih => rw [List.foldl_cons, ih]; rfl

theorem State.advanceSrc_add (s : State) (m n : Nat) : (s.advanceSrc m).advanceSrc n = s.advanceSrc (m + n) := by
  simp only [State.advanceSrc]
  rw [BitVec.add_assoc, ← BitVec.ofNat_add]

theorem StreamFeed.foldl_advance {f : Byte → State → State} (h : StreamFeed f) (vs : List Byte) (s : State)
    (n : Nat) : vs.foldl (fun s v => f v s) (s.advanceSrc n) = (vs.foldl (fun s v => f v s) s).advanceSrc n := by
  induction vs generalizing s with
  | nil => rfl
  | cons v vs ih => simp only [List.foldl_cons]; rw [h.advance, ih]

theorem StreamFeed.foldl_keeps {f : Byte → State → State} (h : StreamFeed f) (vs : List Byte) (s : State) :
    (vs.foldl (fun s v => f v s) s).srcAddr = s.srcAddr ∧
      (vs.foldl (fun s v => f v s) s).platform = s.platform := by
  induction vs generalizing s with
  | nil => exact ⟨rfl, rfl⟩
  | cons v vs ih =>
    simp only [List.foldl_cons]
    rw [(ih _).1, (ih _).2]
    exact ⟨h.srcAddr _ _, h.platform _ _⟩

/-- A stream whose bytes are all admitted. -/
theorem StreamFeed.streamBytes_ok {f : Byte → State → State} (h : StreamFeed f) {n : Nat} {s : State}
    (ha : s.admitsRun .read s.srcAddr n) :
    streamBytes (fun v s => .ok () (f v s)) n s
      = .ok () (((s.bytesFrom s.srcAddr n).foldl (fun s v => f v s) s).advanceSrc n) := by
  induction n generalizing s with
  | zero => simp [streamBytes, State.bytesFrom_zero, State.advanceSrc]
  | succ n ih =>
    obtain ⟨h0, h1⟩ := State.admitsRun_succ.1 ha
    rw [streamBytes, busRead_ok h0, Res.bind_ok, Res.bind_ok, ih, State.bytesFrom_succ, List.foldl_cons]
    · generalize Memory.read s.mem s.srcAddr.toNat = v
      have hb : ((f v s).advanceSrc 1).bytesFrom ((f v s).advanceSrc 1).srcAddr n
          = s.bytesFrom (s.srcAddr + 1#32) n := by
        simp [State.advanceSrc, State.bytesFrom, h.mem, h.srcAddr]
      rw [hb, h.foldl_advance, State.advanceSrc_add, Nat.add_comm]
    · intro j hj
      simpa [State.advanceSrc, h.srcAddr, h.platform] using h1 j hj

/-- A stream that ends at its byte `n`, the first whose read is refused. -/
theorem StreamFeed.streamBytes_refused {f : Byte → State → State} (h : StreamFeed f) {len n : Nat} {s : State}
    (hn : n < len) (ha : s.admitsRun .read s.srcAddr n)
    (hr : s.platform.admits (s.srcAddr + BitVec.ofNat 32 n) .read = false) :
    streamBytes (fun v s => .ok () (f v s)) len s
      = raise .bus (some (s.srcAddr + BitVec.ofNat 32 n))
          (((s.bytesFrom s.srcAddr n).foldl (fun s v => f v s) s).advanceSrc n) := by
  obtain ⟨k, rfl⟩ : ∃ k, len = n + (k + 1) := ⟨len - n - 1, by omega⟩
  rw [streamBytes_add, h.streamBytes_ok ha, Res.bind_ok]
  obtain ⟨h1, h2⟩ := h.foldl_keeps (s.bytesFrom s.srcAddr n) s
  generalize (s.bytesFrom s.srcAddr n).foldl (fun s v => f v s) s = u at h1 h2
  have hu : (u.advanceSrc n).srcAddr = s.srcAddr + BitVec.ofNat 32 n := by simp [State.advanceSrc, h1]
  rw [streamBytes, busRead_refused (by rw [hu]; simpa [State.advanceSrc, h2] using hr), hu]
  rfl

/-- A run of reads that ends at its byte `m`, the first that is refused. -/
theorem readBytes_refused {a : Addr} {n m : Nat} {s : State} (hm : m < n) (ha : s.admitsRun .read a m)
    (hr : s.platform.admits (a + BitVec.ofNat 32 m) .read = false) :
    readBytes a n s = raise .bus (some (a + BitVec.ofNat 32 m)) s := by
  induction n generalizing a m with
  | zero => omega
  | succ n ih =>
    unfold readBytes
    cases m with
    | zero =>
      simp only [BitVec.add_zero] at hr ⊢
      rw [busRead_refused hr, Res.bind_raise]
    | succ m =>
      obtain ⟨h0, h1⟩ := State.admitsRun_succ.1 ha
      rw [addr_add_succ a m] at hr ⊢
      rw [busRead_ok h0, Res.bind_ok, ih (by omega) h1 hr, Res.bind_raise]

/-- A trailer whose byte `n` is the first that is refused. -/
theorem readTrailer_refused {a : Addr} {s : State} {n : Nat} (hn : n < 4) (h : s.admitsRun .read a n)
    (hr : s.platform.admits (a + BitVec.ofNat 32 n) .read = false) :
    readTrailer a s = raise .bus (some (a + BitVec.ofNat 32 n)) s := by
  have h' : ∀ j, j < n → s.platform.admits (a + BitVec.ofNat 32 j) .read = true := h
  have h0 : 0 < n → s.platform.admits a .read = true := fun hp => by simpa using h' 0 hp
  unfold readTrailer
  rcases n with _ | _ | _ | _ | n
  · simp only [BitVec.add_zero] at hr
    rw [busRead_refused hr]; simp
  · rw [busRead_ok (h0 (by omega)), Res.bind_ok, busRead_refused hr]; simp
  · rw [busRead_ok (h0 (by omega)), Res.bind_ok, busRead_ok (h' 1 (by omega)), Res.bind_ok,
      busRead_refused hr]; simp
  · rw [busRead_ok (h0 (by omega)), Res.bind_ok, busRead_ok (h' 1 (by omega)), Res.bind_ok,
      busRead_ok (h' 2 (by omega)), Res.bind_ok, busRead_refused hr]; simp
  · omega

/-- Everything a check of an admitted trailer does. -/
theorem checkTrailer_admitted {running : State → Word} {setMatch : State → Bool → State} {code : ErrCode}
    {k : Bool} {s : State} (h : s.admitsRun .read s.srcAddr 4) :
    checkTrailer running setMatch code k s =
      if s.trailerAt s.srcAddr = running s then .ok () ((setMatch s true).advanceSrc 4)
      else if mismatchFatal k s.ctrl then raise code (some s.srcAddr) (setMatch s false)
      else .ok () ((setMatch s false).setChkLog.advanceSrc 4) := by
  unfold checkTrailer
  rw [readTrailer_ok h, Res.bind_ok]

end Sys2Proof.Machine
end

