-- ==== Sys2Proof/Laws/Decode.lean ====
section
/-! SUPPORT. Small facts about words, opcodes and the decoder. -/

namespace Sys2Proof

/-- An opcode and an operand field as one number. -/
theorem word_toNat (op : Byte) (x : BitVec 24) : (op ++ x : Word).toNat = op.toNat * 2 ^ 24 + x.toNat := by
  have h := BitVec.toNat_append op x
  rw [← Nat.shiftLeft_add_eq_or_of_lt x.isLt, Nat.shiftLeft_eq] at h
  exact h

theorem encode_toNat (i : Instr) :
    (encode i).toNat = i.opcode.number.toNat * 2 ^ 24 + i.operandField.toNat := word_toNat _ _

theorem opField_toNat (w : Word) : (opField w).toNat = w.toNat / 2 ^ 24 := by
  have := w.isLt
  simp only [opField, BitVec.extractLsb'_toNat, Nat.shiftRight_eq_div_pow]
  omega

/-- Every defined opcode is found by its number. -/
theorem opcodeOf_number (o : Opcode) : opcodeOf o.number = some o := by cases o <;> rfl

theorem opcodeOf_some {op : Byte} {o : Opcode} (h : opcodeOf op = some o) : o.number = op := by
  simpa using List.find?_some h

theorem opcodeOf_none {op : Byte} (h : opcodeOf op = none) (o : Opcode) : o.number ≠ op := fun ho => by
  rw [← ho, opcodeOf_number] at h
  exact absurd h (by simp)

/-- What it is to decode to a command (30_encoding.md R83, R86). -/
theorem decode_ok {w : Word} {i : Instr} :
    decode w = .ok i ↔ ∃ o : Opcode, o.number = opField w ∧ w &&& o.form.mask = o.word ∧ o.instr w = i := by
  unfold decode
  constructor
  · intro h
    split at h
    · simp at h
    · rename_i o ho
      split at h
      · exact ⟨o, opcodeOf_some ho, ‹_›, by simpa using h⟩
      · simp at h
  · rintro ⟨o, ho, hm, rfl⟩
    rw [← ho, opcodeOf_number]
    simp [hm]

@[simp] theorem Opcode.opcode_instr (o : Opcode) (w : Word) : (o.instr w).opcode = o := by cases o <;> rfl

/-- A command read back from its own word. -/
theorem instr_encode (i : Instr) : i.opcode.instr (encode i) = i := by
  have hk : ∀ k : Bool, ∀ op : Byte, kField (op ++ (BitVec.ofBool k).setWidth 24 : Word) = k := fun k op => by
    have h : kField (op ++ (BitVec.ofBool k).setWidth 24 : Word)
        = Nat.testBit (op ++ (BitVec.ofBool k).setWidth 24 : Word).toNat 0 := rfl
    rw [h, word_toNat]
    cases k <;> simp [Nat.testBit, Nat.add_mod, Nat.mul_mod]
  cases i <;>
    simp only [Instr.opcode, Opcode.instr, Instr.crcByte.injEq, Instr.crcMem.injEq, Instr.crcCheck.injEq,
      Instr.adlerByte.injEq, Instr.adlerMem.injEq, Instr.adlerCheck.injEq, Instr.unfilterByte.injEq,
      Instr.unfilter.injEq, Instr.palLoad.injEq]
  case crcCheck k => exact hk k _
  case adlerCheck k => exact hk k _
  all_goals
    apply BitVec.eq_of_toNat_eq
    simp only [imm8Field, lenField, nField, BitVec.extractLsb'_toNat, encode_toNat, Instr.operandField,
      BitVec.toNat_setWidth, Nat.shiftRight_zero]
    omega

/-- The opcode field of a word of an opcode and an operand field. -/
theorem opField_append (op : Byte) (x : BitVec 24) : opField (op ++ x) = op := by
  apply BitVec.eq_of_toNat_eq
  rw [opField_toNat, word_toNat]
  omega

end Sys2Proof
end

