-- ==== Sys2Proof/Laws/Filter.lean ====
section
/-! SUPPORT. Everything a byte can do in the filter unit (spec/41_filter.md R144 to R153), said once. -/

namespace Sys2Proof.Machine

/-- The target of the emission of the row in progress. -/
def State.rowTarget (s : State) : Nat → Prop :=
  emitTarget s.dstAddr s.latch.width s.latch.fmt s.latch.xstep s.latch.rowBytes

/-- The accesses of the emission of the row in progress. -/
def State.rowAccess (s : State) : Addr → AccessKind → Prop :=
  emitAccess s.dstAddr s.latch.width s.latch.fmt s.latch.xstep s.latch.rowBytes

/-- The filter unit can take a payload byte: the latches are good, F_X stands inside the row, and every
byte the row's prediction reads has been written. -/
structure State.RowReady (s : State) : Prop where
  latch : s.LatchGood
  fits : s.platform.maxRowBytes < 2 ^ 32
  pos : s.filt.x.toNat < s.latch.rowBytes
  cur : ∀ j < s.filt.x.toNat, (RowBuf.get s.cur j).isSome
  prev : s.filt.first = false → ∀ j < s.latch.rowBytes, (RowBuf.get s.prev j).isSome

theorem State.LatchGood.rowBytes_le {s : State} (h : s.LatchGood) :
    s.latch.rowBytes ≤ s.platform.maxRowBytes := by
  obtain ⟨sf, df, -, -, -, hle, hg⟩ := checkConfig_ok h
  simp only [Geometry.mk.injEq] at hg
  omega

theorem State.LatchGood.dist_pos {s : State} (h : s.LatchGood) : 1 ≤ s.latch.dist := by
  obtain ⟨sf, df, -, -, -, -, hg⟩ := checkConfig_ok h
  simp only [Geometry.mk.injEq, filterDistance] at hg
  omega

theorem neighbourA_some {cur : List Host.Cell} {x d : Nat} (hd : 1 ≤ d)
    (h : ∀ j < x, (RowBuf.get cur j).isSome) : ∃ a, neighbourA cur x d = some a := by
  unfold neighbourA
  split
  · exact Option.isSome_iff_exists.1 (h _ (by omega))
  · exact ⟨_, rfl⟩

theorem neighbourB_some {prev : List Host.Cell} {first : Bool} {x n : Nat} (hx : x < n)
    (h : first = false → ∀ j < n, (RowBuf.get prev j).isSome) : ∃ b, neighbourB prev first x = some b := by
  unfold neighbourB
  split
  · exact ⟨_, rfl⟩
  · exact Option.isSome_iff_exists.1 (h (by simpa using ‹¬first = true›) x hx)

theorem neighbourC_some {prev : List Host.Cell} {first : Bool} {x d n : Nat} (hx : x < n)
    (h : first = false → ∀ j < n, (RowBuf.get prev j).isSome) :
    ∃ c, neighbourC prev first x d = some c := by
  unfold neighbourC
  split
  · exact ⟨_, rfl⟩
  · rename_i hf
    simp only [Bool.or_eq_true, decide_eq_true_eq, not_or, Bool.not_eq_true] at hf
    exact Option.isSome_iff_exists.1 (h hf.1 _ (by omega))

/-- F_X after a stored payload byte. -/
theorem x_succ_toNat {s : State} (h : s.RowReady) : (s.filt.x + 1#32).toNat = s.filt.x.toNat + 1 := by
  have h1 := h.pos
  have h2 := h.latch.rowBytes_le
  have h3 := h.fits
  rw [BitVec.toNat_add]
  simp only [BitVec.toNat_ofNat]
  omega

/-- The row is complete in CUR once its last byte is stored. -/
theorem storePayload_slice {s : State} (h : s.RowReady) (out : Byte)
    (hx : s.filt.x.toNat + 1 = s.latch.rowBytes) :
    ∃ row, RowBuf.slice (storePayload out s).cur 0 s.latch.rowBytes = some row ∧
      row.length = s.latch.rowBytes := by
  have hs : (RowBuf.slice (storePayload out s).cur 0 s.latch.rowBytes).isSome := by
    refine (RowBuf.slice_isSome _ _ _).2 fun j hj => ?_
    rw [storePayload_cur, RowBuf.get_put, Nat.zero_add]
    split
    · rfl
    · exact h.cur j (by omega)
  obtain ⟨row, hrow⟩ := Option.isSome_iff_exists.1 hs
  exact ⟨row, hrow, (RowBuf.slice_spec hrow).1⟩

/-- Everything a payload byte can do: the reconstructed byte is stored, and if it is the row's last the
row is emitted and finished, or its emission ends at a refused access. -/
theorem payloadByte_good {s : State} (h : s.RowReady) (v : Byte) :
    ∃ a b c, neighbourA s.cur s.filt.x.toNat s.latch.dist = some a ∧
      neighbourB s.prev s.filt.first s.filt.x.toNat = some b ∧
      neighbourC s.prev s.filt.first s.filt.x.toNat s.latch.dist = some c ∧
      (payloadByte v s).Good
        (fun _ t =>
          (s.filt.x.toNat + 1 < s.latch.rowBytes ∧
            t = storePayload (reconstruct s.filt.ftype v a b c) s) ∨
          (s.filt.x.toNat + 1 = s.latch.rowBytes ∧ ∃ row u,
            RowBuf.slice (storePayload (reconstruct s.filt.ftype v a b c) s).cur 0 s.latch.rowBytes = some row ∧
            BusEffect s.rowTarget (storePayload (reconstruct s.filt.ftype v a b c) s) u ∧
            t = finishRow row u))
        (fun t => s.filt.x.toNat + 1 = s.latch.rowBytes ∧
          BusFault s.rowTarget s.rowAccess (storePayload (reconstruct s.filt.ftype v a b c) s) t) := by
  obtain ⟨a, ha⟩ := neighbourA_some h.latch.dist_pos h.cur
  obtain ⟨b, hb⟩ := neighbourB_some h.pos h.prev
  obtain ⟨c, hc⟩ := neighbourC_some (d := s.latch.dist) h.pos h.prev
  refine ⟨a, b, c, ha, hb, hc, ?_⟩
  have hpos := h.pos
  have hmax : s.filt.x.toNat < s.platform.maxRowBytes := Nat.lt_of_lt_of_le hpos h.latch.rowBytes_le
  unfold payloadByte
  simp only [ha, hb, hc, hmax, if_true, storePayload_filt, storePayload_latch, x_succ_toNat h]
  split
  · rename_i hx
    obtain ⟨row, hrow, hlen⟩ := storePayload_slice h (reconstruct s.filt.ftype v a b c) hx
    have hend : rowEnd (storePayload (reconstruct s.filt.ftype v a b c) s)
        = (emitRow row s.latch.width s.latch.fmt s.latch.xstep
            (storePayload (reconstruct s.filt.ftype v a b c) s)).bind fun _ u => .ok () (finishRow row u) := by
      unfold rowEnd
      simp only [storePayload_latch, hrow]
    have hl : checkConfig s.latch.width s.latch.fmt s.platform.maxRowBytes
        = .ok ⟨s.latch.rowBytes, s.latch.dist, s.latch.bpp⟩ := h.latch
    have hemit := emitRow_good hl hlen s.latch.xstep (storePayload (reconstruct s.filt.ftype v a b c) s)
    rw [hend]
    exact (hemit.mono (fun _ _ hu => hu) fun t ht => ⟨hx, ht⟩).bind fun _ u hu =>
      .inr ⟨hx, row, u, hrow, hu, rfl⟩
  · rename_i hx
    exact .inl ⟨by omega, rfl⟩

/-- Everything a payload byte can do in any state at all, but stop. -/
theorem payloadByte_sound (v : Byte) (s : State) :
    (payloadByte v s).Sound
      (fun _ t => ∃ out,
        ((s.filt.x + 1#32).toNat ≠ s.latch.rowBytes ∧ t = storePayload out s) ∨
        ((s.filt.x + 1#32).toNat = s.latch.rowBytes ∧ ∃ row u, row.length = s.latch.rowBytes ∧
          BusEffect s.rowTarget (storePayload out s) u ∧ t = finishRow row u))
      (fun t => (s.filt.x + 1#32).toNat = s.latch.rowBytes ∧
        ∃ out, BusFault s.rowTarget s.rowAccess (storePayload out s) t) := by
  unfold payloadByte
  split
  · rename_i a b c _ _ _
    split
    · by_cases hx : (storePayload (reconstruct s.filt.ftype v a b c) s).filt.x.toNat
          = (storePayload (reconstruct s.filt.ftype v a b c) s).latch.rowBytes
      · simp only [if_pos hx]
        unfold rowEnd
        split
        · trivial
        · rename_i row hrow
          rw [storePayload_latch] at hrow
          have hlen := (RowBuf.slice_spec hrow).1
          have he := emitRow_sound row s.latch.width s.latch.fmt s.latch.xstep
            (storePayload (reconstruct s.filt.ftype v a b c) s)
          rw [hlen] at he
          exact (he.mono (fun _ _ hu => hu) fun t ht => ⟨hx, _, ht⟩).bind fun _ u hu =>
            ⟨_, .inr ⟨hx, row, u, hlen, hu, rfl⟩⟩
      · simp only [if_neg hx]
        exact ⟨_, .inl ⟨hx, rfl⟩⟩
    · trivial
  · trivial

/-! ### The cases of a byte -/

theorem acceptByte_idle {s : State} (h : s.filt.phase = .idle) (v : Byte) (a : Option Addr) :
    acceptByte v a s = raise .noPass a s := by simp [acceptByte, h]

theorem acceptByte_done {s : State} (h : s.filt.phase = .done) (v : Byte) (a : Option Addr) :
    acceptByte v a s = raise .passOverrun a s := by simp [acceptByte, h]

theorem acceptByte_await {s : State} (h : s.filt.phase = .awaitFilter) (v : Byte) (a : Option Addr) :
    acceptByte v a s = match filterTypeOf v with
      | none => raise .badFilter a s
      | some f => .ok () (startRow f s) := by
  cases hv : filterTypeOf v <;> simp [acceptByte, h, hv]

theorem acceptByte_inRow {s : State} (h : s.filt.phase = .inRow) (v : Byte) (a : Option Addr) :
    acceptByte v a s = payloadByte v s := by simp [acceptByte, h]

theorem filterTypeOf_some {v : Byte} (h : v ≤ 4#8) : ∃ f, filterTypeOf v = some f := by
  have hv : v.toNat ≤ 4 := h
  unfold filterTypeOf
  repeat (split; · exact ⟨_, rfl⟩)
  rename_i h0 h1 h2 h3 h4
  exfalso
  have : v.toNat ≠ 0 ∧ v.toNat ≠ 1 ∧ v.toNat ≠ 2 ∧ v.toNat ≠ 3 ∧ v.toNat ≠ 4 := by
    refine ⟨?_, ?_, ?_, ?_, ?_⟩ <;> intro hh <;>
      first
        | exact h0 (BitVec.eq_of_toNat_eq hh)
        | exact h1 (BitVec.eq_of_toNat_eq hh)
        | exact h2 (BitVec.eq_of_toNat_eq hh)
        | exact h3 (BitVec.eq_of_toNat_eq hh)
        | exact h4 (BitVec.eq_of_toNat_eq hh)
  omega

theorem filterTypeOf_none {v : Byte} (h : 4#8 < v) : filterTypeOf v = none := by
  have hv : 4 < v.toNat := h
  unfold filterTypeOf
  repeat (split; · rename_i hh; subst hh; simp at hv)
  rfl

end Sys2Proof.Machine
end

