-- ==== Sys2Proof/Laws/Inv.lean ====
section
/-! SUPPORT. What the shared operations keep of the engine's invariant. -/

namespace Sys2Proof.Machine

/-- Bus writes keep it. -/
theorem engineInv_busEffect {A : Nat → Prop} {s t : State} (h : EngineInv s) (e : BusEffect A s t) :
    EngineInv t := by
  have hm := e.wf h.mem
  rw [e.frame] at *
  exact ⟨hm, h.cur, h.prev, h.platform, h.latch, h.live, h.rowCount, h.first, h.posZero, h.pos, h.posLive,
    h.curWritten, h.prevWritten, h.noFault, h.faultCode, h.faultAddr⟩

/-- It does not depend on which fault was entered. -/
theorem engineInv_fault_any {s : State} (c : ErrCode) (a : Option Addr)
    (h : EngineInv (s.enterFault .badCmd none)) :
    EngineInv (s.enterFault c a) where
  mem := h.mem
  cur := h.cur
  prev := h.prev
  platform := h.platform
  latch := h.latch
  live := h.live
  rowCount := h.rowCount
  first := h.first
  posZero := h.posZero
  pos := h.pos
  posLive := by simp
  curWritten := h.curWritten
  prevWritten := h.prevWritten
  noFault := by simp
  faultCode := fun _ => ⟨c, rfl⟩
  faultAddr := by cases a <;> simp

/-- A fault keeps it. -/
theorem engineInv_fault {s : State} (h : EngineInv s) : EngineInv (s.enterFault .badCmd none) where
  mem := h.mem
  cur := h.cur
  prev := h.prev
  platform := h.platform
  latch := h.latch
  live := h.live
  rowCount := h.rowCount
  first := h.first
  posZero := h.posZero
  pos := h.pos
  posLive := by simp
  curWritten := h.curWritten
  prevWritten := h.prevWritten
  noFault := by simp
  faultCode := fun _ => ⟨.badCmd, rfl⟩
  faultAddr := by simp

/-- Fault entry keeps it. -/
theorem engineInv_enterFault {s : State} (c : ErrCode) (a : Option Addr) (h : EngineInv s) :
    EngineInv (s.enterFault c a) :=
  engineInv_fault_any c a (engineInv_fault h)

/-- Bus writes and then a refused access keep it; only what holds of a halted engine is needed. -/
theorem engineInv_busFault {A : Nat → Prop} {R : Addr → AccessKind → Prop} {s t : State}
    (h : EngineInv (s.enterFault .badCmd none)) (e : BusFault A R s t) : EngineInv t := by
  obtain ⟨u, a, k, hu, -, -, rfl⟩ := e
  have : BusEffect A (s.enterFault .badCmd none) (u.enterFault .badCmd none) := by
    refine ⟨?_, hu.log⟩
    conv_lhs => rw [hu.frame]
    rfl
  exact engineInv_fault_any _ _ (engineInv_busEffect h this)

/-- Fields that it does not read. -/
theorem engineInv_congr {s t : State} (h : EngineInv s) (h1 : t.mem = s.mem) (h2 : t.cur = s.cur) (h3 : t.prev = s.prev)
    (h4 : t.platform = s.platform) (h5 : t.latch = s.latch) (h6 : t.filt = s.filt)
    (h7 : t.status.err = s.status.err) (h8 : t.status.errCode = s.status.errCode)
    (h9 : t.status.errAddrValid = s.status.errAddrValid) (h10 : t.errAddr = s.errAddr) : EngineInv t where
  mem := by rw [h1]; exact h.mem
  cur := by rw [h2, h4]; exact h.cur
  prev := by rw [h3, h4]; exact h.prev
  platform := by rw [h4]; exact h.platform
  latch := by unfold State.LatchGood; rw [h4, h5, h6]; exact h.latch
  live := by rw [h5, h6]; exact h.live
  rowCount := by rw [h5, h6]; exact h.rowCount
  first := by rw [h6]; exact h.first
  posZero := by rw [h6]; exact h.posZero
  pos := by rw [h5, h6]; exact h.pos
  posLive := by rw [h5, h6, h7]; exact h.posLive
  curWritten := by rw [h2, h6]; exact h.curWritten
  prevWritten := by rw [h3, h5, h6]; exact h.prevWritten
  noFault := by rw [h7, h8, h9, h10]; exact h.noFault
  faultCode := by rw [h7, h8]; exact h.faultCode
  faultAddr := by rw [h9, h10]; exact h.faultAddr

/-- In a row without a fault, the filter unit can take a payload byte. -/
theorem engineInv_rowReady {s : State} (h : EngineInv s) (he : s.status.err = false) (hp : s.filt.phase = .inRow) :
    s.RowReady where
  latch := h.latch (by simp [hp])
  fits := h.platform.2
  pos := h.posLive hp he
  cur := h.curWritten hp
  prev := h.prevWritten

/-- A filter-type byte keeps it. -/
theorem engineInv_startRow {s : State} (h : EngineInv s) (hp : s.filt.phase = .awaitFilter) (f : FilterType) :
    EngineInv (startRow f s) := by
  have hl := h.live (.inl hp)
  have hrb : 0 < s.latch.rowBytes := by
    obtain ⟨sf, df, hsf, -, -, -, hg⟩ := checkConfig_ok (h.latch (by simp [hp]))
    simp only [Geometry.mk.injEq, rowLength] at hg
    have hw : 0 < s.latch.width.toNat := by
      rcases Nat.eq_zero_or_pos s.latch.width.toNat with h0 | h0
      · exact absurd (BitVec.eq_of_toNat_eq h0) hl.1
      · exact h0
    have hb : 1 ≤ sf.bpp := by
      obtain ⟨ct, d⟩ := sf
      cases ct <;> cases d <;> decide
    rw [hg.1]
    have := Nat.mul_le_mul hw hb
    omega
  exact {
    mem := h.mem
    cur := h.cur
    prev := h.prev
    platform := h.platform
    latch := fun _ => h.latch (by simp [hp])
    live := fun _ => hl
    rowCount := h.rowCount
    first := h.first
    posZero := by simp
    pos := by simp
    posLive := fun _ _ => by simpa using hrb
    curWritten := by simp
    prevWritten := h.prevWritten
    noFault := h.noFault
    faultCode := h.faultCode
    faultAddr := h.faultAddr }

/-- A stored payload byte keeps what holds of a halted engine. -/
theorem engineInv_storePayload_fault {s : State} (h : EngineInv s) (hr : s.RowReady) (hp : s.filt.phase = .inRow)
    (out : Byte) : EngineInv ((storePayload out s).enterFault .badCmd none) where
  mem := h.mem
  cur := RowBuf.wf_put _ (Nat.lt_of_lt_of_le hr.pos hr.latch.rowBytes_le) h.cur
  prev := h.prev
  platform := h.platform
  latch := h.latch
  live := h.live
  rowCount := h.rowCount
  first := h.first
  posZero := fun hn => absurd hp hn
  pos := fun _ => by
    simp only [State.enterFault_filt, storePayload_filt, State.enterFault_latch, storePayload_latch, x_succ_toNat hr]
    exact hr.pos
  posLive := by simp
  curWritten := fun _ j hj => by
    simp only [State.enterFault_filt, storePayload_filt, x_succ_toNat hr] at hj
    simp only [State.enterFault_cur, storePayload_cur, RowBuf.get_put]
    split
    · rfl
    · exact hr.cur j (by omega)
  prevWritten := h.prevWritten
  noFault := by simp
  faultCode := fun _ => ⟨.badCmd, rfl⟩
  faultAddr := by simp

/-- A stored payload byte before the row's last keeps it. -/
theorem engineInv_storePayload {s : State} (h : EngineInv s) (hr : s.RowReady) (hp : s.filt.phase = .inRow) (out : Byte)
    (hx : s.filt.x.toNat + 1 < s.latch.rowBytes) : EngineInv (storePayload out s) :=
  have w := engineInv_storePayload_fault h hr hp out
  { mem := h.mem
    cur := w.cur
    prev := h.prev
    platform := h.platform
    latch := h.latch
    live := h.live
    rowCount := h.rowCount
    first := h.first
    posZero := w.posZero
    pos := w.pos
    posLive := fun _ _ => by
      simp only [storePayload_filt, storePayload_latch, x_succ_toNat hr]; exact hx
    curWritten := w.curWritten
    prevWritten := h.prevWritten
    noFault := h.noFault
    faultCode := h.faultCode
    faultAddr := h.faultAddr }

/-- A completed row keeps it. -/
theorem engineInv_finishRow {s u : State} {row : List Byte} {out : Byte} {A : Nat → Prop}
    (h : EngineInv s) (hr : s.RowReady) (hp : s.filt.phase = .inRow) (hlen : row.length = s.latch.rowBytes)
    (hu : BusEffect A (storePayload out s) u) : EngineInv (finishRow row u) := by
  have w := engineInv_storePayload_fault h hr hp out
  have hm := hu.wf w.mem
  have hlive := h.live (.inr hp)
  have hrow : (s.filt.row + 1#32).toNat = s.filt.row.toNat + 1 := by
    rw [BitVec.toNat_add]; simp only [BitVec.toNat_ofNat]
    have := s.latch.rows.isLt
    omega
  rw [hu.frame]
  exact {
    mem := hm
    cur := w.cur
    prev := RowBuf.wf_putRow (by rw [hlen, Nat.zero_add]; exact hr.latch.rowBytes_le) h.prev
    platform := h.platform
    latch := fun _ => h.latch (by simp [hp])
    live := fun hph => by
      refine ⟨hlive.1, ?_⟩
      simp only [finishRow_filt_phase, finishRow_filt_row, finishRow_latch, storePayload_latch,
        storePayload_filt] at hph ⊢
      split at hph
      · simp at hph
      · rename_i hne
        rw [hrow]
        have : (s.filt.row + 1#32).toNat ≠ s.latch.rows.toNat := fun he => hne (BitVec.eq_of_toNat_eq he)
        rw [hrow] at this
        omega
    rowCount := by
      simp only [finishRow_filt_row, finishRow_latch, storePayload_latch, storePayload_filt]
      rw [hrow]; omega
    first := by
      simp only [finishRow_filt_first, finishRow_filt_row, storePayload_filt]
      constructor
      · simp
      · intro he
        have := congrArg BitVec.toNat he
        rw [hrow] at this
        simp at this
    posZero := fun _ => rfl
    pos := by
      intro hph
      simp only [finishRow_filt_phase] at hph
      split at hph <;> simp at hph
    posLive := by
      intro hph
      simp only [finishRow_filt_phase] at hph
      split at hph <;> simp at hph
    curWritten := by
      intro hph
      simp only [finishRow_filt_phase] at hph
      split at hph <;> simp at hph
    prevWritten := fun _ j hj => by
      simp only [finishRow_prev, storePayload_prev, finishRow_latch, storePayload_latch] at hj ⊢
      rw [RowBuf.get_putRow, if_pos (by omega)]
      simp [hlen, hj]
    noFault := h.noFault
    faultCode := h.faultCode
    faultAddr := h.faultAddr }

/-- The Adler tap keeps it. -/
theorem engineInv_adlerTap {s : State} (v : Byte) (h : EngineInv s) : EngineInv (adlerTap v s) :=
  engineInv_congr h (by simp) (by simp) (by simp) (by simp) (by simp) (by simp) (by simp) (by simp) (by simp)
    (by simp)

/-- SRC_ADDR is not read by it. -/
theorem engineInv_advanceSrc {s : State} (n : Nat) (h : EngineInv s) : EngineInv (s.advanceSrc n) :=
  engineInv_congr h (by simp) (by simp) (by simp) (by simp) (by simp) (by simp) (by simp) (by simp) (by simp)
    (by simp)

/-- A pass that begins with a good configuration has it. -/
theorem engineInv_beginPass {s : State} {g : Geometry} (h : EngineInv s)
    (hg : checkConfig s.width s.fmt s.platform.maxRowBytes = .ok g) : EngineInv (beginPass g s) where
  mem := h.mem
  cur := h.cur
  prev := h.prev
  platform := h.platform
  latch := fun _ => hg
  live := fun hph => by
    simp only [beginPass_filt, beginPass_latch] at hph ⊢
    split at hph
    · simp at hph
    · rename_i hn
      rw [not_or] at hn
      refine ⟨hn.1, ?_⟩
      have : s.rows.toNat ≠ 0 := fun h0 => hn.2 (BitVec.eq_of_toNat_eq h0)
      simp; omega
  rowCount := by simp
  first := by simp
  posZero := by simp
  pos := by
    intro hph
    simp only [beginPass_filt] at hph
    split at hph <;> simp at hph
  posLive := by
    intro hph
    simp only [beginPass_filt] at hph
    split at hph <;> simp at hph
  curWritten := by
    intro hph
    simp only [beginPass_filt] at hph
    split at hph <;> simp at hph
  prevWritten := by simp
  noFault := h.noFault
  faultCode := h.faultCode
  faultAddr := h.faultAddr

/-- A byte of the filter unit keeps it, and the model does not stop on one. -/
theorem engineInv_filterByte {s : State} (h : EngineInv s) (he : s.status.err = false) (v : Byte) (a : Option Addr) :
    (filterByte v a s).Good (fun _ t => EngineInv t ∧ t.status.err = false) EngineInv := by
  unfold filterByte
  refine Res.Good.bind (P := fun _ t => EngineInv t ∧ t.status.err = false) ?_
    fun _ t ht => ⟨engineInv_adlerTap v ht.1, by simpa using ht.2⟩
  cases hp : s.filt.phase
  · rw [acceptByte_idle hp]; exact engineInv_enterFault _ _ h
  · rw [acceptByte_await hp]
    cases hf : filterTypeOf v
    · exact engineInv_enterFault _ _ h
    · exact ⟨engineInv_startRow h hp _, he⟩
  · rw [acceptByte_inRow hp]
    have hr := engineInv_rowReady h he hp
    obtain ⟨x, y, z, -, -, -, hg⟩ := payloadByte_good hr v
    refine hg.mono (fun _ t ht => ?_) fun t ht => engineInv_busFault (engineInv_storePayload_fault h hr hp _) ht.2
    rcases ht with ⟨hx, rfl⟩ | ⟨hx, row, u, hrow, hu, rfl⟩
    · exact ⟨engineInv_storePayload h hr hp _ hx, he⟩
    · refine ⟨engineInv_finishRow h hr hp (RowBuf.slice_spec hrow).1 hu, ?_⟩
      rw [finishRow_status, hu.frame]
      exact he
  · rw [acceptByte_done hp]; exact engineInv_enterFault _ _ h

end Sys2Proof.Machine
end

