-- ==== Sys2Proof/Laws/PerInstr.lean ====
section
/-! SUPPORT. Statements about every command as syntax, one lemma per constructor. -/

namespace Sys2Proof.Laws

/-- The word of a command has its opcode in bits 31:24 and its form's reserved bits 0
(spec/30_encoding.md R80, R81, R83). -/
def OpcodeField.Statement (i : Instr) : Prop :=
  opField (encode i) = i.opcode.number ∧ encode i &&& i.opcode.form.mask = i.opcode.word

theorem OpcodeField.nop : OpcodeField.Statement .nop := ⟨by decide, by decide⟩
theorem OpcodeField.crcInit : OpcodeField.Statement .crcInit := ⟨by decide, by decide⟩
theorem OpcodeField.adlerInit : OpcodeField.Statement .adlerInit := ⟨by decide, by decide⟩
theorem OpcodeField.passBegin : OpcodeField.Statement .passBegin := ⟨by decide, by decide⟩
theorem OpcodeField.swizzleRow : OpcodeField.Statement .swizzleRow := ⟨by decide, by decide⟩

/-- A word masked with its 24 low bits cleared. -/
theorem append_and_mask_l (op : Byte) (x : BitVec 24) :
    (op ++ x : Word) &&& 0xFF000000#32 = op ++ 0#24 := by
  ext j hj
  simp only [BitVec.getElem_and, BitVec.getElem_append]
  rw [show (0xFF000000#32 : Word) = 0xFF#8 ++ 0#24 from rfl, BitVec.getElem_append]
  split
  · simp
  · rename_i h
    have : j - 24 < 8 := by omega
    have hall : (0xFF#8)[j - 24] = true := by
      rw [show (0xFF#8 : Byte) = BitVec.allOnes 8 from rfl, BitVec.getElem_allOnes]
    simp [hall]

/-- An operand of `n` bits at the low end leaves the reserved bits above it 0. -/
theorem OpcodeField.of_small {i : Instr} {n : Nat} (hmask : i.opcode.form.mask = ~~~ BitVec.ofNat 32 (2 ^ n - 1))
    (hfield : ∀ j, n ≤ j → i.operandField.getLsbD j = false) (hn : n ≤ 24) : OpcodeField.Statement i := by
  refine ⟨opField_append _ _, ?_⟩
  rw [hmask]
  ext j hj
  simp only [encode, Opcode.word, BitVec.getElem_and, BitVec.getElem_not, BitVec.getElem_append]
  rw [← BitVec.getLsbD_eq_getElem (x := BitVec.ofNat 32 (2 ^ n - 1)), BitVec.getLsbD_ofNat,
    Nat.testBit_two_pow_sub_one]
  change _ = (i.opcode.number ++ 0#24 : BitVec (8 + 24))[j]
  rw [BitVec.getElem_append]
  split
  · rename_i h
    by_cases hjn : j < n
    · simp [hjn, hj]
    · have := hfield j (by omega)
      rw [BitVec.getLsbD_eq_getElem h] at this
      simp [this]
  · have : ¬ j < n := by omega
    simp [this]

theorem OpcodeField.crcByte (v : Byte) : OpcodeField.Statement (.crcByte v) :=
  OpcodeField.of_small (n := 8) rfl (fun j hj => by
    simp only [Instr.operandField, BitVec.getLsbD_setWidth, BitVec.getLsbD_of_ge v j hj, Bool.and_false])
    (by decide)

theorem OpcodeField.adlerByte (v : Byte) : OpcodeField.Statement (.adlerByte v) :=
  OpcodeField.of_small (n := 8) rfl (fun j hj => by
    simp only [Instr.operandField, BitVec.getLsbD_setWidth, BitVec.getLsbD_of_ge v j hj, Bool.and_false])
    (by decide)

theorem OpcodeField.unfilterByte (v : Byte) : OpcodeField.Statement (.unfilterByte v) :=
  OpcodeField.of_small (n := 8) rfl (fun j hj => by
    simp only [Instr.operandField, BitVec.getLsbD_setWidth, BitVec.getLsbD_of_ge v j hj, Bool.and_false])
    (by decide)

theorem OpcodeField.crcMem (len : BitVec 24) : OpcodeField.Statement (.crcMem len) :=
  ⟨opField_append _ _, append_and_mask_l _ _⟩

theorem OpcodeField.adlerMem (len : BitVec 24) : OpcodeField.Statement (.adlerMem len) :=
  ⟨opField_append _ _, append_and_mask_l _ _⟩

theorem OpcodeField.unfilter (len : BitVec 24) : OpcodeField.Statement (.unfilter len) :=
  ⟨opField_append _ _, append_and_mask_l _ _⟩

theorem OpcodeField.crcCheck (k : Bool) : OpcodeField.Statement (.crcCheck k) := by
  cases k <;> exact ⟨by decide, by decide⟩

theorem OpcodeField.adlerCheck (k : Bool) : OpcodeField.Statement (.adlerCheck k) := by
  cases k <;> exact ⟨by decide, by decide⟩

theorem OpcodeField.palLoad (n : BitVec 9) : OpcodeField.Statement (.palLoad n) :=
  OpcodeField.of_small (n := 9) rfl (fun j hj => by
    simp only [Instr.operandField, BitVec.getLsbD_setWidth, BitVec.getLsbD_of_ge n j hj, Bool.and_false])
    (by decide)

end Sys2Proof.Laws
end

