-- ==== Sys2Proof/Laws/Unrelated.lean ====
section
/-! SUPPORT. A change of state fields that the bus accesses and row emission neither read nor write goes
through them unchanged. -/

namespace Sys2Proof.Machine

/-- `g` changes only fields that bus accesses, row emission and fault entry neither read nor write. -/
structure Unrelated (g : State → State) : Prop where
  platform : ∀ s, (g s).platform = s.platform
  mem : ∀ s, (g s).mem = s.mem
  busLog : ∀ s, (g s).busLog = s.busLog
  pal : ∀ s, (g s).pal = s.pal
  dstAddr : ∀ s, (g s).dstAddr = s.dstAddr
  store : ∀ s m l, { g s with mem := m, busLog := l } = g { s with mem := m, busLog := l }
  enterFault : ∀ s c a, (g s).enterFault c a = g (s.enterFault c a)

/-- A piece of pseudocode with the state it leaves changed. -/
def Res.mapState {α : Type} (g : State → State) : Res α → Res α
  | .ok a s => .ok a (g s)
  | .ended s => .ended (g s)
  | .stuck f => .stuck f

theorem Res.bind_mapState {α β : Type} {g : State → State} {r r' : Res α} {k k' : α → State → Res β}
    (h : r' = r.mapState g) (hk : ∀ a s, k' a (g s) = (k a s).mapState g) :
    r'.bind k' = (r.bind k).mapState g := by
  subst h
  cases r with
  | ok a s => exact hk a s
  | ended s => rfl
  | stuck f => rfl

theorem Res.toOutcome_mapState (g : State → State) (r : Res Unit) :
    (r.mapState g).toOutcome = mapNext g r.toOutcome := by cases r <;> rfl

section
variable {g : State → State} (h : Unrelated g)
include h

theorem raise_mapState {α : Type} (c : ErrCode) (a : Option Addr) (s : State) :
    (raise c a (g s) : Res α) = (raise c a s).mapState g := congrArg Res.ended (h.enterFault s c a)

theorem busRead_mapState (a : Addr) (s : State) : busRead a (g s) = (busRead a s).mapState g := by
  unfold busRead
  rw [h.platform, h.mem, raise_mapState h]
  split <;> rfl

theorem busWrite_mapState (a : Addr) (v : Byte) (s : State) :
    busWrite a v (g s) = (busWrite a v s).mapState g := by
  cases ha : s.platform.admits a .write
  · rw [busWrite_refused ha, busWrite_refused (by rw [h.platform]; exact ha)]
    exact raise_mapState h _ _ s
  · rw [busWrite_ok ha, busWrite_ok (by rw [h.platform]; exact ha), h.mem, h.busLog]
    exact congrArg (Res.ok ()) (h.store s _ _)

theorem readBytes_mapState (a : Addr) (n : Nat) (s : State) :
    readBytes a n (g s) = (readBytes a n s).mapState g := by
  induction n generalizing a s with
  | zero => rfl
  | succ n ih =>
    exact Res.bind_mapState (busRead_mapState h a s) fun v t =>
      Res.bind_mapState (ih (a + 1#32) t) fun _ _ => rfl

theorem writeBytes_mapState (a : Addr) (vs : List Byte) (s : State) :
    writeBytes a vs (g s) = (writeBytes a vs s).mapState g := by
  induction vs generalizing a s with
  | nil => rfl
  | cons v vs ih => exact Res.bind_mapState (busWrite_mapState h a v s) fun _ t => ih _ t

theorem readPixel_mapState (q : Addr) (s : State) : readPixel q (g s) = (readPixel q s).mapState g :=
  Res.bind_mapState (busRead_mapState h _ s) fun _ s =>
    Res.bind_mapState (busRead_mapState h _ s) fun _ s =>
      Res.bind_mapState (busRead_mapState h _ s) fun _ s =>
        Res.bind_mapState (busRead_mapState h _ s) fun _ _ => rfl

omit h in
theorem forRange_mapState {body : Nat → State → Res Unit}
    (hb : ∀ i s, body i (g s) = (body i s).mapState g) (i n : Nat) (s : State) :
    forRange body i n (g s) = (forRange body i n s).mapState g := by
  induction n generalizing i s with
  | zero => rfl
  | succ n ih => exact Res.bind_mapState (hb i s) fun _ t => ih _ t

/-- Row emission goes through. -/
theorem emitRow_mapState (buf : List Byte) (w : Word) (f : Fmt) (xstep : Word) (s : State) :
    emitRow buf w f xstep (g s) = (emitRow buf w f xstep s).mapState g := by
  unfold emitRow
  split
  · rename_i sf df _ _
    split
    · cases df
      · simp only [h.dstAddr]
        exact writeBytes_mapState h _ _ s
      · refine forRange_mapState (fun i t => ?_) _ _ s
        unfold emitY8Pixel
        split
        · rfl
        · rw [h.dstAddr]
          exact busWrite_mapState h _ _ t
      · refine forRange_mapState (fun i t => ?_) _ _ s
        unfold emitBgraPixel
        rw [h.pal, h.dstAddr]
        split
        · rfl
        · split
          · exact Res.bind_mapState (readPixel_mapState h _ t) fun _ t => by
              rw [h.dstAddr]
              exact writeBytes_mapState h _ _ t
          · exact writeBytes_mapState h _ _ t
    · rfl
  · rfl

end

/-- A stream goes through where its handler does. -/
theorem streamBytes_mapState {g : State → State} {handle : Byte → State → Res Unit} (h : Unrelated g)
    (hsrc : ∀ s, (g s).srcAddr = s.srcAddr) (hadv : ∀ s n, (g s).advanceSrc n = g (s.advanceSrc n))
    (hb : ∀ v s, handle v (g s) = (handle v s).mapState g) (n : Nat) (s : State) :
    streamBytes handle n (g s) = (streamBytes handle n s).mapState g := by
  induction n generalizing s with
  | zero => rfl
  | succ n ih =>
    unfold streamBytes
    rw [hsrc]
    exact Res.bind_mapState (busRead_mapState h _ s) fun v t =>
      Res.bind_mapState (hb v t) fun _ u => by rw [hadv]; exact ih _

/-- check_config on the live registers goes through where its two registers do. -/
theorem liveConfig_mapState {g : State → State} (h : Unrelated g) (hw : ∀ s, (g s).width = s.width)
    (hf : ∀ s, (g s).fmt = s.fmt) (s : State) : liveConfig (g s) = (liveConfig s).mapState g := by
  unfold liveConfig
  rw [hw, hf, h.platform]
  split
  · rfl
  · exact raise_mapState h _ _ s

/-- `g` changes only fields that the filter unit neither reads nor writes. -/
structure UnrelatedFilter (g : State → State) : Prop extends Unrelated g where
  filt : ∀ s, (g s).filt = s.filt
  latch : ∀ s, (g s).latch = s.latch
  cur : ∀ s, (g s).cur = s.cur
  prev : ∀ s, (g s).prev = s.prev
  tap : ∀ s, (g s).ctrl.adlerTap = s.ctrl.adlerTap
  start : ∀ f s, startRow f (g s) = g (startRow f s)
  payload : ∀ o s, storePayload o (g s) = g (storePayload o s)
  finish : ∀ r s, finishRow r (g s) = g (finishRow r s)
  feed : ∀ v s, feedAdler v (g s) = g (feedAdler v s)

/-- A byte of the filter unit goes through. -/
theorem filterByte_mapState {g : State → State} (h : UnrelatedFilter g) (v : Byte) (a : Option Addr)
    (s : State) : filterByte v a (g s) = (filterByte v a s).mapState g := by
  have hu := h.toUnrelated
  unfold filterByte
  refine Res.bind_mapState ?_ fun _ t => ?_
  · unfold acceptByte
    rw [h.filt]
    split
    · exact raise_mapState hu _ _ s
    · exact raise_mapState hu _ _ s
    · split
      · exact raise_mapState hu _ _ s
      · rw [h.start]; rfl
    · unfold payloadByte
      rw [h.cur, h.prev, h.filt, h.latch, hu.platform]
      split
      · split
        · simp only [h.payload, h.filt, h.latch]
          split
          · unfold rowEnd
            rw [h.cur, h.latch]
            split
            · rfl
            · exact Res.bind_mapState (emitRow_mapState hu _ _ _ _ _) fun _ t => by rw [h.finish]; rfl
          · rfl
        · rfl
      · rfl
  · unfold adlerTap
    rw [h.tap]
    split
    · rw [h.feed]; rfl
    · rfl

end Sys2Proof.Machine
end

