-- ==== Sys2Proof/Tests/Slice0.lean ====
section
/-! SUPPORT. Tests of single steps and single words. Every expected value is one of spec/95_test_vectors.md
or of a rule's own example, named before the test. -/

namespace Sys2Proof.Tests

open Sys2Proof.Machine

/-! ## Helpers -/

/-- The next state of an outcome, if it is one. -/
def next? (o : Host.Outcome State Fault Refusal) : Option State :=
  match o with
  | .next s => some s
  | .fault _ => none
  | .refused _ => none

/-- The reset state with SRC_ADDR = 0x1000, DST_ADDR = 0x2000 and bytes in memory from 0x1000 on. -/
def withBytes (vs : List Byte) : State :=
  { State.reset with
    srcAddr := 0x1000#32
    dstAddr := 0x2000#32
    mem := RowBuf.putRow [] 0x1000 vs }

/-- `n` bytes of memory from an address on. -/
def bytesAt (s : State) (a n : Nat) : List Byte := (List.range n).map fun i => Memory.read s.mem (a + i)

/-- STATUS as the host reads it. -/
def statusOf (s : State) : Word := mmioRead 0x004 s

/-- FSTATE as the host reads it. -/
def fstateOf (s : State) : Word := mmioRead 0x034 s

/-- A state in the pass of the PASS_BEGIN example of 41_filter.md R150: gray 8, RAW, 4 by 2. -/
def inPass (vs : List Byte) : State :=
  beginPass ⟨4, 1, 8⟩
    { withBytes vs with fmt := fmtOfWord 0x00000008#32, width := 4#32, rows := 2#32, dstStride := 4#32 }

/-! ## Well-formedness: the one value check, refused -/

theorem test_wf_pal_load_zero : (Instr.palLoad 0#9).wf = false := by decide
theorem test_wf_pal_load_257 : (Instr.palLoad 257#9).wf = false := by decide
theorem test_wf_pal_load_256 : (Instr.palLoad 256#9).wf = true := by decide

/-! ## Decoding: one word per constructor, from 30_encoding.md R83 and the examples of the rules -/

theorem test_decode_nop : decode 0x00000000#32 = .ok .nop := by decide
theorem test_decode_crc_init : decode 0x01000000#32 = .ok .crcInit := by decide
theorem test_decode_crc_byte : decode 0x02000061#32 = .ok (.crcByte 0x61#8) := by decide
theorem test_decode_crc_mem : decode 0x03000009#32 = .ok (.crcMem 9#24) := by decide
theorem test_decode_crc_check : decode 0x04000001#32 = .ok (.crcCheck true) := by decide
theorem test_decode_crc_check_anc : decode 0x04000000#32 = .ok (.crcCheck false) := by decide
theorem test_decode_adler_init : decode 0x08000000#32 = .ok .adlerInit := by decide
theorem test_decode_adler_byte : decode 0x09000061#32 = .ok (.adlerByte 0x61#8) := by decide
theorem test_decode_adler_mem : decode 0x0A000009#32 = .ok (.adlerMem 9#24) := by decide
theorem test_decode_adler_check : decode 0x0B000001#32 = .ok (.adlerCheck true) := by decide
theorem test_decode_pass_begin : decode 0x10000000#32 = .ok .passBegin := by decide
theorem test_decode_unfilter_byte : decode 0x11000001#32 = .ok (.unfilterByte 1#8) := by decide
theorem test_decode_unfilter : decode 0x1200000A#32 = .ok (.unfilter 10#24) := by decide
theorem test_decode_pal_load : decode 0x18000100#32 = .ok (.palLoad 256#9) := by decide
theorem test_decode_swizzle_row : decode 0x19000000#32 = .ok .swizzleRow := by decide
/-- V4.2. -/
theorem test_decode_nop_reserved : decode 0x00000001#32 = .error (.reservedBits .nop) := by decide
/-- V4.3. -/
theorem test_decode_undefined : decode 0x05000000#32 = .error (.undefinedOpcode 0x05#8) := by decide
/-- V4.4. -/
theorem test_decode_crc_byte_reserved : decode 0x02000100#32 = .error (.reservedBits .crcByte) := by
  decide
/-- The bits of a word written out: OP 0x12, len 0x000005. -/
theorem test_decode_unfilter_bits :
    decode (0b00010010#8 ++ 0b000000000000000000000101#24) = .ok (.unfilter 5#24) := by decide

/-- The OP field of the table's words; a row of 32 bits (spec/opcode_table.json). -/
theorem test_table_word : decodeTableWord 32 0x18000002 = some (.palLoad 2#9) := by decide
theorem test_table_word_illegal : decodeTableWord 32 0x1A000000 = none := by decide

/-! ## Checksum unit -/

/-- V1.6. -/
theorem test_crc_mem_check_value :
    (next? (exec (.crcMem 9#24) (withBytes [0x31, 0x32, 0x33, 0x34, 0x35, 0x36, 0x37, 0x38, 0x39]))).map
      (fun s => (s.crc, s.srcAddr)) = some (0xCBF43926#32, 0x1009#32) := by decide +kernel

/-- V1.12: E_BUS at the fourth byte, three bytes in the CRC. -/
theorem test_crc_mem_refused :
    (next? (exec (.crcMem 9#24)
      { withBytes [0x31, 0x32, 0x33, 0x34, 0x35] with platform := ⟨[⟨0x1003, 2 ^ 32, .read⟩], 64⟩ })).map
      (fun s => (statusOf s, s.errAddr, s.srcAddr, s.crc))
      = some (0x0203#32, 0x1003#32, 0x1003#32, 0x884863D2#32) := by decide +kernel

/-- V1.4. -/
theorem test_crc_byte :
    (next? (exec (.crcByte 0#8) { State.reset with crc := 0x12345678#32 })).map State.crc
      = some 0x8CCE22D5#32 := by decide

/-- V1.5. -/
theorem test_crc_init :
    (next? (exec .crcInit { State.reset with crc := 0x12345678#32 })).map State.crc = some 0#32 := by decide

/-- V1.13. -/
theorem test_crc_check_match :
    (next? (exec (.crcCheck true) { withBytes [0xAE, 0x42, 0x60, 0x82] with crc := 0xAE426082#32 })).map
      (fun s => (statusOf s, s.srcAddr)) = some (0x0004#32, 0x1004#32) := by decide

/-- V1.14: fatal, SRC_ADDR not advanced. -/
theorem test_crc_check_fatal :
    (next? (exec (.crcCheck true) { withBytes [0xAE, 0x42, 0x60, 0x83] with crc := 0xAE426082#32 })).map
      (fun s => (statusOf s, s.errAddr, s.srcAddr)) = some (0x0303#32, 0x1000#32, 0x1000#32) := by decide

/-- V1.22: halves only a host write can create. -/
theorem test_adler_byte_out_of_range :
    (next? (exec (.adlerByte 0#8) { State.reset with adler := 0xFFFFFFFF#32 })).map State.adler
      = some 0x001C000E#32 := by decide

/-- V1.21: s1 wraps. -/
theorem test_adler_byte_wraps :
    (next? (exec (.adlerByte 1#8) { State.reset with adler := 0xFFF0FFF0#32 })).map State.adler
      = some 0xFFF00000#32 := by decide

/-- V1.19, "Wikipedia". -/
theorem test_adler_mem :
    (next? (exec (.adlerMem 9#24) (withBytes [0x57, 0x69, 0x6B, 0x69, 0x70, 0x65, 0x64, 0x69, 0x61]))).map
      (fun s => (s.adler, s.srcAddr)) = some (0x11E60398#32, 0x1009#32) := by decide

/-- V1.25. -/
theorem test_adler_init :
    (next? (exec .adlerInit { State.reset with adler := 0x11E60398#32 })).map State.adler
      = some 1#32 := by decide

/-- V1.27. -/
theorem test_adler_check_fatal :
    (next? (exec (.adlerCheck true) { withBytes [0x11, 0xE6, 0x03, 0x99] with adler := 0x11E60398#32 })).map
      (fun s => (statusOf s, s.errAddr, s.srcAddr)) = some (0x0403#32, 0x1000#32, 0x1000#32) := by decide

/-- V1.28: the quirk lets it pass. -/
theorem test_adler_check_ignored :
    (next? (exec (.adlerCheck true)
      { withBytes [0x11, 0xE6, 0x03, 0x99] with adler := 0x11E60398#32, ctrl := ⟨true, false, false⟩ })).map
      (fun s => (statusOf s, s.srcAddr)) = some (0x0010#32, 0x1004#32) := by decide

/-! ## Filter unit -/

/-- The example of PASS_BEGIN (41_filter.md R150). -/
theorem test_pass_begin :
    (next? (exec .passBegin
      { State.reset with fmt := fmtOfWord 8#32, width := 4#32, rows := 2#32 })).map
      (fun s => (fstateOf s, mmioRead 0x040 s, mmioRead 0x044 s)) = some (0x21#32, 4#32, 1#32) := by decide

/-- V2.8: SRC_OVER with Y8 from RGB is E_UNSUPPORTED. -/
theorem test_pass_begin_unsupported :
    (next? (exec .passBegin
      { State.reset with fmt := fmtOfWord 0x00110208#32, width := 1#32, rows := 1#32 })).map
      (fun s => (statusOf s, fstateOf s)) = some (0x0601#32, 0x20#32) := by decide

/-- V2.2, the alternative. -/
theorem test_unfilter_byte_type :
    (next? (exec (.unfilterByte 1#8) (inPass []))).map fstateOf = some 0x26#32 := by decide

/-- V2.9: E_BAD_FILTER without an address, nothing consumed. -/
theorem test_unfilter_byte_bad :
    (next? (exec (.unfilterByte 5#8) (inPass []))).map (fun s => (statusOf s, fstateOf s))
      = some (0x0901#32, 0x21#32) := by decide

/-- V2.2 and V2.3 in one command: Sub, then Paeth. -/
theorem test_unfilter_two_rows :
    (next? (exec (.unfilter 10#24)
      (inPass [0x01, 0x10, 0x20, 0x30, 0x40, 0x04, 0x01, 0x02, 0x03, 0x04]))).map
      (fun s => (bytesAt s 0x2000 8, s.dstAddr, fstateOf s))
      = some ([0x10, 0x30, 0x60, 0xA0, 0x11, 0x32, 0x63, 0xA4], 0x2008#32, 0x13#32) := by decide

/-- V2.10: E_BUS during row emission, the byte stored and not tapped. -/
theorem test_unfilter_emission_fault :
    (next? (exec (.unfilter 5#24)
      { inPass [0x00, 0x01, 0x02, 0x03, 0x04] with
        ctrl := ⟨false, true, false⟩, platform := ⟨[⟨0x2002, 0x2003, .write⟩], 64⟩ })).map
      (fun s => (statusOf s, s.errAddr, bytesAt s 0x2000 3, mmioRead 0x038 s, s.srcAddr, s.adler))
      = some (0x0203#32, 0x2002#32, [0x01, 0x02, 0x00], 4#32, 0x1004#32, 0x000E0007#32) := by decide

/-- V2.1: the exact sum of Average, and the corner cases of Paeth. -/
theorem test_predictors :
    [reconstruct .average 0x00 0xFF 0xFF 0x00, reconstruct .paeth 0x00 0x50 0x40 0x60,
     reconstruct .paeth 0x00 0x10 0x40 0x28, reconstruct .paeth 0x00 0x40 0x10 0xFF,
     reconstruct .paeth 0xFE 0x0A 0x14 0x0F]
      = [0xFF, 0x40, 0x28, 0x10, 0x0D] := by decide

/-- V2.6: the encode direction gives the stream of V2.2 and V2.3. -/
theorem test_encode_rows :
    encodeRows 1 none [(.sub, [0x10, 0x30, 0x60, 0xA0]), (.paeth, [0x11, 0x32, 0x63, 0xA4])]
      = [0x01, 0x10, 0x20, 0x30, 0x40, 0x04, 0x01, 0x02, 0x03, 0x04] := by decide

/-! ## Swizzler unit -/

/-- The start of the vectors V3 with a format, a width and an XSTEP. -/
def swizzleStart (fmt width xstep : Word) (vs : List Byte) : State :=
  { withBytes vs with fmt := fmtOfWord fmt, width := width, dstXstep := xstep, dstStride := 0x40#32 }

/-- V3.19: overlapping pixels, the last write wins. -/
theorem test_swizzle_overlap :
    (next? (exec .swizzleRow (swizzleStart 0x00020208#32 2#32 2#32 [0x11, 0x22, 0x33, 0x44, 0x55, 0x66]))).map
      (fun s => (bytesAt s 0x2000 6, s.srcAddr, s.dstAddr))
      = some ([0x33, 0x22, 0x66, 0x55, 0x44, 0xFF], 0x1006#32, 0x2040#32) := by decide

/-- V3.4: gray 4 to Y8, the low nibble of the last byte ignored. -/
theorem test_swizzle_gray4 :
    (next? (exec .swizzleRow (swizzleStart 0x00010004#32 3#32 1#32 [0x7F, 0x80]))).map
      (fun s => bytesAt s 0x2000 3) = some [0x77, 0xFF, 0x88] := by decide

/-- V3.23: two entries. -/
theorem test_pal_load :
    (next? (exec (.palLoad 2#9) (withBytes [0xFF, 0x00, 0x00, 0x00, 0xFF, 0x00]))).map
      (fun s => (mmioRead 0x400 s, mmioRead 0x404 s, s.srcAddr))
      = some (0xFFFF0000#32, 0xFF00FF00#32, 0x1006#32) := by decide +kernel

/-- V3.23: E_BUS on the second triplet. -/
theorem test_pal_load_refused :
    (next? (exec (.palLoad 2#9)
      { withBytes [1, 2, 3, 4, 5, 6] with platform := ⟨[⟨0x1004, 2 ^ 32, .read⟩], 64⟩ })).map
      (fun s => (statusOf s, s.errAddr, mmioRead 0x400 s, mmioRead 0x404 s, s.srcAddr))
      = some (0x0203#32, 0x1004#32, 0xFF010203#32, 0xFF000000#32, 0x1003#32) := by decide +kernel

/-! ## The window, the CMD port and reset -/

/-- The next state of one step on one event. -/
def after (s : State) (e : HostEvent) : Option State := next? (step { s with inbox := [e] })

/-- V4.1. -/
theorem test_nop : next? (step (State.reset.withFetchWord 32 0x00000000)) = some State.reset := by decide +kernel

/-- V4.2. -/
theorem test_bad_cmd :
    (next? (step (State.reset.withFetchWord 32 0x00000001))).map (fun s => (statusOf s, s.errAddr))
      = some (0x0101#32, 0#32) := by decide

/-- V4.7: ignored while halted. -/
theorem test_halted :
    (after { State.reset.enterFault .badCmd none with crc := 7#32 } (.write 0x008 .w32 0x01000000#32)).map
      State.crc = some 7#32 := by decide

/-- V4.8: the IRQ rises when the host sets ERR_IE. -/
theorem test_irq_rises :
    (after (State.reset.enterFault .badCmd none) (.write 0x000 .w32 0x8#32)).map statusOf
      = some 0x0121#32 := by decide

/-- V4.11. -/
theorem test_fmt_reserved_bits :
    (after State.reset (.write 0x030 .w32 0xFFFFFFFF#32)).map (mmioRead 0x030)
      = some 0x0013071F#32 := by decide

/-- V4.14: the other bits of a soft reset are discarded. -/
theorem test_soft_reset_discards :
    after { State.reset with crc := 5#32 } (.write 0x000 .w32 0xF#32) = some State.reset := by decide +kernel

/-- 43_system.md R225: a 16-bit access has no step. -/
theorem test_narrow_access_refused : after State.reset (.read 0x000 .w16) = none := by decide

/-! ## Pseudo-instructions and interlace -/

/-- Program P1: `CHUNK_CRC 0, crit` is its first three commands (95_test_vectors.md). -/
theorem test_chunk_crc :
    (chunkCrc 0 true).map encode = [0x01000000#32, 0x03000004#32, 0x04000001#32] := by decide

/-- The expansion of 30_encoding.md R89 for a count just above the largest. -/
theorem test_crc_mem_long : crcMemLong 16777216 = [.crcMem 0xFFFFFF#24, .crcMem 1#24] := by decide

/-! ## Witnesses: concrete states and operands that meet the hypotheses of the statements -/

/-- Inside the second row of the pass of `inPass`, a Paeth row: `x` bytes of it are in CUR. -/
def midRow (x : Nat) : State :=
  { inPass [0x04, 0x01, 0x02, 0x03, 0x04] with
    filt := ⟨.inRow, .paeth, BitVec.ofNat 32 x, 1#32, false⟩
    cur := RowBuf.putRow [] 0 ([0x11, 0x32, 0x63, 0xA4].take x)
    prev := RowBuf.putRow [] 0 [0x10, 0x30, 0x60, 0xA0] }

/-- A platform that refuses one kind of access in a range. -/
def refusing (lo hi : Nat) (k : AccessKind) (s : State) : State :=
  { s with platform := ⟨[⟨lo, hi, k⟩], 64⟩ }

/-- With nothing refused, every emission is admitted. -/
theorem emission_admitted {s : State} (h : s.platform.refused = []) (dst : Addr) (w : Word) (f : Fmt)
    (xstep : Word) (len : Nat) : s.emissionAdmitted dst w f xstep len := by
  intro a _
  simp [Platform.admits, h]

theorem witness_invariant_reset : EngineInv State.reset where
  mem := by decide
  cur := by decide
  prev := by decide
  platform := by unfold Platform.Legal; decide
  latch := fun h => absurd rfl h
  live := by decide
  rowCount := by decide
  first := by decide
  posZero := by decide
  pos := by decide
  posLive := by decide
  curWritten := by decide
  prevWritten := by decide
  noFault := by decide
  faultCode := fun h => absurd h (by decide)
  faultAddr := by decide

theorem witness_invariant_await : EngineInv (inPass [0x01, 0x10, 0x20, 0x30, 0x40]) where
  mem := by decide
  cur := by decide
  prev := by decide
  platform := by unfold Platform.Legal; decide
  latch := fun _ => rfl
  live := by decide
  rowCount := by decide
  first := by decide
  posZero := by decide
  pos := by decide
  posLive := by decide
  curWritten := by decide
  prevWritten := by decide
  noFault := by decide
  faultCode := fun h => absurd h (by decide)
  faultAddr := by decide

/-- The invariant in the middle of a row (`x = 1`) and before its last byte (`x = 3`). -/
theorem witness_invariant_row (x : Nat) (hx : x = 1 ∨ x = 3) : EngineInv (midRow x) where
  mem := by rcases hx with rfl | rfl <;> decide
  cur := by rcases hx with rfl | rfl <;> decide
  prev := by rcases hx with rfl | rfl <;> decide
  platform := by unfold Platform.Legal; rcases hx with rfl | rfl <;> decide
  latch := fun _ => by rcases hx with rfl | rfl <;> rfl
  live := fun _ => by rcases hx with rfl | rfl <;> decide
  rowCount := by rcases hx with rfl | rfl <;> decide
  first := by rcases hx with rfl | rfl <;> decide
  posZero := fun h => absurd (by rcases hx with rfl | rfl <;> rfl) h
  pos := fun _ => by rcases hx with rfl | rfl <;> decide
  posLive := fun _ _ => by rcases hx with rfl | rfl <;> decide
  curWritten := fun _ => by rcases hx with rfl | rfl <;> decide
  prevWritten := fun _ => by rcases hx with rfl | rfl <;> decide
  noFault := fun _ => by rcases hx with rfl | rfl <;> decide
  faultCode := fun h => absurd h (by rcases hx with rfl | rfl <;> decide)
  faultAddr := fun _ => by rcases hx with rfl | rfl <;> decide

/-! ### Encoding and one step -/

/-- EncodeDecodeInverse, OperandFieldsAreWordBits: operands at the ends of their ranges. -/
theorem witness_decode_bounds :
    decode 0x020000FF#32 = .ok (.crcByte 0xFF#8) ∧ decode 0x12FFFFFF#32 = .ok (.unfilter 0xFFFFFF#24) ∧
    decode 0x0B000000#32 = .ok (.adlerCheck false) ∧ decode 0x180001FF#32 = .ok (.palLoad 511#9) := by decide

/-- WordSelectsItsCommand: every form has a command. -/
theorem witness_forms :
    Opcode.swizzleRow.form = .z ∧ Opcode.adlerByte.form = .b ∧ Opcode.crcMem.form = .l ∧
    Opcode.crcCheck.form = .k ∧ Opcode.palLoad.form = .n := by decide

/-- IllegalWordFaults: illegal opcodes at the ends of the gaps, and a reserved bit of each form but L. -/
theorem witness_illegal_words :
    (∀ op ∈ [0x05, 0x07, 0x0C, 0x0F, 0x13, 0x17, 0x1A, 0xFF], IllegalWord (BitVec.ofNat 8 op ++ 0#24)) ∧
    IllegalWord 0x00000001#32 ∧ IllegalWord 0x09000100#32 ∧ IllegalWord 0x04000002#32 ∧
    IllegalWord 0x18000200#32 ∧ ¬ IllegalWord 0x19000000#32 := by
  have h (o : Opcode) : o ∈ Opcode.all := by cases o <;> decide
  have hn : ∀ op ∈ [0x05, 0x07, 0x0C, 0x0F, 0x13, 0x17, 0x1A, 0xFF], ∀ o ∈ Opcode.all,
      o.number ≠ opField (BitVec.ofNat 8 op ++ 0#24) := by decide
  have hs : ∀ o ∈ Opcode.all, o.number = opField 0x19000000#32 →
      0x19000000#32 &&& o.form.mask &&& 0x00FFFFFF#32 = 0#32 := by decide
  refine ⟨fun op hop => .inl fun o => hn op hop o (h o), .inr ⟨.nop, by decide, by decide⟩,
    .inr ⟨.adlerByte, by decide, by decide⟩, .inr ⟨.crcCheck, by decide, by decide⟩,
    .inr ⟨.palLoad, by decide, by decide⟩, ?_⟩
  rintro (hw | ⟨o, h1, h2⟩)
  · exact hw .swizzleRow (by decide)
  · exact h2 (hs o (h o) h1)

/-- StepRunsTheDecodedCommand: the three cases of a CMD write. -/
theorem witness_cmd_write :
    (State.queueCmd (State.reset.enterFault .badCmd none) 0x01000000#32).status.err = true ∧
    (State.reset.queueCmd 0x00000001#32).status.err = false ∧
    decode 0x01000000#32 = .ok .crcInit ∧
    (State.reset.queueCmd 0x01000000#32).inbox = [.write 0x008 .w32 0x01000000#32] := by decide

/-- AccessOutsideTheModelIsRefused: a width, an odd offset, and the first offset beyond the window. -/
theorem witness_outside :
    accessInModel 0x000 .w16 = false ∧ accessInModel 0x002 .w32 = false ∧ accessInModel 0x1000 .w32 = false ∧
    accessInModel 0xFFC .w32 = true := by decide

/-- StepWithoutARegisterAccess, ResetValues: an empty inbox, a store, and both resets. -/
theorem witness_events :
    State.reset.inbox = [] ∧
    (after State.reset (.store 0xFFFFFFFF#32 0x7F#8)).map (fun s => Memory.read s.mem 0xFFFFFFFF)
      = some 0x7F#8 ∧
    HostEvent.isReset (.write 0x000 .w32 0x1#32) = true ∧ HostEvent.isReset .powerOnReset = true ∧
    HostEvent.legal (.write 0x000 .w32 0x1#32) = true := by decide +kernel

/-- StepKeepsInvariant, LegalStepsNeverStop: a step in the middle of a row. -/
theorem witness_step_in_row :
    EngineInv { midRow 3 with inbox := [.write 0x008 .w32 0x11000004#32] } ∧
    HostEvent.legal (.write 0x008 .w32 0x11000004#32) = true ∧
    (after (midRow 3) (.write 0x008 .w32 0x11000004#32)).map (fun s => (fstateOf s, bytesAt s 0x2000 4))
      = some (0x13#32, [0x11, 0x32, 0x63, 0xA4]) := by
  have h := witness_invariant_row 3 (.inr rfl)
  exact ⟨{ h with latch := h.latch, noFault := h.noFault }, by decide, by decide +kernel⟩

/-- RowBufferContentsNeverObservable: two states of the invariant that differ in a byte beyond F_X. -/
theorem witness_hidden :
    SameButHidden (midRow 1) { midRow 1 with cur := [(0, 0x11#8), (3, 0x55#8)] } ∧
    EngineInv { midRow 1 with cur := [(0, 0x11#8), (3, 0x55#8)] } ∧
    (midRow 1).cur ≠ [(0, 0x11#8), (3, 0x55#8)] := by
  have h := witness_invariant_row 1 (.inl rfl)
  refine ⟨⟨rfl, fun _ => by decide, fun _ _ _ => rfl⟩, ?_, by decide⟩
  exact { h with
    cur := by decide
    latch := h.latch
    curWritten := fun _ => by decide
    noFault := h.noFault }

/-! ### The window, faults and the interrupt -/

/-- RegisterWrites, RegisterReads, ReservedBitsAndOffsets: the ends of the palette and of the reserved
ranges, and two words that differ in reserved bits only. -/
theorem witness_window :
    windowReg 0x400 = .pal 0x00#8 ∧ windowReg 0x7FC = .pal 0xFF#8 ∧ windowReg 0x044 = .fdist ∧
    windowReg 0x048 = .reserved ∧ windowReg 0x3FC = .reserved ∧ windowReg 0x800 = .reserved ∧
    windowReg 0xFFC = .reserved ∧ 0xFFFFFFF4#32 &&& 0x0000000F#32 = 0x00000004#32 &&& 0x0000000F#32 ∧
    0xFFECF8E8#32 &&& 0x0013071F#32 = 0x00000008#32 &&& 0x0013071F#32 := by decide

/-- HaltedEngineIgnoresCommands, OnlyResetLeavesTheFault: a halted state, and an event of each kind. -/
theorem witness_halted :
    (State.reset.enterFault .bus (some 0x1003#32)).status.err = true ∧
    HostEvent.isReset (.write 0x000 .w32 0x8#32) = false ∧ HostEvent.isReset (.write 0x000 .w32 0x9#32) = true ∧
    HostEvent.legal (.write 0x7FC .w32 0#32) = true := by decide

/-- CommandsRaiseOnlyTheirCodes, ErrAddrByCode: a command of each clause that faults. -/
theorem witness_faults :
    (next? (cmdWrite 0x1A000000#32 State.reset)).map (fun s => (statusOf s, s.errAddr)) = some (0x0101#32, 0#32) ∧
    (next? (cmdWrite 0x03000001#32 (refusing 0x1000 0x1001 .read (withBytes [])))).map
      (fun s => (statusOf s, s.errAddr)) = some (0x0203#32, 0x1000#32) ∧
    (next? (cmdWrite 0x04000001#32 { withBytes [1] with crc := 5#32 })).map (fun s => (statusOf s, s.errAddr))
      = some (0x0303#32, 0x1000#32) ∧
    (next? (cmdWrite 0x12000001#32 (withBytes []))).map (fun s => (statusOf s, s.errAddr))
      = some (0x0803#32, 0x1000#32) ∧
    (next? (cmdWrite 0x11000000#32 (withBytes []))).map (fun s => (statusOf s, s.errAddr))
      = some (0x0801#32, 0#32) := by decide +kernel

/-- ErrAddrByCode: E_BUS on a trailer byte, on a triplet, on a source byte of UNFILTER, and on a source and a
destination byte of SWIZZLE_ROW. -/
theorem witness_bus_faults :
    (next? (cmdWrite 0x0B000000#32 (refusing 0x1003 0x1004 .read (withBytes [])))).map
      (fun s => (statusOf s, s.errAddr)) = some (0x0203#32, 0x1003#32) ∧
    (next? (cmdWrite 0x18000002#32 (refusing 0x1004 0x1006 .read (withBytes [])))).map
      (fun s => (statusOf s, s.errAddr)) = some (0x0203#32, 0x1004#32) ∧
    (next? (cmdWrite 0x12000003#32 (refusing 0x1002 0x1003 .read (inPass [0x01, 0x10])))).map
      (fun s => (statusOf s, s.errAddr)) = some (0x0203#32, 0x1002#32) ∧
    (next? (cmdWrite 0x19000000#32 (refusing 0x1002 0x1003 .read (swizzleStart 8#32 4#32 0#32 [])))).map
      (fun s => (statusOf s, s.errAddr)) = some (0x0203#32, 0x1002#32) ∧
    (next? (cmdWrite 0x19000000#32 (refusing 0x2003 0x2009 .read (swizzleStart 0x00120208#32 2#32 4#32 [])))).map
      (fun s => (statusOf s, s.errAddr)) = some (0x0203#32, 0x2003#32) := by decide +kernel

/-- IrqFollowsErrAndEnable: the two ways up and the two ways down. -/
theorem witness_irq :
    (after { State.reset with ctrl := ⟨false, false, true⟩ } (.write 0x008 .w32 0x1#32)).map State.irq
      = some true ∧
    (after (State.reset.enterFault .badCmd none) (.write 0x000 .w32 0x8#32)).map State.irq = some true ∧
    (after { State.reset.enterFault .badCmd none with ctrl := ⟨false, false, true⟩ }
      (.write 0x000 .w32 0x0#32)).map State.irq = some false ∧
    (after { State.reset.enterFault .badCmd none with ctrl := ⟨false, false, true⟩ } .powerOnReset).map State.irq
      = some false := by decide

/-! ### The checksum unit -/

/-- CrcMemFeedsTheBytes, AdlerMemFeedsTheBytes: all bytes admitted, and the first or the fourth refused. -/
theorem witness_stream :
    (withBytes [1, 2, 3, 4, 5]).admitsRun .read 0x1000#32 5 ∧
    (refusing 0x1003 0x1004 .read (withBytes [1, 2, 3, 4, 5])).admitsRun .read 0x1000#32 3 ∧
    (refusing 0x1003 0x1004 .read (withBytes [])).platform.admits 0x1003#32 .read = false ∧
    (refusing 0x1000 0x1001 .read (withBytes [])).platform.admits 0x1000#32 .read = false := by
  unfold State.admitsRun
  decide

/-- CrcCheckComparesTheTrailer, AdlerCheckComparesTheTrailer, MismatchFatalExactlyWhenCritical: a trailer that
matches and one that does not, the quirk set, and the last trailer byte refused. -/
theorem witness_trailer :
    (withBytes [0xAE, 0x42, 0x60, 0x82]).trailerAt 0x1000#32 = 0xAE426082#32 ∧
    (withBytes [0xAE, 0x42, 0x60, 0x83]).trailerAt 0x1000#32 ≠ 0xAE426082#32 ∧
    mismatchFatal true ⟨false, false, false⟩ = true ∧ mismatchFatal true ⟨true, false, false⟩ = false ∧
    mismatchFatal false ⟨false, false, false⟩ = false ∧
    (refusing 0x1003 0x1004 .read (withBytes [])).admitsRun .read 0x1000#32 3 := by
  unfold State.admitsRun
  decide

/-- ChecksumSplitInvariance: the largest sum of counts. -/
theorem witness_split_counts : (0xFFFFFE#24).toNat + (1#24).toNat < 2 ^ 24 := by decide

/-- TrailerSensitivity: a check that succeeds, and another memory. -/
theorem witness_sensitivity :
    (next? (exec (.crcCheck true) { withBytes [0xAE, 0x42, 0x60, 0x82] with crc := 0xAE426082#32 })).map
      (fun s => s.status.err) = some false ∧
    (next? (exec (.adlerCheck true) { withBytes [0x11, 0xE6, 0x03, 0x98] with adler := 0x11E60398#32 })).map
      (fun s => s.status.err) = some false ∧
    (withBytes [0xAE, 0x42, 0x60, 0x83]).bytesFrom 0x1000#32 4
      ≠ (withBytes [0xAE, 0x42, 0x60, 0x82]).bytesFrom 0x1000#32 4 := by decide

/-! ### The filter unit -/

/-- PassBeginLatchesTheConfiguration, ConfigurationFaultsInOrder: a legal format, an illegal one, a
conversion that is not admitted, and a row that just fits and one that just does not. -/
theorem witness_config :
    ((fmtOfWord 0x00000008#32).srcCt, (fmtOfWord 0x00000008#32).srcDepth, 1) ∈ legalFormats ∧
    conversionAdmitted (fmtOfWord 0x00010001#32) ∧ ¬ conversionAdmitted (fmtOfWord 0x00110208#32) ∧
    checkConfig 64#32 (fmtOfWord 0x00000008#32) 64 = .ok ⟨64, 1, 8⟩ ∧
    checkConfig 65#32 (fmtOfWord 0x00000008#32) 64 = .error .rowTooLong ∧
    checkConfig 1#32 (fmtOfWord 0x00000108#32) 64 = .error .badFormat ∧
    checkConfig 1#32 (fmtOfWord 0x00030008#32) 64 = .error .badFormat ∧
    checkConfig 1#32 (fmtOfWord 0x00110208#32) 64 = .error .unsupported := by
  unfold conversionAdmitted
  refine ⟨by decide, by decide, by decide, rfl, rfl, rfl, rfl, rfl⟩

/-- PhasesThatTakeNoBytes: both phases, and a PASS_BEGIN that leaves them. -/
theorem witness_phases :
    State.reset.filt.phase = .idle ∧
    (next? (exec .passBegin { State.reset with fmt := fmtOfWord 8#32, rows := 1#32 })).map
      (fun s => (s.filt.phase, s.status.err)) = some (.done, false) ∧
    (next? (exec .passBegin { State.reset with fmt := fmtOfWord 8#32, rows := 1#32, width := 1#32 })).map
      (fun s => (s.filt.phase, s.status.err)) = some (.awaitFilter, false) := by decide

/-- FilterTypeByteRule: the phase, and the first byte that is no filter type, on the bus. -/
theorem witness_filter_type :
    (inPass [0x05]).filt.phase = .awaitFilter ∧ Memory.read (inPass [0x05]).mem 0x1000 = 0x05#8 ∧
    (inPass [0x05]).platform.admits 0x1000#32 .read = true ∧ 4 < (0x05#8).toNat ∧ 4 < (0xFF#8).toNat := by decide

/-- PayloadByteIsReconstructed: a byte with all three neighbours, and one of a first row with none. -/
theorem witness_payload :
    EngineInv (midRow 1) ∧ (midRow 1).status.err = false ∧ (midRow 1).filt.phase = .inRow ∧
    (midRow 1).latch.dist ≤ (midRow 1).filt.x.toNat ∧ (midRow 1).filt.first = false ∧
    (midRow 1).filt.x.toNat + 1 < (midRow 1).latch.rowBytes ∧
    (startRow .sub (inPass [])).filt.x.toNat < (startRow .sub (inPass [])).latch.dist ∧
    (startRow .sub (inPass [])).filt.first = true ∧
    (startRow .sub (inPass [])).filt.x.toNat + 1 < (startRow .sub (inPass [])).latch.rowBytes := by
  refine ⟨witness_invariant_row 1 (.inl rfl), ?_⟩
  decide

/-- RowEndEffects: the last byte of a row whose emission is admitted. -/
theorem witness_row_end :
    EngineInv (midRow 3) ∧ (midRow 3).status.err = false ∧ (midRow 3).filt.phase = .inRow ∧
    (midRow 3).filt.x.toNat + 1 = (midRow 3).latch.rowBytes ∧
    (midRow 3).emissionAdmitted 0x2000#32 4#32 (fmtOfWord 8#32) 0#32 4 :=
  ⟨witness_invariant_row 3 (.inr rfl), rfl, rfl, rfl, emission_admitted rfl _ _ _ _ _⟩

/-- RefusedEmissionKeepsTheRowOpen: the same byte with one target refused. -/
theorem witness_refused_emission :
    EngineInv (refusing 0x2002 0x2003 .write (midRow 3)) ∧
    ¬ (refusing 0x2002 0x2003 .write (midRow 3)).emissionAdmitted 0x2000#32 4#32 (fmtOfWord 8#32) 0#32 4 := by
  have h := witness_invariant_row 3 (.inr rfl)
  exact ⟨{ h with latch := h.latch, noFault := h.noFault },
    fun ha => absurd (ha 0x2002#32 ⟨2, by decide, rfl⟩).1 (by decide)⟩

/-- The row of `midRow 3` as one RGBA pixel for BGRA under SRC_OVER, the read of its third byte refused. -/
def overRow : State :=
  refusing 0x2002 0x2003 .read { midRow 3 with
    latch := ⟨1#32, 2#32, fmtOfWord 0x00120608#32, 4#32, 4#32, 32, 4, 4⟩ }

/-- RefusedEmissionKeepsTheRowOpen: every store admitted, a read of the destination refused. -/
theorem witness_refused_read :
    EngineInv overRow ∧
    ¬ overRow.emissionAdmitted overRow.dstAddr overRow.latch.width overRow.latch.fmt overRow.latch.xstep
      overRow.latch.rowBytes ∧
    overRow.platform.firstRefused (emissionAccesses overRow.dstAddr overRow.latch.width overRow.latch.fmt
      overRow.latch.xstep overRow.latch.rowBytes) = some (0x2002#32, .read) ∧
    overRow.platform.admits 0x2002#32 .write = true := by
  have h := witness_invariant_row 3 (.inr rfl)
  refine ⟨{ h with
    latch := fun _ => rfl, live := fun _ => by decide, rowCount := by decide, pos := fun _ => by decide
    posLive := fun _ _ => by decide, prevWritten := fun _ => by decide, noFault := h.noFault },
    fun ha => absurd ((ha 0x2002#32 ⟨0, by decide, 2, by decide, rfl⟩).2 (by decide)) (by decide),
    by decide, by decide⟩

/-- UnfilterDecodesAWholeRow, UnfilterFrame, FilterRoundTrip: a row on the bus, and two rows to encode. -/
theorem witness_whole_row :
    EngineInv (inPass [0x01, 0x10, 0x20, 0x30, 0x40]) ∧
    (inPass [0x01, 0x10, 0x20, 0x30, 0x40]).status.err = false ∧
    (inPass [0x01, 0x10, 0x20, 0x30, 0x40]).filt.phase = .awaitFilter ∧ (5#24).toNat = 1 + (inPass [0x01, 0x10, 0x20, 0x30, 0x40]).latch.rowBytes ∧
    Memory.read (inPass [0x01, 0x10, 0x20, 0x30, 0x40]).mem 0x1000 = filterTypeByte .sub ∧
    (inPass [0x01, 0x10, 0x20, 0x30, 0x40]).admitsRun .read 0x1000#32 5 ∧
    (inPass [0x01, 0x10, 0x20, 0x30, 0x40]).filt.row = 0#32 ∧ [(FilterType.sub, [0x10#8, 0x30, 0x60, 0xA0])].length + 1
      ≤ (inPass [0x01, 0x10, 0x20, 0x30, 0x40]).latch.rows.toNat ∧
    ∀ k ≤ 1, (inPass [0x01, 0x10, 0x20, 0x30, 0x40]).emissionAdmitted (0x2000#32 + BitVec.ofNat 32 k * 4#32) 4#32 (fmtOfWord 8#32) 0#32 4 :=
  ⟨witness_invariant_await, rfl, rfl, rfl, by decide, fun _ _ => rfl, rfl, by decide, fun _ _ => emission_admitted rfl _ _ _ _ _⟩

/-- UnfilterFeedsByteByByte, UnfilterSplitInvariance, AdlerTapFollowsTheFilter, UnfilterFrame: a byte that
goes through, one that faults without an address, and one whose row emission faults with one. -/
theorem witness_unfilter_byte :
    (next? (exec (.unfilterByte 0x01#8) { inPass [] with ctrl := ⟨false, true, false⟩ })).map
      (fun s => (s.status.err, s.adler)) = some (false, 0x00020002#32) ∧
    (next? (exec (.unfilterByte 0x05#8) (inPass []))).map (fun s => (s.status.err, s.status.errAddrValid))
      = some (true, false) ∧
    (next? (exec (.unfilterByte 0x04#8) (refusing 0x2002 0x2003 .write (midRow 3)))).map
      (fun s => (s.status.err, s.status.errAddrValid, s.errAddr)) = some (true, true, 0x2002#32) := by
  decide +kernel

/-! ### The swizzler unit, and the whole machine -/

/-- PalLoadLoadsTriplets: the ends of the range of `n`, and a run of triplets that is admitted. -/
theorem witness_pal_load :
    (0#9).toNat = 0 ∧ 256 < (257#9).toNat ∧ (256#9).toNat ≤ 256 ∧
    (withBytes []).admitsRun .read 0x1000#32 (3 * (256#9).toNat) ∧
    (refusing 0x1004 0x1005 .read (withBytes [])).platform.admits 0x1004#32 .read = false :=
  ⟨rfl, by decide, by decide, fun _ _ => rfl, by decide⟩

/-- SwizzleRowConvertsOneRow, RowsLandPixelByPixel: a good configuration of each destination format with rows
that do not overlap, its emission admitted, an empty row, and a refused access of each kind. -/
theorem witness_swizzle :
    checkConfig 4#32 (fmtOfWord 0x00000008#32) 64 = .ok ⟨4, 1, 8⟩ ∧
    checkConfig 3#32 (fmtOfWord 0x00010004#32) 64 = .ok ⟨2, 1, 4⟩ ∧
    checkConfig 2#32 (fmtOfWord 0x00020208#32) 64 = .ok ⟨6, 3, 24⟩ ∧
    checkConfig 2#32 (fmtOfWord 0x00120208#32) 64 = .ok ⟨6, 3, 24⟩ ∧
    checkConfig 0#32 (fmtOfWord 0x00120208#32) 64 = .ok ⟨0, 3, 24⟩ ∧
    srcFormatOf (fmtOfWord 0x00120208#32) = some ⟨.rgb, .d8⟩ ∧
    (2#32).toNat * (4#32).toNat ≤ 2 ^ 32 ∧
    (swizzleStart 0x00120208#32 2#32 4#32 []).emissionAdmitted 0x2000#32 2#32 (fmtOfWord 0x00120208#32) 4#32 6 ∧
    ¬ (refusing 0x2007 0x2008 .write (withBytes [])).emissionAdmitted 0x2000#32 2#32
      (fmtOfWord 0x00120208#32) 4#32 6 ∧
    ¬ (refusing 0x2007 0x2008 .read (withBytes [])).emissionAdmitted 0x2000#32 2#32
      (fmtOfWord 0x00120208#32) 4#32 6 ∧
    (refusing 0x1005 0x1006 .read (withBytes [])).admitsRun .read 0x1000#32 5 ∧
    (refusing 0x1005 0x1006 .read (withBytes [])).platform.admits 0x1005#32 .read = false := by
  refine ⟨rfl, rfl, rfl, rfl, rfl, rfl, by decide, emission_admitted rfl _ _ _ _ _,
    fun h => absurd (h 0x2007#32 ⟨1, by decide, 3, by decide, rfl⟩).1 (by decide),
    fun h => absurd ((h 0x2007#32 ⟨1, by decide, 3, by decide, rfl⟩).2 (by decide)) (by decide), ?_, by decide⟩
  unfold State.admitsRun
  decide

/-- RowsLandPixelByPixel: the accesses of two pixels that overlap under SRC_OVER, and the byte that the later
of two overlapping Y8 pixels leaves (42_swizzle.md R195). -/
theorem witness_emission_order :
    emissionAccesses 0x2000#32 2#32 (fmtOfWord 0x00120208#32) 1#32 6
      = [(0x2000#32, .read), (0x2001#32, .read), (0x2002#32, .read), (0x2003#32, .read),
         (0x2000#32, .write), (0x2001#32, .write), (0x2002#32, .write), (0x2003#32, .write),
         (0x2001#32, .read), (0x2002#32, .read), (0x2003#32, .read), (0x2004#32, .read),
         (0x2001#32, .write), (0x2002#32, .write), (0x2003#32, .write), (0x2004#32, .write)] ∧
    (next? (exec .swizzleRow (swizzleStart 0x00010008#32 2#32 0#32 [0x77, 0x88]))).map
      (fun s => (bytesAt s 0x2000 2, s.busLog)) = some ([0x88, 0], [(0x2000, 0x88#8), (0x2000, 0x77#8)]) := by
  decide

/-- PixelConversionTable, SampleReadsThePackedRow: samples that exist, the last of their row. -/
theorem witness_samples :
    sample ⟨.gray, .d4⟩ [0x7F, 0x80] 2 0 = some 0x8#16 ∧ sample ⟨.rgb, .d8⟩ [1, 2, 3, 4, 5, 6] 1 2 = some 6#16 ∧
    sample ⟨.grayAlpha, .d16⟩ [1, 2, 3, 4] 0 1 = some 0x0304#16 ∧
    sample ⟨.indexed, .d8⟩ [0xFF] 0 0 = some 0xFF#16 ∧ sample ⟨.rgba, .d8⟩ [1, 2, 3, 4] 0 3 = some 4#16 := by
  decide

/-- UnusedRowBitsAreIgnored: rows that differ beyond their last pixel only. -/
theorem witness_unused_bits :
    (∀ p < (3#32).toNat * (SrcFormat.mk .gray .d4).bpp,
      rowBit [0x7F, 0x80] p = rowBit [0x7F, 0x8F] p) ∧
    srcFormatOf (fmtOfWord 0x00010004#32) = some ⟨.gray, .d4⟩ ∧ (fmtOfWord 0x00010004#32).dstFmt ≠ 0#2 := by
  decide

/-- EveryMemoryChangeIsAnAdmittedBusWrite, CommandsWriteOnlyTheirState, PassIgnoresLiveConfiguration: commands
that write memory, and a PASS_BEGIN that goes through. -/
theorem witness_commands :
    (next? (exec .swizzleRow (swizzleStart 0x00010004#32 3#32 1#32 [0x7F, 0x80]))).map State.busLog
      = some [(0x2002, 0x88#8), (0x2001, 0xFF#8), (0x2000, 0x77#8)] ∧
    (next? (exec .passBegin (swizzleStart 0x00000008#32 4#32 0#32 []))).map (fun s => s.status.err)
      = some false := by decide

end Sys2Proof.Tests
end

/-! ## The register window: what a host access does at an offset, and the bits of CTRL, STATUS, FMT and
FSTATE (spec/10_state.md R20 to R45; spec/43_system.md R221, R222, R224) -/

section Window

namespace Sys2Proof.Machine

/-! ### Offsets and accesses -/

/-- A 32-bit access at a word-aligned offset of the window is in the model (43_system.md R225). -/
theorem accessInModel_w32 {off : Nat} (haligned : off % 4 = 0) (hwindow : off < 0x1000) :
    accessInModel off .w32 = true := by
  simp [accessInModel, haligned, hwindow]

theorem hostEvent_write_w32 {off : Nat} (haligned : off % 4 = 0) (hwindow : off < 0x1000) (v : Word)
    (s : State) : hostEvent (.write off .w32 v) s = mmioWrite off v s :=
  if_pos (accessInModel_w32 haligned hwindow)

theorem hostEvent_read_w32 {off : Nat} (haligned : off % 4 = 0) (hwindow : off < 0x1000) (s : State) :
    hostEvent (.read off .w32) s = .next { s with readData := mmioRead off s } :=
  if_pos (accessInModel_w32 haligned hwindow)

/-- The reserved offsets: below the palette and above it (10_state.md R44). -/
theorem windowReg_reserved {off : Nat} (h : (0x048 ≤ off ∧ off < 0x400) ∨ (0x800 ≤ off ∧ off < 0x1000)) :
    windowReg off = .reserved := by
  have hpal : ¬ (0x400 ≤ off ∧ off < 0x800) := by omega
  have hbelow : ∀ a < 0x048, off ≠ a := by omega
  simp [windowReg, hpal, hbelow]

theorem windowReg_pal {i : Nat} (h : i < 256) : windowReg (0x400 + 4 * i) = .pal (BitVec.ofNat 8 i) := by
  have hpal : 0x400 + 4 * i < 0x800 := by omega
  have hbelow : ∀ a < 0x048, 0x400 + 4 * i ≠ a := by omega
  simp [windowReg, hpal, hbelow]

theorem mmioRead_reserved {off : Nat} (h : windowReg off = .reserved) (s : State) : mmioRead off s = 0#32 := by
  rw [mmioRead, h, regRead]

theorem mmioWrite_reserved {off : Nat} (h : windowReg off = .reserved) (v : Word) (s : State) :
    mmioWrite off v s = .next s := by
  simp [mmioWrite, h, regWrite]

theorem mmioRead_pal {i : Nat} (h : i < 256) (s : State) : mmioRead (0x400 + 4 * i) s = s.pal[i] := by
  simp [mmioRead, windowReg_pal h, regRead, palette, Nat.mod_eq_of_lt h]

/-- The event at the head of the list happens, on the state without it (00_scope.md R14). -/
theorem step_of_inbox {s : State} {e : HostEvent} {rest : List HostEvent} (h : s.inbox = e :: rest) :
    step s = hostEvent e { s with inbox := rest } := by
  simp only [step, takeEvent, h]

theorem hostEvent_write_ctrl (v : Word) (s : State) :
    hostEvent (.write 0x000 .w32 v) s = .next (ctrlWrite v s) := rfl

theorem hostEvent_write_fmt (v : Word) (s : State) :
    hostEvent (.write 0x030 .w32 v) s = .next { s with fmt := fmtOfWord v } := rfl

theorem ctrlWrite_softReset {v : Word} (h : v.getLsbD 0 = true) (s : State) :
    ctrlWrite v s = s.resetEngine := if_pos h

theorem ctrlWrite_store {v : Word} (h : v.getLsbD 0 = false) (s : State) :
    ctrlWrite v s = { s with ctrl := ctrlOfWord v } := by
  simp only [ctrlWrite, h, Bool.false_eq_true, if_false]

/-! ### Words by their fields

A mask is written as the fields it keeps (`allOnes`) and drops (`0`), of the same widths as the fields of the
word, so that `BitVec.and_append` takes it field by field. -/

theorem ctrlWord_and_reserved (c : Ctrl) : ctrlWord c &&& ~~~0x0000000F#32 = 0#32 := by
  change 0#28 ++ BitVec.ofBool c.errIe ++ BitVec.ofBool c.adlerTap ++ BitVec.ofBool c.ignoreChecksum ++ 0#1 &&&
    BitVec.allOnes 28 ++ 0#1 ++ 0#1 ++ 0#1 ++ 0#1 = 0#28 ++ 0#1 ++ 0#1 ++ 0#1 ++ 0#1
  simp only [BitVec.and_append, BitVec.zero_and, BitVec.and_zero]

theorem statusWord_and_reserved (st : Status) (irq : Bool) : statusWord st irq &&& ~~~0x0000FF3F#32 = 0#32 := by
  change 0#16 ++ st.errCode ++ 0#2 ++ BitVec.ofBool irq ++ BitVec.ofBool st.chkLog ++
      BitVec.ofBool st.adlerMatch ++ BitVec.ofBool st.crcMatch ++ BitVec.ofBool st.errAddrValid ++
      BitVec.ofBool st.err &&&
    BitVec.allOnes 16 ++ 0#8 ++ BitVec.allOnes 2 ++ 0#1 ++ 0#1 ++ 0#1 ++ 0#1 ++ 0#1 ++ 0#1 =
    0#16 ++ 0#8 ++ 0#2 ++ 0#1 ++ 0#1 ++ 0#1 ++ 0#1 ++ 0#1 ++ 0#1
  simp only [BitVec.and_append, BitVec.zero_and, BitVec.and_zero]

theorem fmtWord_and_reserved (f : Fmt) : fmtWord f &&& ~~~0x0013071F#32 = 0#32 := by
  change 0#11 ++ f.blend ++ 0#2 ++ f.dstFmt ++ 0#5 ++ f.srcCt ++ 0#3 ++ f.srcDepth &&&
    BitVec.allOnes 11 ++ 0#1 ++ BitVec.allOnes 2 ++ 0#2 ++ BitVec.allOnes 5 ++ 0#3 ++ BitVec.allOnes 3 ++ 0#5 =
    0#11 ++ 0#1 ++ 0#2 ++ 0#2 ++ 0#5 ++ 0#3 ++ 0#3 ++ 0#5
  simp only [BitVec.and_append, BitVec.zero_and, BitVec.and_zero]

theorem fstateWord_and_reserved (f : Filt) : fstateWord f &&& ~~~0x0000003F#32 = 0#32 := by
  change 0#26 ++ BitVec.ofBool f.first ++ filterNumber f.ftype ++ phaseNumber f.phase &&&
    BitVec.allOnes 26 ++ 0#1 ++ 0#3 ++ 0#2 = 0#26 ++ 0#1 ++ 0#3 ++ 0#2
  simp only [BitVec.and_append, BitVec.zero_and, BitVec.and_zero]

theorem extractLsb'_one_eq_ofBool (v : Word) (i : Nat) : v.extractLsb' i 1 = BitVec.ofBool (v.getLsbD i) := by
  ext j hj
  obtain rfl : j = 0 := by omega
  simp

/-- A word is its fields as CTRL divides it (10_state.md R21). -/
theorem append_ctrlFields (v : Word) :
    (v.extractLsb' 4 28 ++ v.extractLsb' 3 1 ++ v.extractLsb' 2 1 ++ v.extractLsb' 1 1 ++
      v.extractLsb' 0 1 :) = v := by
  simp (disch := decide) only [BitVec.extractLsb'_append_extractLsb'_eq_extractLsb']
  exact BitVec.extractLsb'_eq_self

/-- A word is its fields as FMT divides it (10_state.md R33). -/
theorem append_fmtFields (v : Word) :
    (v.extractLsb' 21 11 ++ v.extractLsb' 20 1 ++ v.extractLsb' 18 2 ++ v.extractLsb' 16 2 ++
      v.extractLsb' 11 5 ++ v.extractLsb' 8 3 ++ v.extractLsb' 5 3 ++ v.extractLsb' 0 5 :) = v := by
  simp (disch := decide) only [BitVec.extractLsb'_append_extractLsb'_eq_extractLsb']
  exact BitVec.extractLsb'_eq_self

/-- CTRL stores its three bits and reads back nothing else. -/
theorem ctrlWord_ctrlOfWord (v : Word) : ctrlWord (ctrlOfWord v) = v &&& 0x0000000E#32 := by
  conv_rhs => rw [← append_ctrlFields v]
  change _ = (_ &&& (0#28 ++ BitVec.allOnes 1 ++ BitVec.allOnes 1 ++ BitVec.allOnes 1 ++ 0#1) :)
  simp only [BitVec.and_append, BitVec.and_zero, BitVec.and_allOnes, extractLsb'_one_eq_ofBool]
  rfl

/-- FMT stores its four fields and reads back nothing else. -/
theorem fmtWord_fmtOfWord (v : Word) : fmtWord (fmtOfWord v) = v &&& 0x0013071F#32 := by
  conv_rhs => rw [← append_fmtFields v]
  change _ = (_ &&& (0#11 ++ BitVec.allOnes 1 ++ 0#2 ++ BitVec.allOnes 2 ++ 0#5 ++ BitVec.allOnes 3 ++
    0#3 ++ BitVec.allOnes 5) :)
  simp only [BitVec.and_append, BitVec.and_zero, BitVec.and_allOnes]
  rfl

/-- A write to CTRL looks at bits 3:0 only, SOFT_RESET among them. -/
theorem ctrlWrite_and_mask (v : Word) (s : State) : ctrlWrite (v &&& 0x0000000F#32) s = ctrlWrite v s := by
  simp [ctrlWrite, ctrlOfWord]

/-- A write to FMT looks at its four fields only. -/
theorem fmtOfWord_and_mask (v : Word) : fmtOfWord (v &&& 0x0013071F#32) = fmtOfWord v := by
  have hmask : fmtOfWord 0x0013071F#32 =
      ⟨BitVec.allOnes 5, BitVec.allOnes 3, BitVec.allOnes 2, BitVec.allOnes 1⟩ := by decide
  simp only [fmtOfWord, Fmt.mk.injEq] at hmask ⊢
  obtain ⟨hdepth, hct, hdst, hblend⟩ := hmask
  simp only [BitVec.extractLsb'_and, hdepth, hct, hdst, hblend, BitVec.and_allOnes, and_self]

/-! ### Reset -/

/-- Reset puts the engine into the values of 10_state.md R49, whatever state it was in. -/
theorem resetTable_resetEngine (s : State) : ResetTable s.resetEngine where
  ctrl := (by decide : ctrlWord State.reset.ctrl = 0x00000000#32)
  status := (by decide : statusWord State.reset.status State.reset.irq = 0x00000000#32)
  errAddr := rfl
  crc := rfl
  adler := rfl
  pointers := ⟨rfl, rfl, rfl, rfl⟩
  config := ⟨rfl, rfl, (by decide : fmtWord State.reset.fmt = 0#32)⟩
  fstate := (by decide : fstateWord State.reset.filt = 0x00000020#32)
  views := ⟨rfl, rfl, rfl, rfl⟩
  pal := fun i hi => by
    rw [mmioRead_pal hi]
    exact Vector.getElem_replicate hi
  latch := rfl
  irq := rfl

/-! ### The obligations -/

/-- Settles O17: the masks field by field, and the accesses at reserved offsets. -/
theorem reservedBitsAndOffsets : Obligations.ReservedBitsAndOffsets := by
  intro s
  refine ⟨ctrlWord_and_reserved _, statusWord_and_reserved _ _, fmtWord_and_reserved _,
    fstateWord_and_reserved _, ?ctrlMasked, ?fmtMasked, fun _ => ⟨rfl, rfl⟩, ?ctrlStores,
    fun v => ⟨_, hostEvent_write_fmt v s, fmtWord_fmtOfWord v⟩, ?reservedOffsets⟩
  case ctrlMasked =>
    intro v w h
    rw [hostEvent_write_ctrl, hostEvent_write_ctrl, ← ctrlWrite_and_mask v, h, ctrlWrite_and_mask]
  case fmtMasked =>
    intro v w h
    rw [hostEvent_write_fmt, hostEvent_write_fmt, ← fmtOfWord_and_mask v, h, fmtOfWord_and_mask]
  case ctrlStores =>
    intro v h
    refine ⟨_, hostEvent_write_ctrl v s, ?_⟩
    rw [ctrlWrite_store h]
    exact ctrlWord_ctrlOfWord v
  case reservedOffsets =>
    intro off haligned hrange
    have hwindow : off < 0x1000 := by omega
    have hreserved : windowReg off = .reserved := windowReg_reserved (by omega)
    constructor
    · rw [hostEvent_read_w32 haligned hwindow, mmioRead_reserved hreserved]
    · intro v
      rw [hostEvent_write_w32 haligned hwindow, mmioWrite_reserved hreserved]

/-- Settles O10: both resets are `resetEngine`, and the reset state is its own reset. -/
theorem resetValues : Obligations.ResetValues := by
  refine ⟨resetTable_resetEngine State.reset, fun rest s => ⟨fun hpower => ?_, fun v hbit hsoft => ?_⟩⟩
  · exact ⟨_, step_of_inbox hpower, resetTable_resetEngine _⟩
  · refine ⟨_, (step_of_inbox hsoft).trans (hostEvent_write_ctrl v _), ?_⟩
    rw [ctrlWrite_softReset hbit]
    exact resetTable_resetEngine _

end Sys2Proof.Machine

end Window

/-! ## Encoding: which words select which command, which are illegal, and what the operand fields are
(spec/30_encoding.md R80 to R86) -/

section Encoding

namespace Sys2Proof

/-! ### A word by its fields -/

/-- A word is OP and its operand field (30_encoding.md R80). -/
theorem opField_append_lenField (w : Word) : (opField w ++ lenField w : Word) = w := by
  simp (disch := decide) only [opField, lenField, BitVec.extractLsb'_append_extractLsb'_eq_extractLsb']
  exact BitVec.extractLsb'_eq_self

theorem imm8Field_toNat (w : Word) : (imm8Field w).toNat = w.toNat % 2 ^ 8 := by
  simp [imm8Field]

theorem lenField_toNat (w : Word) : (lenField w).toNat = w.toNat % 2 ^ 24 := by
  simp [lenField]

theorem nField_toNat (w : Word) : (nField w).toNat = w.toNat % 2 ^ 9 := by
  simp [nField]

/-- Two fields agree when the words they make up agree. -/
theorem append_eq_append_iff {op op' : Byte} {x x' : BitVec 24} :
    (op ++ x : Word) = op' ++ x' ↔ op = op' ∧ x = x' := by
  constructor
  · intro h
    have hnum := congrArg BitVec.toNat h
    rw [word_toNat, word_toNat] at hnum
    exact ⟨BitVec.eq_of_toNat_eq (by omega), BitVec.eq_of_toNat_eq (by omega)⟩
  · rintro ⟨rfl, rfl⟩
    rfl

/-! ### The mask of a form -/

/-- Every form fixes the whole of OP (30_encoding.md R81). -/
theorem Form.mask_eq_append (f : Form) : f.mask = BitVec.allOnes 8 ++ lenField f.mask := by
  cases f <;> rfl

/-- The bits of a word that its form fixes: OP and the reserved bits of the operand field. -/
theorem and_mask_eq_append (w : Word) (f : Form) :
    w &&& f.mask = opField w ++ (lenField w &&& lenField f.mask) := by
  conv_lhs => rw [← opField_append_lenField w, Form.mask_eq_append f]
  rw [BitVec.and_append, BitVec.and_allOnes]

/-- The reserved bits of a form, as R84 takes them out of a word. -/
theorem reservedBits_eq_zero_iff {w : Word} {f : Form} :
    w &&& f.mask &&& 0x00FFFFFF#32 = 0#32 ↔ lenField w &&& lenField f.mask = 0#24 := by
  have hoperand : (0x00FFFFFF#32 : Word) = 0#8 ++ BitVec.allOnes 24 := rfl
  have hzero : (0#32 : Word) = 0#8 ++ 0#24 := rfl
  rw [and_mask_eq_append, hoperand, BitVec.and_append, BitVec.and_zero, BitVec.and_allOnes, hzero,
    append_eq_append_iff, and_iff_right rfl]

/-- The selection rule of R83 is the two tests of R86: OP, and the reserved bits. -/
theorem and_mask_eq_word_iff {w : Word} {o : Opcode} :
    w &&& o.form.mask = o.word ↔ o.number = opField w ∧ w &&& o.form.mask &&& 0x00FFFFFF#32 = 0#32 := by
  rw [reservedBits_eq_zero_iff, and_mask_eq_append, Opcode.word, append_eq_append_iff, eq_comm (a := opField w)]

theorem Opcode.word_eq_shiftLeft (o : Opcode) : o.word = o.number.setWidth 32 <<< 24 := by
  cases o <;> rfl

/-! ### Opcodes and decoding -/

theorem Opcode.number_injective {o o' : Opcode} (h : o.number = o'.number) : o = o' := by
  have hfound := opcodeOf_number o
  rw [h, opcodeOf_number] at hfound
  exact (Option.some.inj hfound).symm

/-- What holds of every opcode is what holds along the table of R83. -/
theorem Opcode.forall_iff_forall_mem_all {p : Opcode → Prop} : (∀ o, p o) ↔ ∀ o ∈ Opcode.all, p o :=
  ⟨fun h o _ => h o, fun h o => h o (by cases o <;> decide)⟩

/-- A word that a command's opcode selects decodes to that command. -/
theorem decode_of_and_mask {w : Word} {o : Opcode} (h : w &&& o.form.mask = o.word) :
    decode w = .ok (o.instr w) :=
  decode_ok.mpr ⟨o, (and_mask_eq_word_iff.mp h).1, h, rfl⟩

/-- A decoded command is its own opcode's, with the fields of the word (30_encoding.md R82). -/
theorem instr_of_decode {w : Word} {i : Instr} (h : decode w = .ok i) : i.opcode.instr w = i := by
  obtain ⟨o, -, -, rfl⟩ := decode_ok.mp h
  rw [Opcode.opcode_instr]

/-- The words of a command are those its opcode selects (30_encoding.md R83). -/
theorem decode_opcode_iff {w : Word} {o : Opcode} :
    (∃ i, decode w = .ok i ∧ i.opcode = o) ↔ w &&& o.form.mask = o.word := by
  constructor
  · rintro ⟨i, hdecode, rfl⟩
    obtain ⟨o, -, hmask, rfl⟩ := decode_ok.mp hdecode
    rwa [Opcode.opcode_instr]
  · exact fun hmask => ⟨o.instr w, decode_of_and_mask hmask, Opcode.opcode_instr o w⟩

/-- The gaps of the table of R83 (30_encoding.md R84). -/
theorem undefinedOpcode_iff (op : Byte) : (∀ o : Opcode, o.number ≠ op) ↔
    (0x05 ≤ op.toNat ∧ op.toNat ≤ 0x07) ∨ (0x0C ≤ op.toNat ∧ op.toNat ≤ 0x0F) ∨
      (0x13 ≤ op.toNat ∧ op.toNat ≤ 0x17) ∨ 0x1A ≤ op.toNat := by
  rw [Opcode.forall_iff_forall_mem_all]
  simp only [Opcode.all, List.forall_mem_cons, List.not_mem_nil, false_imp_iff, implies_true, and_true,
    Opcode.number, ne_eq, ← BitVec.toNat_inj, BitVec.toNat_ofNat]
  omega

/-- Every count of PAL_LOAD has its word, the ill-formed ones too (30_encoding.md R86 step 4). -/
theorem decode_palLoadWord (n : BitVec 9) : decode (0x18#8 ++ 0#15 ++ n) = .ok (.palLoad n) := by
  have hmask : (0x18#8 ++ 0#15 ++ n :) &&& Opcode.palLoad.form.mask = Opcode.palLoad.word := by
    change (0x18#8 ++ 0#15 ++ n :) &&& BitVec.allOnes 8 ++ BitVec.allOnes 15 ++ 0#9 = 0x18#8 ++ 0#15 ++ 0#9
    simp only [BitVec.and_append, BitVec.and_allOnes, BitVec.and_zero]
  have hn : nField (0x18#8 ++ 0#15 ++ n) = n := BitVec.extractLsb'_append_eq_right
  rw [decode_of_and_mask hmask, Opcode.instr, hn]

end Sys2Proof

namespace Sys2Proof.Machine

/-! ### Illegal words and the CMD port -/

/-- A word is illegal when it decodes to no command (30_encoding.md R84, R85). -/
theorem illegalWord_iff (w : Word) : IllegalWord w ↔ ∀ i, decode w ≠ .ok i := by
  constructor
  · intro hillegal i hdecode
    obtain ⟨o, hnumber, hmask, -⟩ := decode_ok.mp hdecode
    obtain hundefined | ⟨o', hnumber', hreserved⟩ := hillegal
    · exact hundefined o hnumber
    · obtain rfl : o = o' := Opcode.number_injective (hnumber.trans hnumber'.symm)
      exact hreserved (and_mask_eq_word_iff.mp hmask).2
  · intro hdecode
    by_cases hdefined : ∃ o : Opcode, o.number = opField w
    · obtain ⟨o, hnumber⟩ := hdefined
      exact .inr ⟨o, hnumber, fun hzero =>
        hdecode _ (decode_of_and_mask (and_mask_eq_word_iff.mpr ⟨hnumber, hzero⟩))⟩
    · exact .inl (not_exists.mp hdefined)

theorem cmdWrite_of_decode {w : Word} {i : Instr} {s : State} (herr : s.status.err = false)
    (hdecode : decode w = .ok i) : cmdWrite w s = exec i s := by
  simp [cmdWrite, herr, hdecode]

theorem cmdWrite_of_illegalWord {w : Word} {s : State} (herr : s.status.err = false) (hw : IllegalWord w) :
    cmdWrite w s = .next (s.enterFault .badCmd none) := by
  cases hdecode : decode w with
  | error e => simp [cmdWrite, herr, hdecode]
  | ok i => exact absurd hdecode ((illegalWord_iff w).mp hw i)

theorem exec_palLoad_badCount {n : BitVec 9} (h : n.toNat = 0 ∨ 256 < n.toNat) (s : State) :
    exec (.palLoad n) s = .next (s.enterFault .badCmd none) := by
  have hbad : n = 0#9 ∨ 256#9 < n := h.imp (fun h0 => BitVec.eq_of_toNat_eq h0) BitVec.lt_def.mpr
  simp only [exec, execPalLoad, if_pos hbad, Res.toOutcome_raise]

/-! ### The obligations -/

/-- Settles O3: the tables entry by entry, and the selection rule through the decoder's two tests. -/
theorem wordSelectsItsCommand : Obligations.WordSelectsItsCommand := by
  refine ⟨fun o => by cases o <;> decide, fun f mask hform o ho w => ?_⟩
  have hmask : f.mask = mask := by
    simp only [List.mem_cons, Prod.mk.injEq, List.not_mem_nil, or_false] at hform
    obtain ⟨rfl, rfl⟩ | ⟨rfl, rfl⟩ | ⟨rfl, rfl⟩ | ⟨rfl, rfl⟩ | ⟨rfl, rfl⟩ := hform <;> rfl
  rw [← Opcode.word_eq_shiftLeft, ← hmask, ← ho]
  exact decode_opcode_iff

/-- Settles O4: the gaps of the opcode table, illegality as the decoder sees it, and the two faults. -/
theorem illegalWordFaults : Obligations.IllegalWordFaults := by
  refine ⟨undefinedOpcode_iff, illegalWord_iff, fun w s hw herr => cmdWrite_of_illegalWord herr hw,
    fun n s hcount => ⟨exec_palLoad_badCount hcount s, fun herr => ?_⟩⟩
  rw [cmdWrite_of_decode herr (decode_palLoadWord n), exec_palLoad_badCount hcount]

/-- Settles O5: the operand of a decoded command is a field of its word, and each field is a residue. -/
theorem operandFieldsAreWordBits : Obligations.OperandFieldsAreWordBits := by
  intro w i hdecode
  have hi := instr_of_decode hdecode
  refine ⟨?imm8, ?len, ?k, ?n⟩
  case imm8 =>
    rintro v (rfl | rfl | rfl) <;> cases hi <;> exact imm8Field_toNat w
  case len =>
    rintro len (rfl | rfl | rfl) <;> cases hi <;> exact lenField_toNat w
  case k =>
    rintro k (rfl | rfl) <;> cases hi <;> rfl
  case n =>
    rintro n rfl
    cases hi
    exact nField_toNat w

end Sys2Proof.Machine

end Encoding

/-! ## The checksum unit: its commands, its checks, and the Adler tap (spec/40_checksum.md R100 to R115) -/

section ChecksumUnit

namespace Sys2Proof.Machine

/-! ### Reserved bits, by form (30_encoding.md R81, R84) -/

theorem lenField_append (op : Byte) (x : BitVec 24) : lenField (op ++ x) = x :=
  BitVec.extractLsb'_append_eq_right

/-- A reserved operand bit makes the word of a defined opcode illegal. -/
theorem cmdWrite_of_reservedBits {o : Opcode} {x : BitVec 24} {s : State} (herr : s.status.err = false)
    (h : x &&& lenField o.form.mask ≠ 0#24) : cmdWrite (o.number ++ x) s = .next (s.enterFault .badCmd none) := by
  refine cmdWrite_of_illegalWord herr (.inr ⟨o, (opField_append o.number x).symm, fun hzero => h ?_⟩)
  simpa only [lenField_append] using reservedBits_eq_zero_iff.mp hzero

/-- Of a field above an operand, a mask that drops the operand keeps everything. -/
theorem append_and_highMask_eq_zero_iff {n m : Nat} (x : BitVec n) (v : BitVec m) :
    (x ++ v) &&& (BitVec.allOnes n ++ 0#m) = 0#n ++ 0#m ↔ x = 0#n := by
  rw [BitVec.and_append, BitVec.and_allOnes, BitVec.and_zero, BitVec.append_left_inj]

/-- Form Z has no operand bit: all of bits 23:0 are reserved. -/
theorem cmdWrite_formZ_reserved {o : Opcode} {x : BitVec 24} {s : State} (ho : o.form = .z) (hx : x ≠ 0#24)
    (herr : s.status.err = false) : cmdWrite (o.number ++ x) s = .next (s.enterFault .badCmd none) := by
  refine cmdWrite_of_reservedBits herr ?_
  have hmask : lenField o.form.mask = BitVec.allOnes 24 := by rw [ho]; rfl
  rwa [hmask, BitVec.and_allOnes]

/-- Form B reserves bits 23:8. -/
theorem cmdWrite_formB_reserved {o : Opcode} {x : BitVec 16} {s : State} (ho : o.form = .b) (hx : x ≠ 0#16)
    (herr : s.status.err = false) (v : Byte) :
    cmdWrite (o.number ++ x ++ v) s = .next (s.enterFault .badCmd none) := by
  have hword : o.number ++ x ++ v = o.number ++ (x ++ v) := BitVec.append_assoc
  have hmask : lenField o.form.mask = BitVec.allOnes 16 ++ 0#8 := by rw [ho]; rfl
  rw [hword]
  refine cmdWrite_of_reservedBits herr ?_
  rw [hmask]
  exact mt (append_and_highMask_eq_zero_iff x v).mp hx

/-- Form K reserves bits 23:1. -/
theorem cmdWrite_formK_reserved {o : Opcode} {x : BitVec 23} {s : State} (ho : o.form = .k) (hx : x ≠ 0#23)
    (herr : s.status.err = false) (k : Bool) :
    cmdWrite (o.number ++ x ++ BitVec.ofBool k) s = .next (s.enterFault .badCmd none) := by
  have hword : o.number ++ x ++ BitVec.ofBool k = o.number ++ (x ++ BitVec.ofBool k) := BitVec.append_assoc
  have hmask : lenField o.form.mask = BitVec.allOnes 23 ++ 0#1 := by rw [ho]; rfl
  rw [hword]
  refine cmdWrite_of_reservedBits herr ?_
  rw [hmask]
  exact mt (append_and_highMask_eq_zero_iff x (BitVec.ofBool k)).mp hx

/-- The word of a form B command: OP, 16 reserved bits, the byte (30_encoding.md R81). -/
theorem append_setWidth_byte (op v : Byte) : op ++ v.setWidth 24 = op ++ 0#16 ++ v := by
  have hbyte : v.setWidth 24 = 0#16 ++ v := BitVec.setWidth_eq_append (by decide)
  have hword : op ++ 0#16 ++ v = op ++ (0#16 ++ v) := BitVec.append_assoc
  rw [hbyte, hword]

/-! ### Adler-32 in its two sums (R102, R103) -/

/-- One byte on a value of two halves. -/
theorem adler32Byte_append (hi lo : BitVec 16) (v : Byte) :
    adler32Byte (hi ++ lo) v =
      BitVec.ofNat 16 ((hi.toNat + (lo.toNat + v.toNat) % adlerModulus) % adlerModulus) ++
        BitVec.ofNat 16 ((lo.toNat + v.toNat) % adlerModulus) := by
  have hhi : (hi ++ lo).extractLsb' 16 16 = hi := BitVec.extractLsb'_append_eq_left
  have hlo : (hi ++ lo).extractLsb' 0 16 = lo := BitVec.extractLsb'_append_eq_right
  simp only [adler32Byte, hhi, hlo]

theorem adler32_concat (a : Word) (vs : List Byte) (v : Byte) :
    adler32 a (vs ++ [v]) = adler32Byte (adler32 a vs) v := List.foldl_concat _ _ _ _

theorem byteSum_concat (vs : List Byte) (v : Byte) : byteSum (vs ++ [v]) = byteSum vs + v.toNat := by
  simp [byteSum]

/-- The sums that a last byte leaves, and one more: that of the whole sequence. -/
theorem prefixSum_concat (vs : List Byte) (v : Byte) :
    prefixSum (vs ++ [v]) = prefixSum vs + (1 + byteSum (vs ++ [v])) := by
  have hshorter : ∀ i ∈ List.range vs.length,
      1 + byteSum ((vs ++ [v]).take (i + 1)) = 1 + byteSum (vs.take (i + 1)) := by
    intro i hi
    rw [List.take_append_of_le_length (List.mem_range.mp hi)]
  have hwhole : (vs ++ [v]).take (vs.length + 1) = vs ++ [v] := List.take_of_length_le (by simp)
  rw [prefixSum, List.length_append, List.length_singleton, List.range_succ, List.map_append, List.sum_append,
    List.map_congr_left hshorter, List.map_singleton, List.sum_singleton, hwhole, prefixSum]

/-- The Adler-32 of a sequence, from its two sums: `s1` sums the bytes, `s2` the values of `s1`. -/
theorem adler32_one_eq_sums (vs : List Byte) :
    adler32 1#32 vs =
      BitVec.ofNat 16 (prefixSum vs % adlerModulus) ++ BitVec.ofNat 16 ((1 + byteSum vs) % adlerModulus) := by
  induction vs using List.reverseRecOn with
  | nil => rfl
  | append_singleton vs v ih =>
    have hhalf : ∀ n, (BitVec.ofNat 16 (n % adlerModulus)).toNat = n % adlerModulus := fun n =>
      Nat.mod_eq_of_lt ((Nat.mod_lt n (by decide)).trans (by decide))
    rw [adler32_concat, ih, adler32Byte_append, hhalf, hhalf, prefixSum_concat, byteSum_concat]
    simp only [Nat.mod_add_mod, Nat.add_mod_mod, Nat.add_assoc]

theorem byteSum_replicate (n : Nat) (v : Byte) : byteSum (List.replicate n v) = n * v.toNat := by
  simp [byteSum]

theorem prefixSum_replicate (n : Nat) (v : Byte) :
    prefixSum (List.replicate n v) = n + (n + 1).choose 2 * v.toNat := by
  induction n with
  | zero => simp [prefixSum]
  | succ n ih =>
    have htriangle : (n + 2).choose 2 = (n + 1) + (n + 1).choose 2 := by
      rw [Nat.choose_succ_succ', Nat.choose_one_right]
    rw [List.replicate_succ', prefixSum_concat, ih, ← List.replicate_succ', byteSum_replicate, htriangle]
    ring

/-- The Adler-32 of a run of equal bytes. -/
theorem adler32_one_replicate (n : Nat) (v : Byte) :
    adler32 1#32 (List.replicate n v) =
      BitVec.ofNat 16 ((n + (n + 1) * n / 2 * v.toNat) % adlerModulus) ++
        BitVec.ofNat 16 ((1 + n * v.toNat) % adlerModulus) := by
  rw [adler32_one_eq_sums, prefixSum_replicate, byteSum_replicate, Nat.choose_two_right, Nat.add_sub_cancel]

/-! ### CRC_MEM and ADLER_MEM -/

theorem exec_crcMem_admitted {len : BitVec 24} {s : State} (h : s.admitsRun .read s.srcAddr len.toNat) :
    exec (.crcMem len) s = .next { s with
      crc := crc32 s.crc (s.bytesFrom s.srcAddr len.toNat)
      srcAddr := s.srcAddr + BitVec.ofNat 32 len.toNat } := by
  rw [exec, execCrcMem, feedCrc_stream.streamBytes_ok h, foldl_feedCrc]
  rfl

theorem exec_crcMem_refused {len : BitVec 24} {n : Nat} {s : State} (hn : n < len.toNat)
    (h : s.admitsRun .read s.srcAddr n) (hr : s.platform.admits (s.srcAddr + BitVec.ofNat 32 n) .read = false) :
    exec (.crcMem len) s = .next (State.enterFault { s with
      crc := crc32 s.crc (s.bytesFrom s.srcAddr n)
      srcAddr := s.srcAddr + BitVec.ofNat 32 n } .bus (some (s.srcAddr + BitVec.ofNat 32 n))) := by
  rw [exec, execCrcMem, feedCrc_stream.streamBytes_refused hn h hr, foldl_feedCrc]
  rfl

theorem exec_adlerMem_admitted {len : BitVec 24} {s : State} (h : s.admitsRun .read s.srcAddr len.toNat) :
    exec (.adlerMem len) s = .next { s with
      adler := adler32 s.adler (s.bytesFrom s.srcAddr len.toNat)
      srcAddr := s.srcAddr + BitVec.ofNat 32 len.toNat } := by
  rw [exec, execAdlerMem, feedAdler_stream.streamBytes_ok h, foldl_feedAdler]
  rfl

theorem exec_adlerMem_refused {len : BitVec 24} {n : Nat} {s : State} (hn : n < len.toNat)
    (h : s.admitsRun .read s.srcAddr n) (hr : s.platform.admits (s.srcAddr + BitVec.ofNat 32 n) .read = false) :
    exec (.adlerMem len) s = .next (State.enterFault { s with
      adler := adler32 s.adler (s.bytesFrom s.srcAddr n)
      srcAddr := s.srcAddr + BitVec.ofNat 32 n } .bus (some (s.srcAddr + BitVec.ofNat 32 n))) := by
  rw [exec, execAdlerMem, feedAdler_stream.streamBytes_refused hn h hr, foldl_feedAdler]
  rfl

/-! ### The check of a trailer, one lemma per branch (R105, R110, R114) -/

theorem mismatchFatal_eq_true_iff {k : Bool} {c : Ctrl} :
    mismatchFatal k c = true ↔ k = true ∧ c.ignoreChecksum = false := by
  simp [mismatchFatal]

section Trailer

variable {running : State → Word} {setMatch : State → Bool → State} {code : ErrCode} {k : Bool} {s : State}

theorem checkTrailer_match (h : s.admitsRun .read s.srcAddr 4) (heq : s.trailerAt s.srcAddr = running s) :
    (checkTrailer running setMatch code k s).toOutcome = .next ((setMatch s true).advanceSrc 4) := by
  rw [checkTrailer_admitted h, if_pos heq, Res.toOutcome_ok]

theorem checkTrailer_fatal (h : s.admitsRun .read s.srcAddr 4) (hne : s.trailerAt s.srcAddr ≠ running s)
    (hfatal : k = true ∧ s.ctrl.ignoreChecksum = false) :
    (checkTrailer running setMatch code k s).toOutcome
      = .next ((setMatch s false).enterFault code (some s.srcAddr)) := by
  rw [checkTrailer_admitted h, if_neg hne, if_pos (mismatchFatal_eq_true_iff.mpr hfatal), Res.toOutcome_raise]

theorem checkTrailer_logged (h : s.admitsRun .read s.srcAddr 4) (hne : s.trailerAt s.srcAddr ≠ running s)
    (hlogged : k = false ∨ s.ctrl.ignoreChecksum = true) :
    (checkTrailer running setMatch code k s).toOutcome
      = .next ((setMatch s false).setChkLog.advanceSrc 4) := by
  have hfatal : ¬ mismatchFatal k s.ctrl = true := by
    rw [mismatchFatal_eq_true_iff]
    rintro ⟨hk, hquirk⟩
    simp [hk, hquirk] at hlogged
  rw [checkTrailer_admitted h, if_neg hne, if_neg hfatal, Res.toOutcome_ok]

theorem checkTrailer_refused {n : Nat} (hn : n < 4) (h : s.admitsRun .read s.srcAddr n)
    (hr : s.platform.admits (s.srcAddr + BitVec.ofNat 32 n) .read = false) :
    (checkTrailer running setMatch code k s).toOutcome
      = .next (s.enterFault .bus (some (s.srcAddr + BitVec.ofNat 32 n))) := by
  rw [checkTrailer, readTrailer_refused hn h hr, Res.bind_raise, Res.toOutcome_raise]

/-- A mismatch writes the MATCH bit, and either faults or is logged; which of the two, R105 says. -/
theorem checkTrailer_mismatch (h : s.admitsRun .read s.srcAddr 4) (hne : s.trailerAt s.srcAddr ≠ running s)
    (herr : (setMatch s false).status.err = false) :
    ∃ t, (checkTrailer running setMatch code k s).toOutcome = .next t ∧
      (t.status.err = true ↔ k = true ∧ s.ctrl.ignoreChecksum = false) ∧
      t.status.crcMatch = (setMatch s false).status.crcMatch ∧
      t.status.adlerMatch = (setMatch s false).status.adlerMatch ∧
      (t.status.err = false → t.status.chkLog = true) := by
  by_cases hfatal : k = true ∧ s.ctrl.ignoreChecksum = false
  · exact ⟨_, checkTrailer_fatal h hne hfatal, iff_of_true rfl hfatal, rfl, rfl, fun hno => absurd hno (by simp)⟩
  · have hlogged : k = false ∨ s.ctrl.ignoreChecksum = true := by
      simpa only [not_and_or, Bool.not_eq_true, Bool.not_eq_false] using hfatal
    exact ⟨_, checkTrailer_logged h hne hlogged, iff_of_false (by simpa using herr) hfatal, rfl, rfl,
      fun _ => rfl⟩

end Trailer

/-! ### CTRL.IGNORE_CHECKSUM (R104) -/

/-- A state with the quirk set or cleared. -/
def State.setIgnoreChecksum (b : Bool) (s : State) : State :=
  { s with ctrl := { s.ctrl with ignoreChecksum := b } }

/-- The bus, row emission and the filter unit neither read nor write the quirk. -/
theorem setIgnoreChecksum_unrelated (b : Bool) : UnrelatedFilter (State.setIgnoreChecksum b) where
  platform _ := rfl
  mem _ := rfl
  busLog _ := rfl
  pal _ := rfl
  dstAddr _ := rfl
  store _ _ _ := rfl
  enterFault _ _ _ := rfl
  filt _ := rfl
  latch _ := rfl
  cur _ := rfl
  prev _ := rfl
  tap _ := rfl
  start _ _ := rfl
  payload _ _ := rfl
  finish _ _ := rfl
  feed _ _ := rfl

/-- A command whose pseudocode goes through a change of the state goes through it as a whole. -/
theorem toOutcome_eq_mapNext {g : State → State} {r r' : Res Unit} (h : r' = r.mapState g) :
    r'.toOutcome = mapNext g r.toOutcome := by
  rw [h, Res.toOutcome_mapState]

/-- One triplet of PAL_LOAD does not depend on the quirk. -/
theorem loadPalEntry_setIgnoreChecksum (b : Bool) (i : Nat) (s : State) :
    loadPalEntry i (s.setIgnoreChecksum b) = (loadPalEntry i s).mapState (State.setIgnoreChecksum b) := by
  have hg := (setIgnoreChecksum_unrelated b).toUnrelated
  exact Res.bind_mapState (busRead_mapState hg _ s) fun _ s =>
    Res.bind_mapState (busRead_mapState hg _ s) fun _ s =>
      Res.bind_mapState (busRead_mapState hg _ s) fun _ _ => rfl

/-- No command but the two checks depends on the quirk. -/
theorem exec_setIgnoreChecksum {i : Instr} (hcrc : ∀ k, i ≠ .crcCheck k) (hadler : ∀ k, i ≠ .adlerCheck k)
    (b : Bool) (s : State) :
    exec i (s.setIgnoreChecksum b) = mapNext (State.setIgnoreChecksum b) (exec i s) := by
  have hg := (setIgnoreChecksum_unrelated b).toUnrelated
  cases i with
  | nop | crcInit | crcByte _ | adlerInit | adlerByte _ => rfl
  | crcCheck k => exact absurd rfl (hcrc k)
  | adlerCheck k => exact absurd rfl (hadler k)
  | crcMem len | adlerMem len =>
    exact toOutcome_eq_mapNext (streamBytes_mapState hg (fun _ => rfl) (fun _ _ => rfl) (fun _ _ => rfl) _ s)
  | passBegin =>
    exact toOutcome_eq_mapNext (Res.bind_mapState (liveConfig_mapState hg (fun _ => rfl) (fun _ => rfl) s)
      fun _ _ => rfl)
  | unfilterByte v => exact toOutcome_eq_mapNext (filterByte_mapState (setIgnoreChecksum_unrelated b) v none s)
  | unfilter len =>
    exact toOutcome_eq_mapNext (streamBytes_mapState hg (fun _ => rfl) (fun _ _ => rfl)
      (fun v s => filterByte_mapState (setIgnoreChecksum_unrelated b) v (some s.srcAddr) s) _ s)
  | palLoad n =>
    refine toOutcome_eq_mapNext ?_
    split
    · exact raise_mapState hg _ _ s
    · exact forRange_mapState (loadPalEntry_setIgnoreChecksum b) _ _ s
  | swizzleRow =>
    exact toOutcome_eq_mapNext
      (Res.bind_mapState (liveConfig_mapState hg (fun _ => rfl) (fun _ => rfl) s) fun _ s =>
        Res.bind_mapState (readBytes_mapState hg _ _ s) fun _ s =>
          Res.bind_mapState (emitRow_mapState hg _ _ _ _ s) fun _ _ => rfl)

/-! ### The Adler tap (R115) -/

theorem BusEffect.keepsTap {A : Nat → Prop} {s t : State} (h : BusEffect A s t) :
    t.ctrl = s.ctrl ∧ t.status = s.status ∧ t.adler = s.adler := by
  rw [h.frame]
  exact ⟨rfl, rfl, rfl⟩

/-- The filter unit itself leaves ADLER, whether it accepts the byte or faults. -/
theorem acceptByte_keepsAdler (v : Byte) (a : Option Addr) (s : State) :
    (acceptByte v a s).Sound (fun _ t => t.ctrl = s.ctrl ∧ t.status = s.status ∧ t.adler = s.adler)
      (fun t => t.status.err = true ∧ t.adler = s.adler) := by
  cases hphase : s.filt.phase with
  | idle =>
    rw [acceptByte_idle hphase]
    exact ⟨rfl, rfl⟩
  | done =>
    rw [acceptByte_done hphase]
    exact ⟨rfl, rfl⟩
  | awaitFilter =>
    rw [acceptByte_await hphase]
    cases filterTypeOf v with
    | none => exact ⟨rfl, rfl⟩
    | some f => exact ⟨rfl, rfl, rfl⟩
  | inRow =>
    rw [acceptByte_inRow hphase]
    refine (payloadByte_sound v s).mono ?_ ?_
    · rintro _ t ⟨out, ⟨-, rfl⟩ | ⟨-, row, u, -, hbus, rfl⟩⟩
      · exact ⟨rfl, rfl, rfl⟩
      · exact hbus.keepsTap
    · rintro t ⟨-, out, u, _, _, hbus, -, -, rfl⟩
      exact ⟨rfl, hbus.keepsTap.2.2⟩

/-- From `s` to `t`, byte `v` reached ADLER exactly when the tap was on and the byte did not fault. -/
def TapFollows (v : Byte) (s t : State) : Prop :=
  t.adler = if s.ctrl.adlerTap = true ∧ t.status.err = false then adler32Byte s.adler v else s.adler

/-- An accepted byte is tapped when the tap is on; a byte that faults never is. -/
theorem filterByte_tapFollows {s : State} (herr : s.status.err = false) (v : Byte) (a : Option Addr) :
    (filterByte v a s).Sound (fun _ => TapFollows v s) (TapFollows v s) := by
  refine ((acceptByte_keepsAdler v a s).mono (fun _ _ h => h) ?_).bind ?_
  · rintro t ⟨hfault, hadler⟩
    simp [TapFollows, hfault, hadler]
  · rintro _ t ⟨hctrl, hstatus, hadler⟩
    simp [TapFollows, hctrl, hstatus, hadler, herr]

/-- UNFILTER of one admitted byte is that byte in the filter unit, and then SRC_ADDR moves. -/
theorem execUnfilter_one {s : State} (h : s.platform.admits s.srcAddr .read = true) :
    execUnfilter 1#24 s =
      ((filterByte (Memory.read s.mem s.srcAddr.toNat) (some s.srcAddr) s).bind
        fun _ t => .ok () (t.advanceSrc 1)).toOutcome := by
  have hlen : (1#24).toNat = 1 := rfl
  simp only [execUnfilter, hlen, streamBytes, busRead_ok h, Res.bind_ok]

/-! ### The obligations -/

/-- Settles O26: the commands' own rules, the reserved bits of form B, and the values of R107 and R112. -/
theorem checksumByte : Obligations.ChecksumByte := by
  refine ⟨fun v s => ⟨append_setWidth_byte _ v, append_setWidth_byte _ v, rfl, rfl, fun x hx herr => ?_⟩,
    by decide, by decide, by decide, by decide, by decide, by decide⟩
  exact ⟨cmdWrite_formB_reserved (o := .crcByte) rfl hx herr v,
    cmdWrite_formB_reserved (o := .adlerByte) rfl hx herr v⟩

/-- Settles O27: the stream of CRC_MEM, all admitted and up to its first refused byte. -/
theorem crcMemFeedsTheBytes : Obligations.CrcMemFeedsTheBytes :=
  ⟨by decide +kernel, fun _ _ => ⟨rfl, exec_crcMem_admitted, fun _ => exec_crcMem_refused⟩⟩

/-- Settles O28: the stream of ADLER_MEM, and the long runs of R113 by the closed form of a run. -/
theorem adlerMemFeedsTheBytes : Obligations.AdlerMemFeedsTheBytes := by
  refine ⟨fun _ _ => ⟨rfl, exec_adlerMem_admitted, fun _ => exec_adlerMem_refused⟩, by decide, ?_, ?_⟩
  · rw [adler32_one_replicate]
    decide
  · rw [adler32_one_replicate]
    decide

/-- Settles O29: each branch of the check, with CRC and its MATCH bit. -/
theorem crcCheckComparesTheTrailer : Obligations.CrcCheckComparesTheTrailer := fun k _ =>
  ⟨by cases k <;> rfl,
    fun hread => ⟨checkTrailer_match hread, checkTrailer_fatal hread, checkTrailer_logged hread⟩,
    fun _ => checkTrailer_refused,
    fun _ hx herr => cmdWrite_formK_reserved (o := .crcCheck) rfl hx herr k⟩

/-- Settles O30: each branch of the check, with ADLER and its MATCH bit. -/
theorem adlerCheckComparesTheTrailer : Obligations.AdlerCheckComparesTheTrailer := fun k _ =>
  ⟨by cases k <;> rfl,
    fun hread => ⟨checkTrailer_match hread, checkTrailer_fatal hread, checkTrailer_logged hread⟩,
    fun _ => checkTrailer_refused,
    fun _ hx herr => cmdWrite_formK_reserved (o := .adlerCheck) rfl hx herr k⟩

/-- Settles O31: a mismatch in both checks, and the quirk through every other command. -/
theorem mismatchFatalExactlyWhenCritical : Obligations.MismatchFatalExactlyWhenCritical := by
  refine ⟨fun k s herr h => ⟨fun hne => ?_, fun hne => ?_⟩,
    fun i b s hcrc hadler => exec_setIgnoreChecksum hcrc hadler b s⟩
  · obtain ⟨t, ht, hfault, hmatch, -, hlog⟩ :=
      checkTrailer_mismatch (setMatch := State.setCrcMatch) (code := .badCrc) (k := k) h hne herr
    exact ⟨t, ht, hfault, hmatch, hlog⟩
  · obtain ⟨t, ht, hfault, -, hmatch, hlog⟩ :=
      checkTrailer_mismatch (setMatch := State.setAdlerMatch) (code := .badAdler) (k := k) h hne herr
    exact ⟨t, ht, hfault, hmatch, hlog⟩

/-- Settles O52: one byte of the filter unit, from UNFILTER_BYTE and from UNFILTER. -/
theorem adlerTapFollowsTheFilter : Obligations.AdlerTapFollowsTheFilter := by
  refine fun v s t herr => ⟨fun ht => ?_, fun hread hv ht => ?_⟩
  · exact ((filterByte_tapFollows herr v none).of_next ht).elim id id
  · have hbyte := (execUnfilter_one hread).symm.trans ht
    rw [hv] at hbyte
    have htap := (filterByte_tapFollows herr v (some s.srcAddr)).bind (k := fun _ u => .ok () (u.advanceSrc 1))
      (P' := fun _ => TapFollows v s) fun _ _ h => h
    exact (htap.of_next hbyte).elim id id

/-- Settles O25: the commands' own rules, and the reserved bits of form Z. -/
theorem checksumInit : Obligations.ChecksumInit := by
  refine ⟨rfl, rfl, fun s => ⟨rfl, rfl, fun x hx herr => ?_⟩⟩
  exact ⟨cmdWrite_formZ_reserved (o := .crcInit) rfl hx herr,
    cmdWrite_formZ_reserved (o := .adlerInit) rfl hx herr⟩

end Sys2Proof.Machine

end ChecksumUnit

/-! ## The filter unit: its configuration, the bytes it takes, and the end of a row
(spec/41_filter.md R140 to R156) -/

section FilterUnit

namespace Sys2Proof.Machine

/-! ### Formats by field value (R140; 42_swizzle.md R180, R181) -/

/-- SRC_CT of a colour type (R140). -/
def ColourType.number : ColourType → BitVec 3
  | .gray => 0#3
  | .rgb => 2#3
  | .indexed => 3#3
  | .grayAlpha => 4#3
  | .rgba => 6#3

theorem colourTypeOf_eq_some_iff {n : BitVec 3} {ct : ColourType} :
    colourTypeOf n = some ct ↔ n = ct.number := by
  constructor
  · intro h
    unfold colourTypeOf at h
    split_ifs at h <;> cases h <;> assumption
  · rintro rfl
    cases ct <;> rfl

theorem depthOf_eq_some_iff {n : BitVec 5} {d : Depth} : depthOf n = some d ↔ n = BitVec.ofNat 5 d.bits := by
  constructor
  · intro h
    unfold depthOf at h
    split_ifs at h <;> cases h <;> assumption
  · rintro rfl
    cases d <;> rfl

theorem srcFormatOf_eq_some_iff {f : Fmt} {sf : SrcFormat} :
    srcFormatOf f = some sf ↔
      f.srcCt = sf.ct.number ∧ f.srcDepth = BitVec.ofNat 5 sf.depth.bits ∧ legalPair sf.ct sf.depth = true := by
  rw [← colourTypeOf_eq_some_iff, ← depthOf_eq_some_iff]
  constructor
  · intro h
    have hlegal := srcFormatOf_legal h
    unfold srcFormatOf at h
    split at h
    · rename_i ct d hct hd
      split_ifs at h
      cases h
      exact ⟨hct, hd, hlegal⟩
    · cases h
  · rintro ⟨hct, hd, hlegal⟩
    simp only [srcFormatOf, hct, hd, hlegal, if_true]

/-- The entry of the format table for a source format. -/
def SrcFormat.entry (sf : SrcFormat) : BitVec 3 × BitVec 5 × Nat :=
  (sf.ct.number, BitVec.ofNat 5 sf.depth.bits, sf.ct.channels)

/-- The source formats of the legal pairs, in the order of the format table. -/
def legalSources : List SrcFormat :=
  [.gray, .rgb, .indexed, .grayAlpha, .rgba].flatMap fun ct =>
    ([.d1, .d2, .d4, .d8, .d16].filter (legalPair ct)).map (SrcFormat.mk ct)

theorem mem_legalSources {sf : SrcFormat} : sf ∈ legalSources ↔ legalPair sf.ct sf.depth = true := by
  obtain ⟨ct, d⟩ := sf
  cases ct <;> cases d <;> decide

theorem legalFormats_eq_map : legalFormats = legalSources.map SrcFormat.entry := by decide

/-- The format table lists the source formats with their channels. -/
theorem mem_legalFormats_iff {f : Fmt} {channels : Nat} :
    (f.srcCt, f.srcDepth, channels) ∈ legalFormats ↔
      ∃ sf, srcFormatOf f = some sf ∧ sf.ct.channels = channels := by
  simp only [legalFormats_eq_map, List.mem_map, mem_legalSources, SrcFormat.entry, Prod.mk.injEq,
    srcFormatOf_eq_some_iff]
  constructor
  · rintro ⟨sf, hlegal, hct, hd, hch⟩
    exact ⟨sf, ⟨hct.symm, hd.symm, hlegal⟩, hch⟩
  · rintro ⟨sf, ⟨hct, hd, hlegal⟩, hch⟩
    exact ⟨sf, hlegal, hct.symm, hd.symm, hch⟩

theorem srcFormatOf_eq_none {f : Fmt} (h : ∀ channels, (f.srcCt, f.srcDepth, channels) ∉ legalFormats) :
    srcFormatOf f = none :=
  Option.eq_none_iff_forall_ne_some.mpr fun sf hsf => h _ (mem_legalFormats_iff.mpr ⟨sf, hsf, rfl⟩)

/-- Bits per pixel from the fields of FMT (R140). -/
theorem bpp_eq_of_srcFormatOf {f : Fmt} {sf : SrcFormat} (h : srcFormatOf f = some sf) :
    sf.bpp = sf.ct.channels * f.srcDepth.toNat := by
  have hbits : (BitVec.ofNat 5 sf.depth.bits).toNat = sf.depth.bits := by cases sf.depth <;> rfl
  rw [(srcFormatOf_eq_some_iff.mp h).2.1, hbits, SrcFormat.bpp]

theorem dstFormatOf_eq_none_iff {f : Fmt} : dstFormatOf f = none ↔ f.dstFmt = 3#2 := by
  have hreserved : ∀ n : BitVec 2, n ≠ 0#2 → n ≠ 1#2 → n ≠ 2#2 → n = 3#2 := by decide
  constructor
  · intro h
    unfold dstFormatOf at h
    split_ifs at h with hraw hy8 hbgra
    exact hreserved _ hraw hy8 hbgra
  · intro h
    simp [dstFormatOf, h]

/-- The test of check_config is the list of admitted conversions (42_swizzle.md R181). -/
theorem admitted_iff_conversionAdmitted {f : Fmt} {sf : SrcFormat} {df : DstFormat}
    (hsf : srcFormatOf f = some sf) (hdf : dstFormatOf f = some df) :
    admitted sf.ct df f.srcOver = true ↔ conversionAdmitted f := by
  have hblend : f.srcOver = false ↔ f.blend = 0#1 := by
    have h : ∀ b : BitVec 1, (b == 1#1) = false ↔ b = 0#1 := by decide
    exact h f.blend
  have hgray : sf.ct = .gray ↔ f.srcCt = 0#3 := by
    rw [(srcFormatOf_eq_some_iff.mp hsf).1]
    cases sf.ct <;> decide
  unfold dstFormatOf at hdf
  split_ifs at hdf with hraw hy8 hbgra <;> cases hdf
  · simp [admitted, conversionAdmitted, hraw, hblend]
  · simp [admitted, conversionAdmitted, hy8, hgray, hblend]
  · simp [admitted, conversionAdmitted, hbgra]

/-! ### check_config, one lemma per check (R143) -/

section Config

variable {w : Word} {f : Fmt} {m channels bpp rb : Nat}

theorem checkConfig_badSource (h : ∀ channels, (f.srcCt, f.srcDepth, channels) ∉ legalFormats) :
    checkConfig w f m = .error .badFormat := by
  simp only [checkConfig, srcFormatOf_eq_none h]

theorem checkConfig_badDestination (h : f.dstFmt = 3#2) : checkConfig w f m = .error .badFormat := by
  cases hsf : srcFormatOf f <;> simp only [checkConfig, hsf, dstFormatOf_eq_none_iff.mpr h]

theorem checkConfig_unsupported (hsrc : (f.srcCt, f.srcDepth, channels) ∈ legalFormats) (hdst : f.dstFmt ≠ 3#2)
    (hconv : ¬ conversionAdmitted f) : checkConfig w f m = .error .unsupported := by
  obtain ⟨sf, hsf, -⟩ := mem_legalFormats_iff.mp hsrc
  obtain ⟨df, hdf⟩ := Option.ne_none_iff_exists'.mp (mt dstFormatOf_eq_none_iff.mp hdst)
  simp only [checkConfig, hsf, hdf, if_neg (mt (admitted_iff_conversionAdmitted hsf hdf).mp hconv)]

theorem conversionAdmitted.dstFmt_ne (h : conversionAdmitted f) : f.dstFmt ≠ 3#2 := by
  obtain ⟨hd, -⟩ | ⟨hd, -, -⟩ | hd := h <;> simp [hd]

/-- With the formats and the conversion good, the length of the row decides. -/
theorem checkConfig_admitted (hsrc : (f.srcCt, f.srcDepth, channels) ∈ legalFormats) (hconv : conversionAdmitted f)
    (hbpp : bpp = channels * f.srcDepth.toNat) (hrb : rb = (w.toNat * bpp + 7) / 8) :
    checkConfig w f m = if m < rb then .error .rowTooLong else .ok ⟨rb, max 1 (bpp / 8), bpp⟩ := by
  obtain ⟨sf, hsf, rfl⟩ := mem_legalFormats_iff.mp hsrc
  obtain ⟨df, hdf⟩ := Option.ne_none_iff_exists'.mp (mt dstFormatOf_eq_none_iff.mp hconv.dstFmt_ne)
  obtain rfl : bpp = sf.bpp := hbpp.trans (bpp_eq_of_srcFormatOf hsf).symm
  subst hrb
  simp only [checkConfig, hsf, hdf, if_pos ((admitted_iff_conversionAdmitted hsf hdf).mpr hconv)]
  rfl

/-- A configuration that passes is legal, admitted, and its row fits. -/
theorem checkConfig_ok_legal {g : Geometry} (h : checkConfig w f m = .ok g) :
    ∃ channels, (f.srcCt, f.srcDepth, channels) ∈ legalFormats ∧ conversionAdmitted f ∧
      (w.toNat * (channels * f.srcDepth.toNat) + 7) / 8 ≤ m := by
  obtain ⟨sf, df, hsf, hdf, hadm, hfits, -⟩ := checkConfig_ok h
  rw [rowLength, bpp_eq_of_srcFormatOf hsf] at hfits
  exact ⟨_, mem_legalFormats_iff.mpr ⟨sf, hsf, rfl⟩, (admitted_iff_conversionAdmitted hsf hdf).mp hadm, hfits⟩

/-- The faults of check_config. -/
theorem checkConfig_error {code : ErrCode} (h : checkConfig w f m = .error code) :
    code ∈ [ErrCode.badFormat, .unsupported, .rowTooLong] := by
  unfold checkConfig at h
  split at h
  · cases h; decide
  · split at h
    · cases h; decide
    · split_ifs at h <;> cases h <;> decide

end Config

section LiveConfig

variable {s : State} {g : Geometry} {code : ErrCode}

theorem liveConfig_ok (h : checkConfig s.width s.fmt s.platform.maxRowBytes = .ok g) : liveConfig s = .ok g s := by
  simp only [liveConfig, h]

theorem liveConfig_error (h : checkConfig s.width s.fmt s.platform.maxRowBytes = .error code) :
    liveConfig s = raise code none s := by
  simp only [liveConfig, h]

theorem exec_passBegin_ok (h : checkConfig s.width s.fmt s.platform.maxRowBytes = .ok g) :
    exec .passBegin s = .next (beginPass g s) := by
  rw [exec, execPassBegin, liveConfig_ok h, Res.bind_ok, Res.toOutcome_ok]

/-- Both commands that check the configuration end where it fails, with nothing done. -/
theorem exec_of_checkConfig_error {i : Instr} (hi : i = .passBegin ∨ i = .swizzleRow)
    (h : checkConfig s.width s.fmt s.platform.maxRowBytes = .error code) :
    exec i s = .next (s.enterFault code none) := by
  obtain rfl | rfl := hi
  · rw [exec, execPassBegin, liveConfig_error h, Res.bind_raise, Res.toOutcome_raise]
  · rw [exec, execSwizzleRow, liveConfig_error h, Res.bind_raise, Res.toOutcome_raise]

/-- What PASS_BEGIN can do. -/
theorem exec_passBegin_cases (s : State) :
    (∃ g, checkConfig s.width s.fmt s.platform.maxRowBytes = .ok g ∧ exec .passBegin s = .next (beginPass g s)) ∨
      ∃ code ∈ [ErrCode.badFormat, .unsupported, .rowTooLong],
        exec .passBegin s = .next (s.enterFault code none) := by
  cases h : checkConfig s.width s.fmt s.platform.maxRowBytes with
  | ok g => exact .inl ⟨g, rfl, exec_passBegin_ok h⟩
  | error code => exact .inr ⟨code, checkConfig_error h, exec_of_checkConfig_error (.inl rfl) h⟩

end LiveConfig

/-! ### The bytes the filter unit takes (R148, R149, R156) -/

theorem adlerTap_eq (v : Byte) (s : State) :
    adlerTap v s = { s with adler := if s.ctrl.adlerTap then adler32Byte s.adler v else s.adler } := by
  unfold adlerTap
  split <;> rfl

section Raise

variable {v : Byte} {s : State} {code : ErrCode}

/-- UNFILTER_BYTE of a byte that the unit does not accept. -/
theorem exec_unfilterByte_raise (h : acceptByte v none s = raise code none s) :
    exec (.unfilterByte v) s = .next (s.enterFault code none) := by
  rw [exec, execUnfilterByte, filterByte, h, Res.bind_raise, Res.toOutcome_raise]

/-- UNFILTER whose first byte is read and not accepted: that byte is not passed. -/
theorem exec_unfilter_raise {len : BitVec 24} (hlen : len ≠ 0#24)
    (hread : s.platform.admits s.srcAddr .read = true)
    (h : acceptByte (Memory.read s.mem s.srcAddr.toNat) (some s.srcAddr) s = raise code (some s.srcAddr) s) :
    exec (.unfilter len) s = .next (s.enterFault code (some s.srcAddr)) := by
  obtain ⟨n, hn⟩ : ∃ n, len.toNat = n + 1 :=
    Nat.exists_eq_succ_of_ne_zero fun h0 => hlen (BitVec.eq_of_toNat_eq h0)
  rw [exec, execUnfilter, hn, streamBytes, busRead_ok hread, Res.bind_ok, filterByte, h, Res.bind_raise,
    Res.bind_raise, Res.toOutcome_raise]

end Raise

theorem exec_unfilterByte_startRow {v : Byte} {f : FilterType} {s : State} (hphase : s.filt.phase = .awaitFilter)
    (hf : filterTypeOf v = some f) : exec (.unfilterByte v) s = .next (adlerTap v (startRow f s)) := by
  rw [exec, execUnfilterByte, filterByte, acceptByte_await hphase, hf, Res.bind_ok, Res.toOutcome_ok]

theorem acceptByte_badFilter {v : Byte} {s : State} (hphase : s.filt.phase = .awaitFilter) (hv : 4 < v.toNat)
    (addr : Option Addr) : acceptByte v addr s = raise .badFilter addr s := by
  rw [acceptByte_await hphase, filterTypeOf_none (BitVec.lt_def.mpr hv)]

/-! ### A payload byte (R144, R145, R147) -/

theorem neighbourA_eq_some {cur : List Host.Cell} {x d : Nat} {a : Byte} (h : neighbourA cur x d = some a) :
    (d ≤ x → RowBuf.get cur (x - d) = some a) ∧ (x < d → a = 0#8) := by
  unfold neighbourA at h
  split at h
  · exact ⟨fun _ => h, fun hx => by omega⟩
  · cases h
    exact ⟨fun hx => by omega, fun _ => rfl⟩

theorem neighbourB_eq_some {prev : List Host.Cell} {first : Bool} {x : Nat} {b : Byte}
    (h : neighbourB prev first x = some b) :
    (first = true → b = 0#8) ∧ (first = false → RowBuf.get prev x = some b) := by
  cases first with
  | true => cases h; simp
  | false => exact ⟨nofun, fun _ => h⟩

theorem neighbourC_eq_some {prev : List Host.Cell} {first : Bool} {x d : Nat} {c : Byte}
    (h : neighbourC prev first x d = some c) :
    (first = true → c = 0#8) ∧ (x < d → c = 0#8) ∧
      (first = false → d ≤ x → RowBuf.get prev (x - d) = some c) := by
  unfold neighbourC at h
  split at h
  · rename_i hzero
    cases h
    refine ⟨fun _ => rfl, fun _ => rfl, fun hfirst hx => ?_⟩
    simp [hfirst, Nat.not_lt.mpr hx] at hzero
  · rename_i hread
    simp only [Bool.or_eq_true, decide_eq_true_eq, not_or] at hread
    exact ⟨fun hfirst => absurd hfirst hread.1, fun hx => absurd hx hread.2, fun _ _ => h⟩

/-- The predictor by filter type (R145). -/
theorem pred_mem (f : FilterType) (a b c : Byte) :
    (f, pred f a b c) ∈ [(FilterType.none, 0), (.sub, a.toNat), (.up, b.toNat),
      (.average, (a.toNat + b.toNat) / 2), (.paeth, (paeth a b c).toNat)] := by
  cases f <;> simp [pred]

theorem reconstruct_eq_mod (f : FilterType) (v a b c : Byte) :
    reconstruct f v a b c = BitVec.ofNat 8 ((v.toNat + pred f a b c) % 256) := by
  apply BitVec.eq_of_toNat_eq
  simp [reconstruct]

/-- A payload byte before the row's last, as the state machine shows it. -/
theorem adlerTap_storePayload {s : State} (hphase : s.filt.phase = .inRow) (v out : Byte) :
    adlerTap v (storePayload out s) = { s with
      cur := RowBuf.put s.cur s.filt.x.toNat out
      filt := ⟨.inRow, s.filt.ftype, s.filt.x + 1#32, s.filt.row, s.filt.first⟩
      adler := if s.ctrl.adlerTap then adler32Byte s.adler v else s.adler } := by
  rw [adlerTap_eq, ← hphase]
  rfl

/-- However a payload byte ends, it stands in CUR; before the row's last it only moves F_X and is tapped. -/
theorem filterByte_payload {s : State} (hready : s.RowReady) (hphase : s.filt.phase = .inRow) (v : Byte)
    (addr : Option Addr) :
    ∃ a b c, neighbourA s.cur s.filt.x.toNat s.latch.dist = some a ∧
      neighbourB s.prev s.filt.first s.filt.x.toNat = some b ∧
      neighbourC s.prev s.filt.first s.filt.x.toNat s.latch.dist = some c ∧
      (filterByte v addr s).Good
        (fun _ t => t.cur = RowBuf.put s.cur s.filt.x.toNat (reconstruct s.filt.ftype v a b c) ∧
          (s.filt.x.toNat + 1 < s.latch.rowBytes →
            t = adlerTap v (storePayload (reconstruct s.filt.ftype v a b c) s)))
        (fun t => t.cur = RowBuf.put s.cur s.filt.x.toNat (reconstruct s.filt.ftype v a b c) ∧
          s.filt.x.toNat + 1 = s.latch.rowBytes) := by
  obtain ⟨a, b, c, ha, hb, hc, hgood⟩ := payloadByte_good hready v
  refine ⟨a, b, c, ha, hb, hc, ?_⟩
  rw [filterByte, acceptByte_inRow hphase]
  refine (hgood.mono (fun _ _ h => h) ?ended).bind ?ok
  case ended =>
    rintro t ⟨hx, u, _, _, hbus, -, -, rfl⟩
    rw [hbus.frame]
    exact ⟨rfl, hx⟩
  case ok =>
    rintro _ t (⟨-, rfl⟩ | ⟨hx, row, u, -, hbus, rfl⟩)
    · exact ⟨by simp, fun _ => rfl⟩
    · refine ⟨?_, fun hlt => by omega⟩
      rw [hbus.frame]
      simp

/-! ### The end of a row (R153) -/

theorem RowBuf.slice_putRow (buf : List Host.Cell) (i : Nat) (row : List Byte) :
    RowBuf.slice (RowBuf.putRow buf i row) i row.length = some row := by
  induction row generalizing buf i with
  | nil => rfl
  | cons v vs ih =>
    have hhead : RowBuf.get (RowBuf.putRow buf i (v :: vs)) i = some v := by
      rw [RowBuf.get_putRow]
      simp
    rw [List.length_cons, RowBuf.slice, hhead, RowBuf.putRow, ih]

/-- Row emission neither reads nor writes what a stored payload byte changes. -/
theorem storePayload_unrelated (out : Byte) : Unrelated (storePayload out) where
  platform _ := rfl
  mem _ := rfl
  busLog _ := rfl
  pal _ := rfl
  dstAddr _ := rfl
  store _ _ _ := rfl
  enterFault _ _ _ := rfl

/-- The row's last payload byte: the byte is stored, the row in CUR is emitted, and the row is finished. -/
theorem payloadByte_last {s : State} (h : s.RowReady) (hx : s.filt.x.toNat + 1 = s.latch.rowBytes) (v : Byte) :
    ∃ (out : Byte) (row : List Byte),
      RowBuf.slice (storePayload out s).cur 0 s.latch.rowBytes = some row ∧
      payloadByte v s =
        ((emitRow row s.latch.width s.latch.fmt s.latch.xstep s).mapState (storePayload out)).bind
          fun _ u => .ok () (finishRow row u) := by
  obtain ⟨a, ha⟩ := neighbourA_some h.latch.dist_pos h.cur
  obtain ⟨b, hb⟩ := neighbourB_some h.pos h.prev
  obtain ⟨c, hc⟩ := neighbourC_some (d := s.latch.dist) h.pos h.prev
  obtain ⟨row, hrow, -⟩ := storePayload_slice h (reconstruct s.filt.ftype v a b c) hx
  have hmax : s.filt.x.toNat < s.platform.maxRowBytes := Nat.lt_of_lt_of_le h.pos h.latch.rowBytes_le
  refine ⟨reconstruct s.filt.ftype v a b c, row, hrow, ?_⟩
  rw [← emitRow_mapState (storePayload_unrelated _)]
  simp only [payloadByte, ha, hb, hc, if_pos hmax, storePayload_filt, storePayload_latch, x_succ_toNat h, if_pos hx,
    rowEnd, hrow]

/-- The row in CUR keeps the bytes that stood there before its last one was stored. -/
theorem storePayload_slice_getElem? {s : State} {out : Byte} {n : Nat} {row : List Byte}
    (h : RowBuf.slice (storePayload out s).cur 0 n = some row) {j : Nat} (hj : j < s.filt.x.toNat) (hn : j < n) :
    row[j]? = RowBuf.get s.cur j := by
  rw [(RowBuf.slice_spec h).2 j hn, Nat.zero_add, storePayload_cur, RowBuf.get_put, if_neg hj.ne]

/-! ### Paeth (R146) -/

/-- How far a byte is from `a + b - c`, on exact integers. -/
def paethDistance (a b c y : Byte) : Nat := ((a.toNat : Int) + b.toNat - c.toNat - y.toNat).natAbs

theorem paeth_eq (a b c : Byte) :
    paeth a b c =
      if paethDistance a b c a ≤ paethDistance a b c b ∧ paethDistance a b c a ≤ paethDistance a b c c then a
      else if paethDistance a b c b ≤ paethDistance a b c c then b else c := rfl

/-- No neighbour is nearer than the one Paeth picks. -/
theorem paethDistance_paeth_le (a b c : Byte) : ∀ y ∈ [a, b, c],
    paethDistance a b c (paeth a b c) ≤ paethDistance a b c y := by
  simp only [List.forall_mem_cons, List.not_mem_nil, false_imp_iff, implies_true, and_true]
  rw [paeth_eq]
  split_ifs <;> omega

/-! ### The obligations -/

/-- Settles O37: what check_config passes is what R150 asks for, and what it refuses is the rest. -/
theorem passBeginLatchesTheConfiguration : Obligations.PassBeginLatchesTheConfiguration := by
  refine ⟨rfl, fun channels bpp rb s hsrc hconv hbpp hrb hfits => ?_, fun s hbad => ?_,
    fun x s hx herr => cmdWrite_formZ_reserved (o := .passBegin) rfl hx herr⟩
  · exact exec_passBegin_ok ((checkConfig_admitted hsrc hconv hbpp hrb).trans (if_neg hfits.not_gt))
  · refine (exec_passBegin_cases s).resolve_left ?_
    rintro ⟨g, hg, -⟩
    obtain ⟨channels, hsrc, hconv, hfits⟩ := checkConfig_ok_legal hg
    exact (hbad channels hsrc hconv).not_ge hfits

/-- Settles O38: each check of check_config in turn. -/
theorem configurationFaultsInOrder : Obligations.ConfigurationFaultsInOrder := by
  refine fun i s hi => ⟨fun hsrc => exec_of_checkConfig_error hi (checkConfig_badSource hsrc),
    fun hdst => exec_of_checkConfig_error hi (checkConfig_badDestination hdst),
    fun channels bpp rb hsrc hdst hbpp hrb =>
      ⟨fun hconv => exec_of_checkConfig_error hi (checkConfig_unsupported hsrc hdst hconv),
        fun hconv hlong => exec_of_checkConfig_error hi ?_, fun hconv hfits => liveConfig_ok ?_⟩⟩
  · exact (checkConfig_admitted hsrc hconv hbpp hrb).trans (if_pos hlong)
  · exact (checkConfig_admitted hsrc hconv hbpp hrb).trans (if_neg hfits.not_gt)

/-- Settles O39: a byte in either phase, and PASS_BEGIN by its two ends. -/
theorem phasesThatTakeNoBytes : Obligations.PhasesThatTakeNoBytes := by
  refine ⟨fun phase code hcode s hphase => ?_, fun s t ht herr herr' => ?_⟩
  · have hraise : ∀ v addr, acceptByte v addr s = raise code addr s := by
      simp only [List.mem_cons, Prod.mk.injEq, List.not_mem_nil, or_false] at hcode
      obtain ⟨rfl, rfl⟩ | ⟨rfl, rfl⟩ := hcode
      · exact acceptByte_idle hphase
      · exact acceptByte_done hphase
    exact ⟨fun v => exec_unfilterByte_raise (hraise v none),
      fun len hlen hread => exec_unfilter_raise hlen hread (hraise _ _)⟩
  · obtain ⟨g, -, hnext⟩ | ⟨code, -, hfault⟩ := exec_passBegin_cases s
    · cases hnext.symm.trans ht
      refine ⟨?_, fun hw hr => ?_⟩
      · rw [beginPass_filt]
        split <;> simp
      · simp [hw, hr]
    · cases hfault.symm.trans ht
      simp at herr'

/-- Settles O40: the filter types one by one, and a byte above them from each command. -/
theorem filterTypeByteRule : Obligations.FilterTypeByteRule := by
  refine fun v s hphase => ⟨fun f hf => ?_,
    fun hv => exec_unfilterByte_raise (acceptByte_badFilter hphase hv none), ?_⟩
  · have htype : filterTypeOf v = some f := by
      simp only [List.mem_cons, Prod.mk.injEq, List.not_mem_nil, or_false] at hf
      obtain ⟨rfl, rfl⟩ | ⟨rfl, rfl⟩ | ⟨rfl, rfl⟩ | ⟨rfl, rfl⟩ | ⟨rfl, rfl⟩ := hf <;> rfl
    rw [exec_unfilterByte_startRow hphase htype, adlerTap_eq]
    rfl
  · rintro len hlen hread rfl hv
    exact exec_unfilter_raise hlen hread (acceptByte_badFilter hphase hv _)

/-- Settles O41: the neighbours and the byte from everything a payload byte can do. -/
theorem payloadByteIsReconstructed : Obligations.PayloadByteIsReconstructed := by
  intro v s hinv herr hphase
  obtain ⟨a, b, c, ha, hb, hc, hgood⟩ := filterByte_payload (engineInv_rowReady hinv herr hphase) hphase v none
  obtain ⟨haRow, haZero⟩ := neighbourA_eq_some ha
  obtain ⟨hbFirst, hbPrev⟩ := neighbourB_eq_some hb
  obtain ⟨hcFirst, hcZero, hcPrev⟩ := neighbourC_eq_some hc
  obtain ⟨t, ht, hend⟩ := hgood.toOutcome
  have hcur : t.cur = RowBuf.put s.cur s.filt.x.toNat (reconstruct s.filt.ftype v a b c) :=
    hend.elim And.left And.left
  refine ⟨a, b, c, pred s.filt.ftype a b c, t, haRow, haZero, fun hfirst => ⟨hbFirst hfirst, hcFirst hfirst⟩,
    hbPrev, hcZero, hcPrev, pred_mem _ a b c, ht, by rw [hcur, reconstruct_eq_mod], fun hx => ?_⟩
  obtain ⟨-, hstored⟩ | ⟨-, hlast⟩ := hend
  · rw [hcur, hstored hx]
    exact adlerTap_storePayload hphase v _
  · omega

/-- Settles O42: the row's last byte, its emission taken before the byte is stored. -/
theorem rowEndEffects : Obligations.RowEndEffects := by
  intro v s hinv herr hphase hx hadm
  have hready := engineInv_rowReady hinv herr hphase
  obtain ⟨out, row, hrow, hbyte⟩ := payloadByte_last hready hx v
  have hlen : row.length = s.latch.rowBytes := (RowBuf.slice_spec hrow).1
  obtain ⟨u, hemit, hbus⟩ := emitRow_ok hready.latch hlen hadm
  have hcur : (adlerTap v (finishRow row (storePayload out u))).cur = (storePayload out s).cur := by
    rw [hbus.frame]
    simp
  have hprev : (adlerTap v (finishRow row (storePayload out u))).prev = RowBuf.putRow s.prev 0 row := by
    rw [hbus.frame]
    simp
  refine ⟨row, u, adlerTap v (finishRow row (storePayload out u)), hlen,
    fun j hj => storePayload_slice_getElem? hrow hj (by omega), hemit, ?_, ?_, ?_, ?_, fun b hb => ?_⟩
  · rw [exec, execUnfilterByte, filterByte, acceptByte_inRow hphase, hbyte, hemit]
    rfl
  · rw [adlerTap_eq, hbus.frame]
    rfl
  · rw [hcur, hrow]
  · rw [hprev, ← hlen, RowBuf.slice_putRow]
  · simpa using hbus.outside hb

/-- Settles O44: the distances are those of the model's own comparisons. -/
theorem paethPicksTheNearest : Obligations.PaethPicksTheNearest := by
  refine fun a b c => ⟨_, paethDistance a b c, rfl, fun _ => rfl, paethDistance_paeth_le a b c,
    fun hab hac => ?_, fun ha hbc => ?_, fun ha hbc => ?_⟩
  · rw [paeth_eq, if_pos ⟨hab, hac⟩]
  · rw [paeth_eq, if_neg ha, if_pos hbc]
  · rw [paeth_eq, if_neg ha, if_neg hbc]

end Sys2Proof.Machine

end FilterUnit

/-! ## The swizzler unit: samples and their conversion, PAL_LOAD, and SWIZZLE_ROW
(spec/42_swizzle.md R182 to R193) -/

section Swizzler

namespace Sys2Proof.Machine

/-! ### Samples of a packed row (R182) -/

section SubByte

variable {n i : Nat}

/-- Bit `j` of a sample cut out of its byte; the sample has `n` bits. -/
theorem getLsbD_subByteSample (hn : n ≤ 8) (byte : Byte) (j : Nat) :
    (subByteSample n i byte).getLsbD j = (decide (j < n) && byte.getLsbD (8 - n - i * n % 8 + j)) := by
  have hmask : (BitVec.ofNat 8 (2 ^ n - 1)).getLsbD j = decide (j < n) := by
    rw [BitVec.getLsbD_ofNat, Nat.testBit_two_pow_sub_one, ← Bool.decide_and]
    exact decide_eq_decide.mpr (by omega)
  rw [subByteSample, BitVec.getLsbD_and, BitVec.getLsbD_ushiftRight, hmask, Bool.and_comm]

theorem subByteSample_toNat_lt (hn : n ≤ 8) (byte : Byte) : (subByteSample n i byte).toNat < 2 ^ n := by
  refine Nat.lt_pow_two_of_testBit _ fun j hj => ?_
  rw [BitVec.testBit_toNat, getLsbD_subByteSample hn, decide_eq_false (by omega), Bool.false_and]

/-- The bits of a pixel stand in one byte of the row, the high-order bit first. -/
theorem getLsbD_subByteSample_eq_rowBit {k : Nat} {buf : List Byte} {byte : Byte} (hn : n = 1 ∨ n = 2 ∨ n = 4)
    (hk : k < n) (hbyte : buf[i * n / 8]? = some byte) :
    (subByteSample n i byte).getLsbD (n - 1 - k) = rowBit buf (i * n + k) := by
  have hsame : (i * n + k) / 8 = i * n / 8 := by obtain rfl | rfl | rfl := hn <;> omega
  have hbit : 8 - n - i * n % 8 + (n - 1 - k) = 7 - (i * n + k) % 8 := by
    obtain rfl | rfl | rfl := hn <;> omega
  rw [getLsbD_subByteSample (by omega), decide_eq_true (by omega), Bool.true_and, hbit, rowBit, hsame,
    List.getD_eq_getElem?_getD, hbyte, Option.getD_some]

end SubByte

/-- Below 8 bits a sample is cut out of the byte that holds its bits. -/
theorem sample_subByte {d : Depth} {n : Nat} (hd : (d, n) ∈ [(Depth.d1, 1), (.d2, 2), (.d4, 4)])
    (ct : ColourType) (buf : List Byte) (i ch : Nat) :
    sample ⟨ct, d⟩ buf i ch = buf[i * n / 8]?.map fun byte => (subByteSample n i byte).setWidth 16 := by
  simp only [List.mem_cons, Prod.mk.injEq, List.not_mem_nil, or_false] at hd
  obtain ⟨rfl, rfl⟩ | ⟨rfl, rfl⟩ | ⟨rfl, rfl⟩ := hd <;> rfl

/-! ### The palette and the conversion (R183 to R186) -/

theorem palette_setWidth {pal : Vector Word 256} {idx : BitVec 16} {w : Word} (h : pal[idx.toNat]? = some w) :
    palette pal (idx.setWidth 8) = w := by
  obtain ⟨hlt, hw⟩ := Vector.getElem?_eq_some_iff.mp h
  have hidx : (idx.setWidth 8).toNat = idx.toNat := by
    rw [BitVec.toNat_setWidth]
    exact Nat.mod_eq_of_lt hlt
  simp only [palette, hidx, hw]

/-! ### Loops, runs of addresses, and reserved bits by form -/

/-- A loop over `p + q` rounds is a loop over `p` and then one over `q`. -/
theorem forRange_add (body : Nat → State → Res Unit) (i p q : Nat) (s : State) :
    forRange body i (p + q) s = (forRange body i p s).bind fun _ t => forRange body (i + p) q t := by
  induction p generalizing i s with
  | zero => simp [forRange]
  | succ p ih =>
    have hrounds : p + 1 + q = p + q + 1 := by omega
    have hindex : i + (p + 1) = i + 1 + p := by omega
    simp only [hrounds, hindex, forRange, Res.bind_assoc, ih]

/-- The rest of a run that is admitted. -/
theorem State.admitsRun_drop {s : State} {k : AccessKind} {a : Addr} {m n : Nat} (h : s.admitsRun k a (m + n)) :
    s.admitsRun k (a + BitVec.ofNat 32 m) n := fun j hj => by
  rw [BitVec.add_assoc, ← BitVec.ofNat_add]
  exact h (m + j) (by omega)

/-- The start of a run that is admitted. -/
theorem State.admitsRun_take {s : State} {k : AccessKind} {a : Addr} {m n : Nat} (hmn : m ≤ n)
    (h : s.admitsRun k a n) : s.admitsRun k a m := fun j hj => h j (by omega)

/-- Form N reserves bits 23:9. -/
theorem cmdWrite_formN_reserved {o : Opcode} {x : BitVec 15} {s : State} (ho : o.form = .n) (hx : x ≠ 0#15)
    (herr : s.status.err = false) (n : BitVec 9) :
    cmdWrite (o.number ++ x ++ n) s = .next (s.enterFault .badCmd none) := by
  have hword : o.number ++ x ++ n = o.number ++ (x ++ n) := BitVec.append_assoc
  have hmask : lenField o.form.mask = BitVec.allOnes 15 ++ 0#9 := by rw [ho]; rfl
  rw [hword]
  refine cmdWrite_of_reservedBits herr ?_
  rw [hmask]
  exact mt (append_and_highMask_eq_zero_iff x n).mp hx

/-! ### The triplets of PAL_LOAD (R192) -/

theorem loadPalEntry_admitted {s : State} (h : s.admitsRun .read s.srcAddr 3) (i : Nat) :
    ∃ r g b, s.bytesFrom s.srcAddr 3 = [r, g, b] ∧
      loadPalEntry i s = .ok () ((s.setPal i (0xFF#8 ++ r ++ g ++ b)).advanceSrc 3) := by
  have h0 := h 0 (by decide)
  rw [BitVec.add_zero] at h0
  refine ⟨_, _, _, rfl, ?_⟩
  rw [loadPalEntry, busRead_ok h0, Res.bind_ok, busRead_ok (h 1 (by decide)), Res.bind_ok,
    busRead_ok (h 2 (by decide)), Res.bind_ok]
  simp [tripletWord]

theorem loadPalEntry_refused {s : State} {n : Nat} (hn : n < 3) (h : s.admitsRun .read s.srcAddr n)
    (hr : s.platform.admits (s.srcAddr + BitVec.ofNat 32 n) .read = false) (i : Nat) :
    loadPalEntry i s = raise .bus (some (s.srcAddr + BitVec.ofNat 32 n)) s := by
  unfold loadPalEntry
  match n with
  | 0 =>
    rw [BitVec.add_zero] at hr ⊢
    rw [busRead_refused hr, Res.bind_raise]
  | 1 =>
    rw [busRead_ok (State.admitsRun_succ.mp h).1, Res.bind_ok, busRead_refused hr, Res.bind_raise]
  | 2 =>
    rw [busRead_ok (State.admitsRun_succ.mp h).1, Res.bind_ok, busRead_ok (h 1 (by decide)), Res.bind_ok,
      busRead_refused hr, Res.bind_raise]

/-- `t` is `s` after PAL_LOAD has loaded the first `m` triplets: SRC_ADDR stands at the next one. -/
structure TripletsLoaded (s : State) (m : Nat) (t : State) : Prop where
  frame : t = { s with pal := t.pal, srcAddr := s.srcAddr + BitVec.ofNat 32 (3 * m) }
  loaded : ∀ i < m, ∃ r g b, s.bytesFrom (s.srcAddr + BitVec.ofNat 32 (3 * i)) 3 = [r, g, b] ∧
    t.pal[i]? = some (0xFF#8 ++ r ++ g ++ b)
  others : ∀ i, m ≤ i → t.pal[i]? = s.pal[i]?

theorem TripletsLoaded.zero (s : State) : TripletsLoaded s 0 s :=
  ⟨by simp, fun _ hi => absurd hi (by simp), fun _ _ => rfl⟩

theorem TripletsLoaded.admitsRun {s t : State} {m n : Nat} (h : TripletsLoaded s m t)
    (ha : s.admitsRun .read s.srcAddr (3 * m + n)) : t.admitsRun .read t.srcAddr n := by
  rw [h.frame]
  exact State.admitsRun_drop ha

/-- One more triplet. -/
theorem TripletsLoaded.succ {s t : State} {m : Nat} (h : TripletsLoaded s m t) (hm : m < 256)
    (ha : s.admitsRun .read s.srcAddr (3 * m + 3)) :
    ∃ u, loadPalEntry m t = .ok () u ∧ TripletsLoaded s (m + 1) u := by
  obtain ⟨r, g, b, hbytes, hload⟩ := loadPalEntry_admitted (h.admitsRun ha) m
  have hread : s.bytesFrom (s.srcAddr + BitVec.ofNat 32 (3 * m)) 3 = [r, g, b] := by
    rw [h.frame] at hbytes
    exact hbytes
  refine ⟨_, hload, ?_, fun i hi => ?_, fun i hi => ?_⟩
  · rw [h.frame]
    simp only [State.setPal, State.advanceSrc, BitVec.add_assoc, ← BitVec.ofNat_add, Nat.mul_add, Nat.mul_one]
  · obtain rfl | hlt := Nat.eq_or_lt_of_le (Nat.le_of_lt_succ hi)
    · exact ⟨r, g, b, hread, Vector.getElem?_setIfInBounds_self_of_lt hm⟩
    · obtain ⟨r', g', b', hbytes', hpal⟩ := h.loaded i hlt
      exact ⟨r', g', b', hbytes', by rw [← hpal]; exact Vector.getElem?_setIfInBounds_ne hlt.ne'⟩
  · rw [← h.others i (by omega)]
    exact Vector.getElem?_setIfInBounds_ne (by omega)

/-- The first `m` rounds of PAL_LOAD, all their bytes admitted. -/
theorem forRange_loadPalEntry {s : State} {m : Nat} (hm : m ≤ 256) (ha : s.admitsRun .read s.srcAddr (3 * m)) :
    ∃ t, forRange loadPalEntry 0 m s = .ok () t ∧ TripletsLoaded s m t := by
  induction m with
  | zero => exact ⟨s, rfl, .zero s⟩
  | succ m ih =>
    obtain ⟨t, ht, hloaded⟩ := ih (by omega) (State.admitsRun_take (by omega) ha)
    obtain ⟨u, hu, hloaded'⟩ := hloaded.succ hm ha
    refine ⟨u, ?_, hloaded'⟩
    rw [forRange_add, ht, Res.bind_ok, Nat.zero_add, forRange, hu, Res.bind_ok, forRange]

theorem exec_palLoad_goodCount {n : BitVec 9} (h1 : 1 ≤ n.toNat) (h256 : n.toNat ≤ 256) (s : State) :
    exec (.palLoad n) s = (forRange loadPalEntry 0 n.toNat s).toOutcome := by
  have hgood : ¬ (n = 0#9 ∨ 256#9 < n) := by
    rintro (rfl | hlt)
    · simp at h1
    · exact absurd (BitVec.lt_def.mp hlt) (by simpa using h256)
  simp only [exec, execPalLoad, if_neg hgood]

/-- PAL_LOAD whose first refused byte is byte `r` of triplet `q`. -/
theorem exec_palLoad_refused {n : BitVec 9} {s : State} {q r : Nat} (h256 : n.toNat ≤ 256) (hq : q < n.toNat)
    (hr : r < 3) (ha : s.admitsRun .read s.srcAddr (3 * q + r))
    (hrefused : s.platform.admits (s.srcAddr + BitVec.ofNat 32 (3 * q + r)) .read = false) :
    ∃ t : State, TripletsLoaded s q t ∧
      exec (.palLoad n) s = .next (t.enterFault .bus (some (s.srcAddr + BitVec.ofNat 32 (3 * q + r)))) := by
  obtain ⟨t, ht, hloaded⟩ :=
    forRange_loadPalEntry (Nat.le_trans (Nat.le_of_lt hq) h256) (State.admitsRun_take (Nat.le_add_right _ r) ha)
  have hsplit : n.toNat = q + (n.toNat - q - 1 + 1) := by omega
  have haddr : t.srcAddr + BitVec.ofNat 32 r = s.srcAddr + BitVec.ofNat 32 (3 * q + r) := by
    rw [hloaded.frame, BitVec.add_assoc, ← BitVec.ofNat_add]
  have hstop := loadPalEntry_refused hr (hloaded.admitsRun ha) (by rw [haddr, hloaded.frame]; exact hrefused) q
  refine ⟨t, hloaded, ?_⟩
  rw [exec_palLoad_goodCount (by omega) h256, hsplit, forRange_add, ht, Res.bind_ok, Nat.zero_add, forRange,
    hstop, haddr, Res.bind_raise, Res.toOutcome_raise]

/-! ### SWIZZLE_ROW (R193) -/

section SwizzleRow

variable {s : State} {g : Geometry}

theorem exec_swizzleRow_badConfig {code : ErrCode}
    (h : checkConfig s.width s.fmt s.platform.maxRowBytes = .error code) :
    exec .swizzleRow s = .next (s.enterFault code none) := by
  rw [exec, execSwizzleRow, liveConfig_error h, Res.bind_raise, Res.toOutcome_raise]

/-- With the configuration good and the source admitted, the staged row is emitted and the pointers move. -/
theorem exec_swizzleRow_staged (hg : checkConfig s.width s.fmt s.platform.maxRowBytes = .ok g)
    (hread : s.admitsRun .read s.srcAddr g.rowBytes) :
    exec .swizzleRow s = ((emitRow (s.bytesFrom s.srcAddr g.rowBytes) s.width s.fmt s.dstXstep s).bind fun _ u =>
      .ok () ((u.advanceSrc g.rowBytes).advanceDst u.dstStride)).toOutcome := by
  rw [exec, execSwizzleRow, liveConfig_ok hg, Res.bind_ok, readBytes_ok hread, Res.bind_ok]

theorem exec_swizzleRow_readRefused (hg : checkConfig s.width s.fmt s.platform.maxRowBytes = .ok g) {n : Nat}
    (hn : n < g.rowBytes) (hread : s.admitsRun .read s.srcAddr n)
    (hr : s.platform.admits (s.srcAddr + BitVec.ofNat 32 n) .read = false) :
    exec .swizzleRow s = .next (s.enterFault .bus (some (s.srcAddr + BitVec.ofNat 32 n))) := by
  rw [exec, execSwizzleRow, liveConfig_ok hg, Res.bind_ok, readBytes_refused hn hread hr, Res.bind_raise,
    Res.toOutcome_raise]

theorem exec_swizzleRow_emitted (hg : checkConfig s.width s.fmt s.platform.maxRowBytes = .ok g)
    (hread : s.admitsRun .read s.srcAddr g.rowBytes)
    (hadm : s.emissionAdmitted s.dstAddr s.width s.fmt s.dstXstep g.rowBytes) :
    ∃ u, emitRow (s.bytesFrom s.srcAddr g.rowBytes) s.width s.fmt s.dstXstep s = .ok () u ∧
      BusEffect (emitTarget s.dstAddr s.width s.fmt s.dstXstep g.rowBytes) s u ∧
      exec .swizzleRow s = .next { u with
        srcAddr := s.srcAddr + BitVec.ofNat 32 g.rowBytes
        dstAddr := s.dstAddr + s.dstStride } := by
  obtain ⟨u, hemit, hbus⟩ := emitRow_ok hg (s.bytesFrom_length s.srcAddr g.rowBytes) hadm
  refine ⟨u, hemit, hbus, ?_⟩
  rw [exec_swizzleRow_staged hg hread, hemit, hbus.frame]
  rfl

end SwizzleRow

/-- An emission that is not admitted ends at its first refused access, with the writes before it done. -/
theorem emitRow_refused {buf : List Byte} {w : Word} {f : Fmt} {m : Nat} {g : Geometry} {xstep : Word} {s : State}
    (hg : checkConfig w f m = .ok g) (hbuf : buf.length = g.rowBytes)
    (hadm : ¬ s.emissionAdmitted s.dstAddr w f xstep g.rowBytes) :
    ∃ u c, emitRow buf w f xstep s = .ended (State.enterFault u .bus (some c.1)) ∧
      s.platform.firstRefused (emissionAccesses s.dstAddr w f xstep g.rowBytes) = some c ∧
      BusEffect (emitTarget s.dstAddr w f xstep g.rowBytes) s u := by
  have hgood := emitRow_good hg hbuf xstep s
  have hmakes := emitRow_makes buf w f xstep s
  rw [hbuf] at hmakes
  cases hemit : emitRow buf w f xstep s with
  | ok _ t =>
    rw [hemit] at hmakes
    exact absurd (emissionAdmitted_of_firstRefused hg hmakes.1) hadm
  | ended t =>
    rw [hemit] at hgood hmakes
    obtain ⟨u, a, k, hbus, -, -, ht⟩ := hgood
    obtain ⟨c, u', hc, ht'⟩ := hmakes
    have haddr : a = c.1 := congrArg State.errAddr (ht.symm.trans ht')
    exact ⟨u, c, by rw [ht, haddr], hc, hbus⟩
  | stuck f =>
    rw [hemit] at hgood
    exact hgood.elim

/-- A row of no pixels has no bytes. -/
theorem checkConfig_rowBytes_of_width_zero {f : Fmt} {m : Nat} {g : Geometry}
    (hg : checkConfig 0#32 f m = .ok g) : g.rowBytes = 0 := by
  obtain ⟨sf, -, -, -, -, -, rfl⟩ := checkConfig_ok hg
  simp [rowLength]

/-- The emission of a row of no pixels does nothing. -/
theorem emitRow_empty {f : Fmt} {m : Nat} {g : Geometry} (hg : checkConfig 0#32 f m = .ok g) (xstep : Word)
    (s : State) : emitRow [] 0#32 f xstep s = .ok () s := by
  obtain ⟨sf, df, hsf, hdf, hconv, -⟩ := checkConfig_ok hg
  simp only [emitRow, hsf, hdf, hconv, if_true]
  cases df <;> rfl

theorem exec_swizzleRow_of_width_zero {s : State} {g : Geometry}
    (hg : checkConfig s.width s.fmt s.platform.maxRowBytes = .ok g) (hw : s.width = 0#32) :
    exec .swizzleRow s = .next { s with dstAddr := s.dstAddr + s.dstStride } := by
  have hg0 := hw ▸ hg
  have hrow := checkConfig_rowBytes_of_width_zero hg0
  have hread : s.admitsRun .read s.srcAddr g.rowBytes := fun j hj => absurd hj (by simp [hrow])
  have hemit : emitRow [] s.width s.fmt s.dstXstep s = .ok () s := by
    rw [hw]
    exact emitRow_empty hg0 s.dstXstep s
  rw [exec_swizzleRow_staged hg hread, hrow, State.bytesFrom_zero, hemit]
  simp [State.advanceSrc, State.advanceDst]

/-! ### The filter unit's state (R193) -/

theorem unrelated_withPass (l : Latch) (f : Filt) (cur prev : List Host.Cell) :
    Unrelated fun s => s.withPass l f cur prev :=
  ⟨fun _ => rfl, fun _ => rfl, fun _ => rfl, fun _ => rfl, fun _ => rfl, fun _ _ _ => rfl, fun _ _ _ => rfl⟩

/-- SWIZZLE_ROW neither reads nor writes the pass in progress. -/
theorem exec_swizzleRow_withPass (l : Latch) (f : Filt) (cur prev : List Host.Cell) (s : State) :
    exec .swizzleRow (s.withPass l f cur prev)
      = mapNext (fun t => t.withPass l f cur prev) (exec .swizzleRow s) := by
  have h := unrelated_withPass l f cur prev
  simp only [exec, execSwizzleRow, ← Res.toOutcome_mapState]
  refine congrArg Res.toOutcome (Res.bind_mapState ?_ fun g t => ?_)
  · exact liveConfig_mapState h (fun _ => rfl) (fun _ => rfl) s
  refine Res.bind_mapState (readBytes_mapState h _ _ t) fun row u => ?_
  exact Res.bind_mapState (emitRow_mapState h _ _ _ _ u) fun _ _ => rfl

/-! ### The obligations -/

/-- Settles O53: the loop keeps `TripletsLoaded`, up to the triplet of the refused byte. -/
theorem palLoadLoadsTriplets : Obligations.PalLoadLoadsTriplets := by
  refine fun n s => ⟨fun hcount => exec_palLoad_badCount hcount s,
    fun h1 h256 => ⟨fun ha => ?_, fun k hk ha hr => ?_⟩,
    fun x hx herr => cmdWrite_formN_reserved (o := .palLoad) rfl hx herr n⟩
  · obtain ⟨t, ht, hloaded⟩ := forRange_loadPalEntry h256 ha
    exact ⟨t, by rw [exec_palLoad_goodCount h1 h256, ht, Res.toOutcome_ok], hloaded.frame, hloaded.loaded,
      hloaded.others⟩
  · have hk3 := Nat.div_add_mod k 3
    rw [← hk3] at ha hr
    obtain ⟨t, hloaded, ht⟩ := exec_palLoad_refused h256 (by omega) (Nat.mod_lt k (by decide)) ha hr
    rw [hk3] at ht
    exact ⟨t, ht, hloaded.frame, hloaded.loaded, hloaded.others⟩

/-- Settles O54: each end of the command, and the state of the pass carried through it. -/
theorem swizzleRowConvertsOneRow : Obligations.SwizzleRowConvertsOneRow := by
  refine ⟨rfl, fun s => ⟨fun _ => exec_swizzleRow_badConfig, fun g hg =>
      ⟨fun hread => ⟨fun hadm => ?_, fun hadm => ?_⟩, fun _ => exec_swizzleRow_readRefused hg,
        exec_swizzleRow_of_width_zero hg⟩,
    fun x hx herr => cmdWrite_formZ_reserved (o := .swizzleRow) rfl hx herr,
    fun l f cur prev => exec_swizzleRow_withPass l f cur prev s⟩⟩
  · obtain ⟨u, hemit, hbus, hexec⟩ := exec_swizzleRow_emitted hg hread hadm
    exact ⟨u, hemit, hbus.frame, fun _ => hbus.outside, hexec⟩
  · obtain ⟨u, c, hemit, hfirst, hbus⟩ := emitRow_refused hg (s.bytesFrom_length s.srcAddr g.rowBytes) hadm
    have hexec : exec .swizzleRow s = .next (u.enterFault .bus (some c.1)) := by
      rw [exec_swizzleRow_staged hg hread, hemit, Res.bind_ended, Res.toOutcome_ended]
    exact ⟨u, _, c, hexec, hemit, hfirst, rfl, hbus.frame, fun _ => hbus.outside⟩

/-- Settles O57: below 8 bits a sample is cut out of one byte, whose bits are those of the row. -/
theorem sampleReadsThePackedRow : Obligations.SampleReadsThePackedRow := by
  refine ⟨fun ct d n buf i hd hlt => ?_, fun ct buf i ch v hv => ?_, fun ct buf i ch hi lo hhi hlo => ?_⟩
  · have hn : n = 1 ∨ n = 2 ∨ n = 4 := by
      simp only [List.mem_cons, Prod.mk.injEq, List.not_mem_nil, or_false] at hd
      exact hd.imp And.right (Or.imp And.right And.right)
    have hbyte := List.getElem?_eq_getElem hlt
    refine ⟨_, by rw [sample_subByte hd, hbyte, Option.map_some], ?_, fun k hk => ?_⟩
    · rw [BitVec.toNat_setWidth_of_le (by decide)]
      exact subByteSample_toNat_lt (by omega) _
    · rw [BitVec.getLsbD_setWidth, decide_eq_true (by omega), Bool.true_and,
        getLsbD_subByteSample_eq_rowBit hn hk hbyte]
  · simp only [sample, hv, Option.map_some]
  · simp only [sample, hhi, hlo]

/-- Settles O56: the small depths value by value, and the row of the table for each colour type. -/
theorem pixelConversionTable : Obligations.PixelConversionTable := by
  refine ⟨by decide, by decide, by decide, by decide, by decide, by decide, fun v => ?_, fun hi lo => ?_,
    fun pal d buf i => ⟨?_, ?_, ?_, ?_, ?_⟩⟩
  · exact BitVec.setWidth_setWidth_of_le v (by decide)
  · exact BitVec.extractLsb'_append_eq_left
  · intro y hy
    simp only [toBgra, hy, Option.map_some]
  · intro r g b hr hg hb
    simp only [toBgra, hr, hg, hb, Option.map_some]
  · intro idx w hidx hw
    simp only [toBgra, hidx, Option.map_some, palette_setWidth hw, paletteWordPixel]
  · intro y a hy ha
    simp only [toBgra, hy, ha, Option.map_some]
  · intro r g b a hr hg hb ha
    simp only [toBgra, hr, hg, hb, ha, Option.map_some]

end Sys2Proof.Machine

end Swizzler

/-! ## The system: host accesses by offset, the CMD port, and NOP (spec/43_system.md R220 to R225) -/

section System

namespace Sys2Proof.Machine

/-! ### Words of registers, field by field

Each field stands at one place in its word's chain of appends: the widths of the fields below it say which. -/

/-- Where CTRL's fields stand in its word (10_state.md R21). -/
theorem ctrlWord_fields (c : Ctrl) :
    (ctrlWord c).extractLsb' 0 1 = 0#1 ∧ (ctrlWord c).getLsbD 1 = c.ignoreChecksum ∧
      (ctrlWord c).getLsbD 2 = c.adlerTap ∧ (ctrlWord c).getLsbD 3 = c.errIe ∧
      (ctrlWord c).extractLsb' 4 28 = 0#28 := by
  simp (disch := decide) only [ctrlWord, BitVec.getLsbD_append, BitVec.extractLsb'_append_eq_of_add_le,
    BitVec.extractLsb'_append_eq_of_le, Nat.reduceSub, Nat.reduceLT, reduceIte]
  simp

/-- Where STATUS's fields and the mirror of IRQ stand in its word (10_state.md R22). -/
theorem statusWord_fields (st : Status) (irq : Bool) :
    (statusWord st irq).getLsbD 0 = st.err ∧ (statusWord st irq).getLsbD 1 = st.errAddrValid ∧
      (statusWord st irq).getLsbD 2 = st.crcMatch ∧ (statusWord st irq).getLsbD 3 = st.adlerMatch ∧
      (statusWord st irq).getLsbD 4 = st.chkLog ∧ (statusWord st irq).getLsbD 5 = irq ∧
      (statusWord st irq).extractLsb' 6 2 = 0#2 ∧ (statusWord st irq).extractLsb' 8 8 = st.errCode ∧
      (statusWord st irq).extractLsb' 16 16 = 0#16 := by
  simp (disch := decide) only [statusWord, BitVec.getLsbD_append, BitVec.extractLsb'_append_eq_of_add_le,
    BitVec.extractLsb'_append_eq_of_le, Nat.reduceSub, Nat.reduceLT, reduceIte]
  simp

/-- Where FMT's fields stand in its word (10_state.md R33). -/
theorem fmtWord_fields (f : Fmt) :
    (fmtWord f).extractLsb' 0 5 = f.srcDepth ∧ (fmtWord f).extractLsb' 5 3 = 0#3 ∧
      (fmtWord f).extractLsb' 8 3 = f.srcCt ∧ (fmtWord f).extractLsb' 11 5 = 0#5 ∧
      (fmtWord f).extractLsb' 16 2 = f.dstFmt ∧ (fmtWord f).extractLsb' 18 2 = 0#2 ∧
      (fmtWord f).extractLsb' 20 1 = f.blend ∧ (fmtWord f).extractLsb' 21 11 = 0#11 := by
  simp (disch := decide) only [fmtWord, BitVec.extractLsb'_append_eq_of_add_le, BitVec.extractLsb'_append_eq_of_le]
  simp

/-- Where F_PHASE, F_TYPE and F_FIRST stand in FSTATE's word (10_state.md R34). -/
theorem fstateWord_fields (f : Filt) :
    (fstateWord f).extractLsb' 0 2 = phaseNumber f.phase ∧ (fstateWord f).extractLsb' 2 3 = filterNumber f.ftype ∧
      (fstateWord f).getLsbD 5 = f.first ∧ (fstateWord f).extractLsb' 6 26 = 0#26 := by
  simp (disch := decide) only [fstateWord, BitVec.getLsbD_append, BitVec.extractLsb'_append_eq_of_add_le,
    BitVec.extractLsb'_append_eq_of_le, Nat.reduceSub, Nat.reduceLT, reduceIte]
  simp

theorem phaseNumber_mem (p : Phase) :
    (p, phaseNumber p) ∈ [(Phase.idle, 0#2), (.awaitFilter, 1#2), (.inRow, 2#2), (.done, 3#2)] := by
  cases p <;> decide

theorem filterNumber_mem (f : FilterType) :
    (f, filterNumber f) ∈ [(FilterType.none, 0#3), (.sub, 1#3), (.up, 2#3), (.average, 3#3), (.paeth, 4#3)] := by
  cases f <;> decide

/-! ### Accesses by offset -/

theorem accessInModel_eq_true_iff {off : Nat} {width : AccessWidth} :
    accessInModel off width = true ↔ width = .w32 ∧ off % 4 = 0 ∧ off < 0x1000 := by
  simp only [accessInModel, Bool.and_eq_true, beq_iff_eq, decide_eq_true_eq, and_assoc]

theorem hostEvent_write_cmd (w : Word) (s : State) : hostEvent (.write 0x008 .w32 w) s = cmdWrite w s := rfl

/-- A write in the palette's range stores its entry (10_state.md R39). -/
theorem hostEvent_write_pal {i : Nat} (hi : i < 256) (v : Word) (s : State) :
    hostEvent (.write (0x400 + 4 * i) .w32 v) s = .next (s.setPal i v) := by
  have hindex : (BitVec.ofNat 8 i).toNat = i := Nat.mod_eq_of_lt hi
  rw [hostEvent_write_w32 (by omega) (by omega), mmioWrite, windowReg_pal hi, if_neg WindowReg.noConfusion,
    regWrite, hindex, State.setPal]

theorem setPal_pal_getElem? {s : State} {i : Nat} (hi : i < 256) (w : Word) (j : Nat) :
    (s.setPal i w).pal[j]? = if j = i then some w else s.pal[j]? := by
  rw [State.setPal_pal, Vector.getElem?_setIfInBounds, if_pos hi]
  exact if_congr eq_comm rfl rfl

/-- The registers of the window that only the engine writes (43_system.md R221). -/
theorem hostEvent_write_readOnly {off : Nat} (h : off ∈ [0x004, 0x00C, 0x034, 0x038, 0x03C, 0x040, 0x044])
    (v : Word) (s : State) : hostEvent (.write off .w32 v) s = .next s := by
  simp only [List.mem_cons, List.not_mem_nil, or_false] at h
  obtain rfl | rfl | rfl | rfl | rfl | rfl | rfl := h <;> rfl

theorem regRead_readData (r : WindowReg) (s : State) (v : Word) :
    regRead r { s with readData := v } = regRead r s := by
  cases r <;> rfl

/-! ### The CMD port -/

/-- While STATUS.ERR = 1 a word written to CMD is ignored (60_exceptions.md R236). -/
theorem cmdWrite_of_halted {w : Word} {s : State} (herr : s.status.err = true) : cmdWrite w s = .next s :=
  if_pos herr

theorem cmdWrite_nop (s : State) : cmdWrite 0x00000000#32 s = .next s := by
  cases herr : s.status.err with
  | true => exact cmdWrite_of_halted herr
  | false => exact cmdWrite_of_decode herr (by decide : decode 0x00000000#32 = .ok .nop)

/-! ### The obligations -/

/-- Settles O15: at a literal offset the window's dispatch evaluates; the palette, the read-only registers and
the reserved offsets by their rules. -/
theorem registerWrites : Obligations.RegisterWrites := by
  intro v s
  refine ⟨fun hreset => ?reset, fun hstore => ?store, hostEvent_write_cmd v s, rfl, rfl, rfl, rfl, rfl, rfl, rfl,
    rfl, hostEvent_write_fmt v s, fun i hi => ?pal, fun off haligned hoff => ?ignored⟩
  case reset => rw [hostEvent_write_ctrl, ctrlWrite_softReset hreset]
  case store => rw [hostEvent_write_ctrl, ctrlWrite_store hstore, ctrlOfWord]
  case pal => exact ⟨_, hostEvent_write_pal hi v s, rfl, setPal_pal_getElem? hi v⟩
  case ignored =>
    obtain hreadOnly | hreserved := hoff
    · exact hostEvent_write_readOnly hreadOnly v s
    · rw [hostEvent_write_w32 haligned (by omega), mmioWrite_reserved (windowReg_reserved (by omega))]

/-- Settles O16: the packed registers by the places of their fields; the registers that hold one value evaluate at
their literal offsets. -/
theorem registerReads : Obligations.RegisterReads := by
  intro s
  refine ⟨fun off haligned hwindow => hostEvent_read_w32 haligned hwindow s,
    fun off v => regRead_readData (windowReg off) s v, ctrlWord_fields s.ctrl, statusWord_fields s.status s.irq,
    rfl, rfl, rfl, rfl, rfl, rfl, rfl, rfl, rfl, rfl, fmtWord_fields s.fmt, ?fstate, rfl, rfl, rfl, rfl,
    fun i hi => ?pal, fun off hoff => mmioRead_reserved (windowReg_reserved hoff) s⟩
  case fstate =>
    obtain ⟨hphase, htype, hfirst, hreserved⟩ := fstateWord_fields s.filt
    exact ⟨hphase ▸ phaseNumber_mem s.filt.phase, htype ▸ filterNumber_mem s.filt.ftype, hfirst, hreserved⟩
  case pal => rw [mmioRead_pal hi, Vector.getElem?_eq_getElem hi]

/-- Settles O7: the event reaches the CMD port, whose three cases are exclusive. -/
theorem stepRunsTheDecodedCommand : Obligations.StepRunsTheDecodedCommand := by
  intro w rest s hinbox
  rw [step_of_inbox hinbox, hostEvent_write_cmd]
  exact ⟨fun herr => cmdWrite_of_halted herr, fun herr hillegal => cmdWrite_of_illegalWord herr hillegal,
    fun herr _ hdecode => cmdWrite_of_decode herr hdecode⟩

/-- Settles O8: reads and writes both stand behind the test of `accessInModel`. -/
theorem accessOutsideTheModelIsRefused : Obligations.AccessOutsideTheModelIsRefused := by
  intro off width rest s houtside
  have hrefused : ¬accessInModel off width = true := mt accessInModel_eq_true_iff.mp houtside
  exact ⟨fun v hwrite => (step_of_inbox hwrite).trans (if_neg hrefused),
    fun hread => (step_of_inbox hread).trans (if_neg hrefused)⟩

/-- Settles O24: NOP's own rule, and the reserved bits of form Z. -/
theorem nopDoesNothing : Obligations.NopDoesNothing :=
  ⟨rfl, fun s => ⟨rfl, cmdWrite_nop s, fun _ hx =>
    ⟨cmdWrite_formZ_reserved (o := .nop) rfl hx, cmdWrite_of_halted⟩⟩⟩

end Sys2Proof.Machine

end System

/-! ## Exceptions: the halted engine, the address a fault records, and the interrupt
(spec/60_exceptions.md R230 to R240) -/

section Exceptions

namespace Sys2Proof.Machine

/-! ### Runs of accesses, admitted or not (20_memory.md R65) -/

/-- A run is admitted, or one of its accesses is the first refused one. -/
theorem State.admitsRun_or_firstRefused (s : State) (k : AccessKind) (a : Addr) (n : Nat) :
    s.admitsRun k a n ∨ ∃ m < n, s.admitsRun k a m ∧ s.platform.admits (a + BitVec.ofNat 32 m) k = false ∧
      s.platform.firstRefused (runAccesses k a n) = some (a + BitVec.ofNat 32 m, k) := by
  induction n with
  | zero => exact .inl fun j hj => absurd hj (Nat.not_lt_zero j)
  | succ n ih =>
    rw [runAccesses_add, Platform.firstRefused_append]
    obtain hrun | ⟨m, hm, hbefore, hrefused, hfirst⟩ := ih
    · have hnone := firstRefused_run.mpr hrun
      cases hlast : s.platform.admits (a + BitVec.ofNat 32 n) k with
      | false =>
        refine .inr ⟨n, Nat.lt_succ_self n, hrun, hlast, ?_⟩
        rw [hnone, runAccesses_succ, Platform.firstRefused_cons, hlast]
        rfl
      | true =>
        refine .inl fun j hj => ?_
        obtain hlt | rfl := Nat.lt_succ_iff_lt_or_eq.mp hj
        · exact hrun j hlt
        · exact hlast
    · exact .inr ⟨m, Nat.lt_succ_of_lt hm, hbefore, hrefused, by rw [hfirst]; rfl⟩

/-- The access that ends a command with E_BUS was refused. -/
theorem busFaultAccess_refused {i : Instr} {s t : State} {c : Access} (h : busFaultAccess i s t c) :
    s.platform.admits c.1 c.2 = false := by
  cases i with
  | crcMem _ | adlerMem _ | crcCheck _ | adlerCheck _ | unfilterByte _ | palLoad _ =>
    exact (Platform.firstRefused_mem h).2
  | unfilter _ =>
    obtain ⟨_, _, _, ⟨hread, _⟩ | ⟨_, hemit⟩⟩ := h
    · exact (Platform.firstRefused_mem hread).2
    · exact (Platform.firstRefused_mem hemit).2
  | swizzleRow =>
    obtain ⟨_, _, hrefused⟩ := h
    exact (Platform.firstRefused_mem hrefused).2
  | nop | crcInit | crcByte _ | adlerInit | adlerByte _ | passBegin => exact h.elim

/-! ### What a fault records, and how a command ends -/

theorem ErrCode.number_inj {code code' : ErrCode} : code.number = code'.number ↔ code = code' := by
  constructor
  · cases code <;> cases code' <;> simp [ErrCode.number]
  · rintro rfl
    rfl

/-- The address that a fault of the decoded word `cmd`, run from `s` to `t`, records with its code
(60_exceptions.md R232). -/
inductive FaultRecord (s t : State) : Except DecodeError Instr → ErrCode → Option Addr → Prop
  | bus {i : Instr} {a : Addr} {k : AccessKind} (haccess : busFaultAccess i s t (a, k)) :
      FaultRecord s t (.ok i) .bus (some a)
  | trailer {cmd : Except DecodeError Instr} {code : ErrCode} (hcode : code ∈ [ErrCode.badCrc, .badAdler])
      (hsrc : t.srcAddr = s.srcAddr) : FaultRecord s t cmd code (some s.srcAddr)
  | unfilter {len : BitVec 24} {code : ErrCode} (hcode : code ∈ [ErrCode.noPass, .badFilter, .passOverrun]) :
      FaultRecord s t (.ok (.unfilter len)) code (some t.srcAddr)
  | unfilterByte {v : Byte} {code : ErrCode} (hcode : code ∈ [ErrCode.noPass, .badFilter, .passOverrun]) :
      FaultRecord s t (.ok (.unfilterByte v)) code none
  | noAddress {cmd : Except DecodeError Instr} {code : ErrCode}
      (hcode : code ∈ [ErrCode.badCmd, .badFormat, .unsupported, .rowTooLong]) : FaultRecord s t cmd code none

/-- How a command written to CMD while STATUS.ERR = 0 ends: CTRL is left, and either no fault is taken or one
that leaves its record. -/
def CommandEnd (cmd : Except DecodeError Instr) (s t : State) : Prop :=
  t.ctrl = s.ctrl ∧ (t.status.err = false ∨
    ∃ u code addr, t = State.enterFault u code addr ∧ FaultRecord s t cmd code addr)

theorem CommandEnd.completed {cmd : Except DecodeError Instr} {s t : State} (hctrl : t.ctrl = s.ctrl)
    (herr : t.status.err = false) : CommandEnd cmd s t := ⟨hctrl, .inl herr⟩

theorem CommandEnd.faulted {cmd : Except DecodeError Instr} {s u : State} {code : ErrCode} {addr : Option Addr}
    (hctrl : u.ctrl = s.ctrl) (h : FaultRecord s (u.enterFault code addr) cmd code addr) :
    CommandEnd cmd s (u.enterFault code addr) := ⟨hctrl, .inr ⟨u, code, addr, rfl, h⟩⟩

/-- A command that first reads a run at SRC_ADDR ends at the first refused byte, if there is one. -/
theorem CommandEnd.of_readRun {i : Instr} {s t : State} {n : Nat} (h : exec i s = .next t)
    (haccess : ∀ u c, s.platform.firstRefused (runAccesses .read s.srcAddr n) = some c → busFaultAccess i s u c)
    (hadmitted : s.admitsRun .read s.srcAddr n → CommandEnd (.ok i) s t)
    (hrefused : ∀ m < n, s.admitsRun .read s.srcAddr m →
      s.platform.admits (s.srcAddr + BitVec.ofNat 32 m) .read = false →
      ∃ u : State, exec i s = .next (u.enterFault .bus (some (s.srcAddr + BitVec.ofNat 32 m))) ∧
        u.ctrl = s.ctrl) : CommandEnd (.ok i) s t := by
  obtain hrun | ⟨m, hm, hbefore, hstop, hfirst⟩ := s.admitsRun_or_firstRefused .read s.srcAddr n
  · exact hadmitted hrun
  · obtain ⟨u, hu, hctrl⟩ := hrefused m hm hbefore hstop
    rw [hu] at h
    cases h
    exact .faulted hctrl (.bus (haccess _ _ hfirst))

section Ends

variable {s t : State} (herr : s.status.err = false)
include herr

/-! ### The checksum unit's ends -/

theorem crcMem_commandEnd {len : BitVec 24} (h : exec (.crcMem len) s = .next t) :
    CommandEnd (.ok (.crcMem len)) s t := by
  refine .of_readRun h (fun _ _ hc => hc) (fun hrun => ?_) fun m hm hbefore hrefused =>
    ⟨_, exec_crcMem_refused hm hbefore hrefused, rfl⟩
  rw [exec_crcMem_admitted hrun] at h
  cases h
  exact .completed rfl herr

theorem adlerMem_commandEnd {len : BitVec 24} (h : exec (.adlerMem len) s = .next t) :
    CommandEnd (.ok (.adlerMem len)) s t := by
  refine .of_readRun h (fun _ _ hc => hc) (fun hrun => ?_) fun m hm hbefore hrefused =>
    ⟨_, exec_adlerMem_refused hm hbefore hrefused, rfl⟩
  rw [exec_adlerMem_admitted hrun] at h
  cases h
  exact .completed rfl herr

/-- What both checks do with an admitted trailer: a match, a mismatch that faults at SRC_ADDR, or one that is
logged. -/
theorem checkTrailer_commandEnd {cmd : Except DecodeError Instr} {running : State → Word}
    {setMatch : State → Bool → State} {code : ErrCode} {k : Bool} (hcode : code ∈ [ErrCode.badCrc, .badAdler])
    (hmatch : ∀ b, (setMatch s b).ctrl = s.ctrl ∧ (setMatch s b).status.err = s.status.err ∧
      (setMatch s b).srcAddr = s.srcAddr)
    (h : (checkTrailer running setMatch code k s).toOutcome = .next t) (hrun : s.admitsRun .read s.srcAddr 4) :
    CommandEnd cmd s t := by
  rw [checkTrailer_admitted hrun] at h
  split_ifs at h
  · cases h
    obtain ⟨hctrl, hkeeps, -⟩ := hmatch true
    exact .completed hctrl (hkeeps.trans herr)
  all_goals
    cases h
    obtain ⟨hctrl, hkeeps, hsrc⟩ := hmatch false
  · exact .faulted hctrl (.trailer hcode hsrc)
  · exact .completed hctrl (hkeeps.trans herr)

theorem crcCheck_commandEnd {k : Bool} (h : exec (.crcCheck k) s = .next t) :
    CommandEnd (.ok (.crcCheck k)) s t :=
  .of_readRun h (fun _ _ hc => hc) (checkTrailer_commandEnd herr (by decide) (fun _ => ⟨rfl, rfl, rfl⟩) h)
    fun _ hm hbefore hrefused => ⟨s, checkTrailer_refused hm hbefore hrefused, rfl⟩

theorem adlerCheck_commandEnd {k : Bool} (h : exec (.adlerCheck k) s = .next t) :
    CommandEnd (.ok (.adlerCheck k)) s t :=
  .of_readRun h (fun _ _ hc => hc) (checkTrailer_commandEnd herr (by decide) (fun _ => ⟨rfl, rfl, rfl⟩) h)
    fun _ hm hbefore hrefused => ⟨s, checkTrailer_refused hm hbefore hrefused, rfl⟩

/-! ### The ends of PASS_BEGIN, PAL_LOAD and SWIZZLE_ROW -/

theorem passBegin_commandEnd (h : exec .passBegin s = .next t) : CommandEnd (.ok .passBegin) s t := by
  obtain ⟨g, -, hbegin⟩ | ⟨code, hcode, hfault⟩ := exec_passBegin_cases s
  · rw [hbegin] at h
    cases h
    exact .completed rfl herr
  · rw [hfault] at h
    cases h
    exact .faulted rfl (.noAddress (List.mem_cons_of_mem _ hcode))

theorem palLoad_commandEnd {n : BitVec 9} (h : exec (.palLoad n) s = .next t) :
    CommandEnd (.ok (.palLoad n)) s t := by
  by_cases hbad : n.toNat = 0 ∨ 256 < n.toNat
  · rw [exec_palLoad_badCount hbad] at h
    cases h
    exact .faulted rfl (.noAddress (by decide))
  refine .of_readRun h (fun _ _ hc => hc) (fun hrun => ?_) fun m hm hbefore hrefused => ?_
  · obtain ⟨u, hu, hloaded⟩ := forRange_loadPalEntry (by omega) hrun
    rw [exec_palLoad_goodCount (by omega) (by omega), hu] at h
    cases h
    rw [hloaded.frame]
    exact .completed rfl herr
  · have hsplit : 3 * (m / 3) + m % 3 = m := Nat.div_add_mod m 3
    rw [← hsplit] at hbefore hrefused ⊢
    obtain ⟨u, hloaded, hu⟩ := exec_palLoad_refused (n := n) (by omega) (by omega) (by omega) hbefore hrefused
    exact ⟨u, hu, by rw [hloaded.frame]⟩

theorem swizzleRow_commandEnd (h : exec .swizzleRow s = .next t) : CommandEnd (.ok .swizzleRow) s t := by
  cases hg : checkConfig s.width s.fmt s.platform.maxRowBytes with
  | error code =>
    rw [exec_swizzleRow_badConfig hg] at h
    cases h
    exact .faulted rfl (.noAddress (List.mem_cons_of_mem _ (checkConfig_error hg)))
  | ok g =>
    refine .of_readRun h (fun _ _ hc => ⟨g, hg, ?_⟩) (fun hrun => ?_) fun m hm hbefore hrefused =>
      ⟨s, exec_swizzleRow_readRefused hg hm hbefore hrefused, rfl⟩
    · rw [Platform.firstRefused_append, hc, Option.some_or]
    by_cases hadm : s.emissionAdmitted s.dstAddr s.width s.fmt s.dstXstep g.rowBytes
    · obtain ⟨u, -, hbus, hu⟩ := exec_swizzleRow_emitted hg hrun hadm
      rw [hu] at h
      cases h
      rw [hbus.frame]
      exact .completed rfl herr
    · obtain ⟨u, ⟨a, k⟩, hemit, hfirst, hbus⟩ :=
        emitRow_refused hg (s.bytesFrom_length s.srcAddr g.rowBytes) hadm
      rw [exec_swizzleRow_staged hg hrun, hemit] at h
      cases h
      refine .faulted (by rw [hbus.frame]) (.bus (k := k) ⟨g, hg, ?_⟩)
      rw [Platform.firstRefused_append, firstRefused_run.mpr hrun, Option.none_or, hfirst]

end Ends

/-! ### The filter unit's ends -/

/-- Both facts about a piece of pseudocode hold of each of its ends. -/
theorem Res.Sound.and {α : Type} {r : Res α} {P P' : α → State → Prop} {Q Q' : State → Prop}
    (h : r.Sound P Q) (h' : r.Sound P' Q') : r.Sound (fun a t => P a t ∧ P' a t) fun t => Q t ∧ Q' t := by
  cases r with
  | ok a t => exact ⟨h, h'⟩
  | ended t => exact ⟨h, h'⟩
  | stuck f => trivial

/-- The accesses of the emission of the row in progress, in order. -/
def State.rowAccesses (s : State) : List Access :=
  emissionAccesses s.dstAddr s.latch.width s.latch.fmt s.latch.xstep s.latch.rowBytes

theorem rowEnd_firstRefused (s : State) : (rowEnd s).Sound (fun _ _ => True) fun t =>
    ∃ c u, s.platform.firstRefused s.rowAccesses = some c ∧ t = State.enterFault u .bus (some c.1) := by
  unfold rowEnd
  split
  · trivial
  · rename_i row hrow
    have hmakes := emitRow_makes row s.latch.width s.latch.fmt s.latch.xstep s
    rw [(RowBuf.slice_spec hrow).1] at hmakes
    exact Res.Sound.bind hmakes fun _ _ _ => trivial

/-- A payload byte ends only in the emission of its row, at the first refused access. -/
theorem payloadByte_firstRefused (v : Byte) (s : State) : (payloadByte v s).Sound (fun _ _ => True) fun t =>
    ∃ c u, s.platform.firstRefused s.rowAccesses = some c ∧ t = State.enterFault u .bus (some c.1) := by
  unfold payloadByte
  split
  · split
    · dsimp only
      split
      · exact rowEnd_firstRefused _
      · trivial
    · trivial
  · trivial

/-- What a byte leaves of the state that the ends of a command depend on, while UNFILTER runs. -/
structure FilterKeeps (s t : State) : Prop where
  ctrl : t.ctrl = s.ctrl
  status : t.status = s.status
  srcAddr : t.srcAddr = s.srcAddr
  platform : t.platform = s.platform
  latch : t.latch = s.latch

theorem FilterKeeps.trans {s t u : State} (h : FilterKeeps s t) (h' : FilterKeeps t u) : FilterKeeps s u where
  ctrl := h'.ctrl.trans h.ctrl
  status := h'.status.trans h.status
  srcAddr := h'.srcAddr.trans h.srcAddr
  platform := h'.platform.trans h.platform
  latch := h'.latch.trans h.latch

theorem FilterKeeps.advanceSrc {s t : State} (h : FilterKeeps s t) (n : Nat) :
    FilterKeeps (s.advanceSrc n) (t.advanceSrc n) where
  ctrl := h.ctrl
  status := h.status
  srcAddr := congrArg (· + BitVec.ofNat 32 n) h.srcAddr
  platform := h.platform
  latch := h.latch

theorem BusEffect.filterKeeps {A : Nat → Prop} {s t : State} (h : BusEffect A s t) : FilterKeeps s t := by
  rw [h.frame]
  exact ⟨rfl, rfl, rfl, rfl, rfl⟩

theorem storePayload_filterKeeps (out : Byte) (s : State) : FilterKeeps s (storePayload out s) :=
  ⟨rfl, rfl, rfl, rfl, rfl⟩

theorem finishRow_filterKeeps (row : List Byte) (s : State) : FilterKeeps s (finishRow row s) :=
  ⟨rfl, rfl, rfl, rfl, rfl⟩

/-- How a byte with fault address `a` faults: the unit does not accept it, or the emission of the row that it
completes is refused. -/
def FilterFault (a : Option Addr) (s t : State) : Prop :=
  ∃ u, FilterKeeps s u ∧ u.dstAddr = s.dstAddr ∧
    ((∃ code ∈ [ErrCode.noPass, .badFilter, .passOverrun], t = u.enterFault code a) ∨
      ∃ c, s.platform.firstRefused s.rowAccesses = some c ∧ t = u.enterFault .bus (some c.1))

theorem payloadByte_ends (v : Byte) (a : Option Addr) (s : State) :
    (payloadByte v s).Sound (fun _ => FilterKeeps s) (FilterFault a s) := by
  refine ((payloadByte_sound v s).and (payloadByte_firstRefused v s)).mono ?_ ?_
  · rintro _ t ⟨⟨out, ⟨-, rfl⟩ | ⟨-, row, u, -, hbus, rfl⟩⟩, -⟩
    · exact storePayload_filterKeeps out s
    · exact ((storePayload_filterKeeps out s).trans hbus.filterKeeps).trans (finishRow_filterKeeps row u)
  · rintro t ⟨⟨-, out, u, b, _, hbus, -, -, rfl⟩, c, u', hfirst, hfault⟩
    have haddr : b = c.1 := congrArg State.errAddr hfault
    exact ⟨u, (storePayload_filterKeeps out s).trans hbus.filterKeeps, hbus.dstAddr,
      .inr ⟨c, hfirst, by rw [haddr]⟩⟩

/-- Every byte of the filter unit, in any state. -/
theorem filterByte_ends (v : Byte) (a : Option Addr) (s : State) :
    (filterByte v a s).Sound (fun _ => FilterKeeps s) (FilterFault a s) := by
  have hrejected : ∀ code ∈ [ErrCode.noPass, .badFilter, .passOverrun],
      FilterFault a s (s.enterFault code a) := fun code hcode =>
    ⟨s, ⟨rfl, rfl, rfl, rfl, rfl⟩, rfl, .inl ⟨code, hcode, rfl⟩⟩
  have haccept : (acceptByte v a s).Sound (fun _ => FilterKeeps s) (FilterFault a s) := by
    cases hphase : s.filt.phase with
    | idle =>
      rw [acceptByte_idle hphase]
      exact hrejected .noPass (by decide)
    | done =>
      rw [acceptByte_done hphase]
      exact hrejected .passOverrun (by decide)
    | awaitFilter =>
      rw [acceptByte_await hphase]
      cases filterTypeOf v with
      | none => exact hrejected .badFilter (by decide)
      | some f => exact ⟨rfl, rfl, rfl, rfl, rfl⟩
    | inRow =>
      rw [acceptByte_inRow hphase]
      exact payloadByte_ends v a s
  exact haccept.bind fun _ t ht => ht.trans ⟨by simp, by simp, by simp, by simp, by simp⟩

theorem unfilterByte_commandEnd {v : Byte} {s t : State} (herr : s.status.err = false)
    (h : exec (.unfilterByte v) s = .next t) : CommandEnd (.ok (.unfilterByte v)) s t := by
  obtain hkeeps | ⟨u, hkeeps, -, ⟨code, hcode, rfl⟩ | ⟨c, hfirst, rfl⟩⟩ :=
    (filterByte_ends v none s).of_next h
  · exact .completed hkeeps.ctrl (hkeeps.status ▸ herr)
  · exact .faulted hkeeps.ctrl (.unfilterByte hcode)
  · exact .faulted hkeeps.ctrl (.bus hfirst)

/-- An invariant of a byte stream that counts the bytes passed. -/
theorem streamBytes_counted {handle : Byte → State → Res Unit} {P : Nat → State → Prop} {Q : State → Prop}
    {s : State} (n : Nat) (hstart : P 0 s)
    (hbyte : ∀ k < n, ∀ t, P k t → (streamBytes handle 1 t).Sound (fun _ => P (k + 1)) Q) :
    (streamBytes handle n s).Sound (fun _ => P n) Q := by
  induction n with
  | zero => exact hstart
  | succ n ih =>
    rw [streamBytes_add]
    exact (ih fun k hk => hbyte k (Nat.lt_succ_of_lt hk)).bind fun _ t ht => hbyte n (Nat.lt_succ_self n) t ht

/-- `t` is UNFILTER's state after its first `k` bytes from `s`, all of them read and accepted. -/
structure Unfiltered (s : State) (k : Nat) (t : State) : Prop where
  keeps : FilterKeeps (s.advanceSrc k) t
  read : s.admitsRun .read s.srcAddr k

/-- Of the reads up to byte `k`, only its own can be refused. -/
theorem Unfiltered.firstRefused {s t : State} {k : Nat} (h : Unfiltered s k t) :
    s.platform.firstRefused (runAccesses .read s.srcAddr (k + 1)) =
      if t.platform.admits t.srcAddr .read = true then none else some (t.srcAddr, .read) := by
  have hsrc : s.srcAddr + BitVec.ofNat 32 k = t.srcAddr := h.keeps.srcAddr.symm
  have hplatform : s.platform = t.platform := h.keeps.platform.symm
  rw [runAccesses_add, Platform.firstRefused_append, firstRefused_run.mpr h.read, Option.none_or, hsrc, hplatform,
    runAccesses_succ, runAccesses_zero, Platform.firstRefused_cons, Platform.firstRefused_nil]

/-- A fault of byte `k`, after its read: the emission of the row it completes, or its own. -/
theorem Unfiltered.commandEnd {s t u : State} {k : Nat} {len : BitVec 24} (h : Unfiltered s k t)
    (hk : k < len.toNat) (hread : t.platform.admits t.srcAddr .read = true)
    (hfault : FilterFault (some t.srcAddr) t u) : CommandEnd (.ok (.unfilter len)) s u := by
  obtain ⟨v, hv, hdst, ⟨code, hcode, rfl⟩ | ⟨⟨a, kind⟩, hemit, rfl⟩⟩ := hfault
  · rw [← hv.srcAddr]
    exact .faulted (hv.ctrl.trans h.keeps.ctrl) (.unfilter hcode)
  · have hnone := h.firstRefused
    rw [if_pos hread] at hnone
    rw [State.rowAccesses, h.keeps.platform, h.keeps.latch, ← hdst] at hemit
    exact .faulted (hv.ctrl.trans h.keeps.ctrl)
      (.bus (k := kind) ⟨k, hk, hv.srcAddr.trans h.keeps.srcAddr, .inr ⟨hnone, hemit⟩⟩)

theorem Unfiltered.succ {s t u : State} {k : Nat} (h : Unfiltered s k t)
    (hread : t.platform.admits t.srcAddr .read = true) (hu : FilterKeeps t u) :
    Unfiltered s (k + 1) (u.advanceSrc 1) where
  keeps := by
    rw [← State.advanceSrc_add]
    exact (h.keeps.trans hu).advanceSrc 1
  read := firstRefused_run.mp (by rw [h.firstRefused, if_pos hread])

/-- Byte `k` of UNFILTER is passed, or the command ends there. -/
theorem Unfiltered.next {s t : State} {k : Nat} {len : BitVec 24} (h : Unfiltered s k t) (hk : k < len.toNat) :
    (streamBytes (fun v s => filterByte v (some s.srcAddr) s) 1 t).Sound (fun _ => Unfiltered s (k + 1))
      (CommandEnd (.ok (.unfilter len)) s) := by
  rw [streamBytes]
  cases hread : t.platform.admits t.srcAddr .read with
  | false =>
    have hfirst := h.firstRefused
    rw [if_neg (by simp [hread])] at hfirst
    rw [busRead_refused hread]
    exact .faulted h.keeps.ctrl (.bus ⟨k, hk, h.keeps.srcAddr, .inl ⟨hfirst, rfl⟩⟩)
  | true =>
    rw [busRead_ok hread, Res.bind_ok]
    exact ((filterByte_ends _ _ t).mono (fun _ _ hu => hu) fun _ hfault => h.commandEnd hk hread hfault).bind
      fun _ _ hu => h.succ hread hu

theorem unfilter_commandEnd {len : BitVec 24} {s t : State} (herr : s.status.err = false)
    (h : exec (.unfilter len) s = .next t) : CommandEnd (.ok (.unfilter len)) s t := by
  have hstart : Unfiltered s 0 s :=
    ⟨⟨rfl, rfl, (BitVec.add_zero _).symm, rfl, rfl⟩, fun j hj => absurd hj (Nat.not_lt_zero j)⟩
  have hstream := streamBytes_counted len.toNat hstart fun k hk u hu => hu.next hk
  obtain hpassed | hend := hstream.of_next h
  · exact .completed hpassed.keeps.ctrl ((congrArg Status.err hpassed.keeps.status).trans herr)
  · exact hend

/-! ### The CMD port's ends -/

theorem exec_commandEnd {i : Instr} {s t : State} (herr : s.status.err = false) (h : exec i s = .next t) :
    CommandEnd (.ok i) s t := by
  cases i with
  | nop | crcInit | crcByte _ | adlerInit | adlerByte _ =>
    cases h
    exact .completed rfl herr
  | crcMem len => exact crcMem_commandEnd herr h
  | adlerMem len => exact adlerMem_commandEnd herr h
  | crcCheck k => exact crcCheck_commandEnd herr h
  | adlerCheck k => exact adlerCheck_commandEnd herr h
  | passBegin => exact passBegin_commandEnd herr h
  | unfilterByte v => exact unfilterByte_commandEnd herr h
  | unfilter len => exact unfilter_commandEnd herr h
  | palLoad n => exact palLoad_commandEnd herr h
  | swizzleRow => exact swizzleRow_commandEnd herr h

theorem cmdWrite_commandEnd {w : Word} {s t : State} (herr : s.status.err = false)
    (h : cmdWrite w s = .next t) : CommandEnd (decode w) s t := by
  cases hdecode : decode w with
  | error e =>
    have hillegal : IllegalWord w := (illegalWord_iff w).mpr fun i hi => by simp [hdecode] at hi
    rw [cmdWrite_of_illegalWord herr hillegal] at h
    cases h
    exact .faulted rfl (.noAddress (by decide))
  | ok i =>
    rw [cmdWrite_of_decode herr hdecode] at h
    exact exec_commandEnd herr h

/-- No word written to CMD changes CTRL. -/
theorem cmdWrite_ctrl {w : Word} {s t : State} (h : cmdWrite w s = .next t) : t.ctrl = s.ctrl := by
  cases herr : s.status.err with
  | true =>
    rw [cmdWrite_of_halted herr] at h
    cases h
    rfl
  | false => exact (cmdWrite_commandEnd herr h).1

theorem opField_of_decode {w : Word} {i : Instr} (h : decode w = .ok i) : opField w = i.opcode.number := by
  obtain ⟨o, hnumber, -, rfl⟩ := decode_ok.mp h
  rw [Opcode.opcode_instr, hnumber]

/-! ### Events, and what they keep of the fault record (R236, R237) -/

theorem windowReg_eq_ctrl {off : Nat} (h : windowReg off = .ctrl) : off = 0x000 := by
  simpa [windowReg, ite_eq_iff] using h

theorem windowReg_eq_cmd {off : Nat} (h : windowReg off = .cmd) : off = 0x008 := by
  simp only [windowReg, ite_eq_iff, reduceCtorEq, and_false, or_false, false_or, and_true] at h
  exact h.2.2

/-- A write to a register other than CTRL keeps CTRL and the fault record. -/
theorem regWrite_keepsFault {r : WindowReg} (hr : r ≠ .ctrl) (v : Word) (s : State) :
    (regWrite r v s).ctrl = s.ctrl ∧ (regWrite r v s).status = s.status ∧
      (regWrite r v s).errAddr = s.errAddr := by
  cases r with
  | ctrl => exact absurd rfl hr
  | _ => exact ⟨rfl, rfl, rfl⟩

/-- What an event that is a step can do to CTRL and the fault record. -/
inductive EventEffect (s t : State) : HostEvent → Prop
  | command (w : Word) (h : cmdWrite w s = .next t) : EventEffect s t (.write 0x008 .w32 w)
  | reset {e : HostEvent} (he : e.isReset = true) (ht : t = s.resetEngine) : EventEffect s t e
  | control (v : Word) (hv : v.getLsbD 0 = false) (ht : t = { s with ctrl := ctrlOfWord v }) :
      EventEffect s t (.write 0x000 .w32 v)
  | other {e : HostEvent} (he : e.isReset = false) (hctrl : t.ctrl = s.ctrl) (hstatus : t.status = s.status)
      (haddr : t.errAddr = s.errAddr) : EventEffect s t e

theorem mmioWrite_eventEffect {off : Nat} {v : Word} {s t : State} (h : mmioWrite off v s = .next t) :
    EventEffect s t (.write off .w32 v) := by
  by_cases hcmd : windowReg off = .cmd
  · rw [mmioWrite, if_pos hcmd] at h
    rw [windowReg_eq_cmd hcmd]
    exact .command v h
  rw [mmioWrite, if_neg hcmd] at h
  cases h
  by_cases hctrl : windowReg off = .ctrl
  · cases hv : v.getLsbD 0 with
    | true => exact .reset (by simp [HostEvent.isReset, hctrl, hv]) (by rw [hctrl]; exact ctrlWrite_softReset hv s)
    | false =>
      rw [windowReg_eq_ctrl hctrl]
      exact .control v hv (ctrlWrite_store hv s)
  · obtain ⟨hkeeps, hstatus, haddr⟩ := regWrite_keepsFault hctrl v s
    exact .other (by simp [HostEvent.isReset, hctrl]) hkeeps hstatus haddr

theorem hostEvent_eventEffect {e : HostEvent} {s t : State} (h : hostEvent e s = .next t) :
    EventEffect s t e := by
  cases e with
  | write off width v =>
    cases hlegal : accessInModel off width with
    | false => simp [hostEvent, hlegal] at h
    | true =>
      obtain ⟨rfl, haligned, hwindow⟩ := accessInModel_eq_true_iff.mp hlegal
      rw [hostEvent_write_w32 haligned hwindow] at h
      exact mmioWrite_eventEffect h
  | read off width =>
    cases hlegal : accessInModel off width with
    | false => simp [hostEvent, hlegal] at h
    | true =>
      obtain ⟨rfl, haligned, hwindow⟩ := accessInModel_eq_true_iff.mp hlegal
      rw [hostEvent_read_w32 haligned hwindow] at h
      cases h
      exact .other rfl rfl rfl rfl
  | store a v =>
    cases h
    exact .other rfl rfl rfl rfl
  | powerOnReset =>
    cases h
    exact .reset rfl rfl

/-- A halted engine steps on every legal event: no command runs, so the model cannot stop in one. -/
theorem hostEvent_of_halted {e : HostEvent} {s : State} (herr : s.status.err = true) (hlegal : e.legal = true) :
    ∃ t, hostEvent e s = .next t := by
  cases e with
  | write off width v =>
    obtain ⟨rfl, haligned, hwindow⟩ := accessInModel_eq_true_iff.mp hlegal
    rw [hostEvent_write_w32 haligned hwindow, mmioWrite]
    split
    · exact ⟨s, cmdWrite_of_halted herr⟩
    · exact ⟨_, rfl⟩
  | read off width => exact ⟨_, if_pos hlegal⟩
  | store a v => exact ⟨_, rfl⟩
  | powerOnReset => exact ⟨_, rfl⟩

theorem isReset_write_cmd (w : Word) : (HostEvent.write 0x008 .w32 w).isReset = false := rfl

theorem isReset_write_ctrl (v : Word) : (HostEvent.write 0x000 .w32 v).isReset = v.getLsbD 0 := rfl

/-- An event of a halted engine resets it or keeps the fault record (R237). -/
theorem hostEvent_halted_cases {e : HostEvent} {s t : State} (herr : s.status.err = true)
    (h : hostEvent e s = .next t) : e.isReset = true ∧ t = s.resetEngine ∨
      e.isReset = false ∧ t.status = s.status ∧ t.errAddr = s.errAddr := by
  cases hostEvent_eventEffect h with
  | command w hcmd =>
    rw [cmdWrite_of_halted herr] at hcmd
    cases hcmd
    exact .inr ⟨isReset_write_cmd w, rfl, rfl⟩
  | reset he ht => exact .inl ⟨he, ht⟩
  | control v hv ht =>
    rw [ht]
    exact .inr ⟨(isReset_write_ctrl v).trans hv, rfl, rfl⟩
  | other he _ hstatus haddr => exact .inr ⟨he, hstatus, haddr⟩

/-! ### The interrupt (R240) -/

theorem State.irq_eq_true_iff {s : State} : s.irq = true ↔ s.status.err = true ∧ s.ctrl.errIe = true := by
  rw [State.irq, Bool.and_eq_true]

/-- The only ways up. -/
theorem hostEvent_irq_rise {e : HostEvent} {s t : State} (h : hostEvent e s = .next t) (hs : s.irq = false)
    (ht : t.irq = true) :
    (∃ w, e = .write 0x008 .w32 w ∧ s.status.err = false ∧ t.status.err = true ∧ s.ctrl.errIe = true) ∨
      (∃ v, e = .write 0x000 .w32 v ∧ v.getLsbD 0 = false ∧ v.getLsbD 3 = true ∧ s.status.err = true) := by
  obtain ⟨herr, hie⟩ := State.irq_eq_true_iff.mp ht
  cases hostEvent_eventEffect h with
  | command w hcmd =>
    rw [cmdWrite_ctrl hcmd] at hie
    exact .inl ⟨w, rfl, by simpa [State.irq, hie] using hs, herr, hie⟩
  | reset _ hreset => simp [hreset, State.reset] at herr
  | control v hv hstore =>
    rw [hstore] at herr hie
    exact .inr ⟨v, rfl, hv, hie, herr⟩
  | other _ hctrl hstatus _ =>
    have hsame : t.irq = s.irq := by rw [State.irq, State.irq, hctrl, hstatus]
    simp [hsame, hs] at ht

/-- The only ways down. -/
theorem hostEvent_irq_fall {e : HostEvent} {s t : State} (h : hostEvent e s = .next t) (hs : s.irq = true)
    (ht : t.irq = false) : e.isReset = true ∨ ∃ v, e = .write 0x000 .w32 v ∧ v.getLsbD 3 = false := by
  obtain ⟨herr, -⟩ := State.irq_eq_true_iff.mp hs
  cases hostEvent_eventEffect h with
  | command w hcmd =>
    rw [cmdWrite_of_halted herr] at hcmd
    cases hcmd
    simp [hs] at ht
  | reset he _ => exact .inl he
  | control v _ hstore =>
    have hbit : (s.status.err && v.getLsbD 3) = false := by rwa [hstore] at ht
    exact .inr ⟨v, rfl, by simpa [herr] using hbit⟩
  | other _ hctrl hstatus _ =>
    have hsame : t.irq = s.irq := by rw [State.irq, State.irq, hctrl, hstatus]
    simp [hsame, hs] at ht

/-! ### The obligations -/

/-- Settles O20: a legal event of a halted engine is a step, which resets it or keeps the record. -/
theorem onlyResetLeavesTheFault : Obligations.OnlyResetLeavesTheFault := by
  intro e rest s herr hinbox hlegal
  obtain ⟨t, ht⟩ := hostEvent_of_halted (s := { s with inbox := rest }) herr hlegal
  refine ⟨t, (step_of_inbox hinbox).trans ht, ?_⟩
  obtain ⟨hreset, rfl⟩ | ⟨hreset, hkeeps⟩ := hostEvent_halted_cases (s := { s with inbox := rest }) herr ht
  · exact ⟨fun _ => ⟨rfl, rfl, rfl, rfl, resetTable_resetEngine _⟩, fun hno => by simp [hreset] at hno⟩
  · exact ⟨fun hno => by simp [hreset] at hno, fun _ => hkeeps⟩

/-- Settles O22: the record that a command's fault leaves, by its code. -/
theorem errAddrByCode : Obligations.ErrAddrByCode := by
  intro w s t herr hcmd hfault
  obtain ⟨-, hno | ⟨u, code, addr, ht, hrecord⟩⟩ := cmdWrite_commandEnd herr hcmd
  · simp [hno] at hfault
  have hcode : t.status.errCode = code.number := by rw [ht]; rfl
  have hvalid : t.status.errAddrValid = addr.isSome := by rw [ht]; rfl
  have haddr : t.errAddr = addr.getD 0#32 := by rw [ht]; rfl
  rw [hcode, hvalid, haddr]
  simp only [ErrCode.number_inj]
  generalize hdecode : decode w = cmd at hrecord
  cases hrecord with
  | bus haccess =>
    refine ⟨fun _ => ⟨rfl, _, _, rfl, haccess, busFaultAccess_refused haccess⟩, ?_, ?_, ?_⟩ <;> simp
  | trailer hmem hsrc =>
    obtain rfl | rfl := List.mem_pair.mp hmem <;> simp [hsrc]
  | unfilter hmem =>
    have hop := opField_of_decode hdecode
    simp only [List.mem_cons, List.not_mem_nil, or_false] at hmem
    obtain rfl | rfl | rfl := hmem <;> simp [hop, Instr.opcode]
  | unfilterByte hmem =>
    have hop := opField_of_decode hdecode
    simp only [List.mem_cons, List.not_mem_nil, or_false] at hmem
    obtain rfl | rfl | rfl := hmem <;> simp [hop, Instr.opcode]
  | noAddress hmem =>
    simp only [List.mem_cons, List.not_mem_nil, or_false] at hmem
    obtain rfl | rfl | rfl | rfl := hmem <;> simp

/-- Settles O23: the level is the conjunction of ERR and ERR_IE; its ways up and down by the effect of the
event on the two. -/
theorem irqFollowsErrAndEnable : Obligations.IrqFollowsErrAndEnable := by
  refine ⟨fun s => ⟨State.irq_eq_true_iff, ?level⟩, fun e rest s t hinbox hstep => ?ways⟩
  case level =>
    obtain ⟨-, -, -, -, -, hirq, -⟩ := statusWord_fields s.status s.irq
    exact hirq
  case ways =>
    rw [step_of_inbox hinbox] at hstep
    exact ⟨hostEvent_irq_rise (s := { s with inbox := rest }) hstep,
      hostEvent_irq_fall (s := { s with inbox := rest }) hstep⟩

/-- Settles O19: the CMD port's first test, and the window's accesses, which do not look at ERR. -/
theorem haltedEngineIgnoresCommands : Obligations.HaltedEngineIgnoresCommands := by
  refine fun s herr => ⟨fun w => cmdWrite_of_halted herr, fun off haligned hwindow =>
    hostEvent_read_w32 haligned hwindow s, fun off v hoff => ?data, fun i v hi => ?pal⟩
  case data =>
    simp only [List.mem_cons, List.not_mem_nil, or_false] at hoff
    obtain rfl | rfl | rfl | rfl | rfl | rfl | rfl | rfl := hoff <;> exact ⟨_, rfl, rfl⟩
  case pal => exact ⟨_, hostEvent_write_pal hi v s, by rw [setPal_pal_getElem? hi, if_pos rfl]⟩

end Sys2Proof.Machine

end Exceptions

/-! ## Hazards: the configuration a pass uses is the latched one (spec/70_reset_and_hazards.md R263) -/

section Hazards

namespace Sys2Proof.Machine

/-! ### Filter commands and changes the filter unit does not see -/

theorem exec_unfilterByte_mapState {g : State → State} (h : UnrelatedFilter g) (v : Byte) (s : State) :
    exec (.unfilterByte v) (g s) = mapNext g (exec (.unfilterByte v) s) :=
  toOutcome_eq_mapNext (filterByte_mapState h v none s)

/-- UNFILTER moves SRC_ADDR too, which a change it does not see must leave alone. -/
theorem exec_unfilter_mapState {g : State → State} (h : UnrelatedFilter g)
    (hsrc : ∀ s, (g s).srcAddr = s.srcAddr) (hadv : ∀ s n, (g s).advanceSrc n = g (s.advanceSrc n))
    (len : BitVec 24) (s : State) : exec (.unfilter len) (g s) = mapNext g (exec (.unfilter len) s) := by
  refine toOutcome_eq_mapNext (streamBytes_mapState h.toUnrelated hsrc hadv (fun v t => ?_) len.toNat s)
  rw [hsrc]
  exact filterByte_mapState h v (some t.srcAddr) t

/-! ### The live configuration registers -/

/-- The filter unit neither reads nor writes the live configuration: it works from the latches. -/
theorem unrelatedFilter_withConfig (w r : Word) (f : Fmt) (stride xstep : Word) :
    UnrelatedFilter fun s => s.withConfig w r f stride xstep where
  platform _ := rfl
  mem _ := rfl
  busLog _ := rfl
  pal _ := rfl
  dstAddr _ := rfl
  store _ _ _ := rfl
  enterFault _ _ _ := rfl
  filt _ := rfl
  latch _ := rfl
  cur _ := rfl
  prev _ := rfl
  tap _ := rfl
  start _ _ := rfl
  payload _ _ := rfl
  finish _ _ := rfl
  feed _ _ := rfl

/-- A PASS_BEGIN that goes through has begun the pass of a geometry check_config gave. -/
theorem exec_passBegin_noFault {s t : State} (h : exec .passBegin s = .next t) (hno : t.status.err = false) :
    ∃ g, t = beginPass g s := by
  obtain ⟨g, -, hbegin⟩ | ⟨code, -, hfault⟩ := exec_passBegin_cases s
  · exact ⟨g, Host.Outcome.next.inj (h.symm.trans hbegin)⟩
  · obtain rfl := Host.Outcome.next.inj (h.symm.trans hfault)
    exact absurd hno (by simp)

/-! ### The obligation -/

/-- Settles O50: the live configuration goes through the filter commands unseen, PASS_BEGIN latches it, and the
pass goes through SWIZZLE_ROW unseen. -/
theorem passIgnoresLiveConfiguration : Obligations.PassIgnoresLiveConfiguration := by
  refine fun s => ⟨fun w r f stride xstep => ?filter, fun t ht _ hno => ?latch, fun l f cur prev =>
    exec_swizzleRow_withPass l f cur prev s⟩
  case filter =>
    have h := unrelatedFilter_withConfig w r f stride xstep
    exact ⟨fun len => exec_unfilter_mapState h (fun _ => rfl) (fun _ _ => rfl) len s,
      fun v => exec_unfilterByte_mapState h v s⟩
  case latch =>
    obtain ⟨g, rfl⟩ := exec_passBegin_noFault ht hno
    exact ⟨rfl, rfl, rfl, rfl, rfl⟩

end Sys2Proof.Machine

end Hazards

/-! ## Round trips: a command and its word (spec/30_encoding.md R80 to R86) -/

section RoundTrip

namespace Sys2Proof

open Machine

/-- The word of every command has its opcode and its form's reserved bits 0 (30_encoding.md R80, R83). -/
theorem opcodeField (i : Instr) : Laws.OpcodeField.Statement i := by
  cases i with
  | nop => exact Laws.OpcodeField.nop
  | crcInit => exact Laws.OpcodeField.crcInit
  | crcByte v => exact Laws.OpcodeField.crcByte v
  | crcMem len => exact Laws.OpcodeField.crcMem len
  | crcCheck k => exact Laws.OpcodeField.crcCheck k
  | adlerInit => exact Laws.OpcodeField.adlerInit
  | adlerByte v => exact Laws.OpcodeField.adlerByte v
  | adlerMem len => exact Laws.OpcodeField.adlerMem len
  | adlerCheck k => exact Laws.OpcodeField.adlerCheck k
  | passBegin => exact Laws.OpcodeField.passBegin
  | unfilterByte v => exact Laws.OpcodeField.unfilterByte v
  | unfilter len => exact Laws.OpcodeField.unfilter len
  | palLoad n => exact Laws.OpcodeField.palLoad n
  | swizzleRow => exact Laws.OpcodeField.swizzleRow

theorem decode_encode (i : Instr) : decode (encode i) = .ok i := by
  rw [decode_of_and_mask (opcodeField i).2, instr_encode]

/-- An operand of `n` bits at the low end of the operand field. -/
theorem setWidth_extractLsb'_eq_and {n : Nat} (hn : n ≤ 24) (w : Word) :
    (w.extractLsb' 0 n).setWidth 24 = lenField w &&& BitVec.ofNat 24 (2 ^ n - 1) := by
  have hpow : 2 ^ n ∣ 2 ^ 24 := Nat.pow_dvd_pow 2 hn
  have hmask : (2 ^ n - 1) % 2 ^ 24 = 2 ^ n - 1 :=
    Nat.mod_eq_of_lt (by have := Nat.pow_le_pow_right (n := 2) (by decide) hn; omega)
  have hwidth : w.toNat % 2 ^ n % 2 ^ 24 = w.toNat % 2 ^ n :=
    Nat.mod_eq_of_lt ((Nat.mod_lt _ (by positivity)).trans_le (Nat.le_of_dvd (by decide) hpow))
  apply BitVec.eq_of_toNat_eq
  rw [BitVec.toNat_setWidth, BitVec.extractLsb'_toNat, Nat.shiftRight_zero, BitVec.toNat_and, lenField_toNat,
    BitVec.toNat_ofNat, hmask, Nat.and_two_pow_sub_one_eq_mod, Nat.mod_mod_of_dvd _ hpow, hwidth]

/-- The operand field of an opcode's command is what the form of the opcode does not reserve. -/
theorem operandField_instr (o : Opcode) (w : Word) :
    (o.instr w).operandField = lenField w &&& ~~~lenField o.form.mask := by
  have hk : (BitVec.ofBool (kField w)).setWidth 24 = lenField w &&& 1#24 := by
    rw [kField, ← extractLsb'_one_eq_ofBool]
    exact setWidth_extractLsb'_eq_and (n := 1) (by decide) w
  cases o with
  | nop | crcInit | adlerInit | passBegin | swizzleRow => exact BitVec.and_zero.symm
  | crcByte | adlerByte | unfilterByte => exact setWidth_extractLsb'_eq_and (n := 8) (by decide) w
  | crcMem | adlerMem | unfilter => exact BitVec.and_allOnes.symm
  | crcCheck | adlerCheck => exact hk
  | palLoad => exact setWidth_extractLsb'_eq_and (n := 9) (by decide) w

theorem encode_of_decode {w : Word} {i : Instr} (h : decode w = .ok i) : encode i = w := by
  obtain ⟨o, hnumber, hmask, rfl⟩ := decode_ok.mp h
  have hreserved : lenField w &&& lenField o.form.mask = 0#24 :=
    reservedBits_eq_zero_iff.mp (and_mask_eq_word_iff.mp hmask).2
  have hoperand : lenField w &&& ~~~lenField o.form.mask = lenField w := by
    have hsplit : lenField w &&& (lenField o.form.mask ||| ~~~lenField o.form.mask) = lenField w := by
      rw [BitVec.or_not_self, BitVec.and_allOnes]
    rwa [BitVec.and_or_distrib_left, hreserved, BitVec.zero_or] at hsplit
  rw [encode, Opcode.opcode_instr, operandField_instr, hoperand, hnumber, opField_append_lenField]

/-- Settles O1: the word's opcode selects the command, and its fields are the command's operands. -/
theorem decodeEncodeRoundTrip : Obligations.DecodeEncodeRoundTrip := decode_encode

/-- Settles O2: OP and the operand field of the word are those of the command it decodes to. -/
theorem encodeDecodeInverse : Obligations.EncodeDecodeInverse := fun _ _ => encode_of_decode

end Sys2Proof

end RoundTrip

/-! ## The invariant: every command and every event keeps it, and none of them stops the model
(spec/10_state.md R40 to R42; spec/93_implementation_defined.md U3) -/

section Invariant

namespace Sys2Proof.Machine

/-! ### Commands -/

/-- The fields that the invariant reads. -/
def State.invFields (s : State) :=
  (s.mem, s.cur, s.prev, s.platform, s.latch, s.filt, s.status.err, s.status.errCode,
   s.status.errAddrValid, s.errAddr)

theorem engineInv_of_invFields {s t : State} (h : EngineInv s) (hfields : t.invFields = s.invFields) :
    EngineInv t := by
  simp only [State.invFields, Prod.mk.injEq] at hfields
  obtain ⟨hmem, hcur, hprev, hplatform, hlatch, hfilt, herr, hcode, hvalid, haddr⟩ := hfields
  exact engineInv_congr h hmem hcur hprev hplatform hlatch hfilt herr hcode hvalid haddr

section Commands

variable {s : State}

/-- A reset engine meets the invariant on every legal platform and every memory in canonical form. -/
theorem engineInv_resetEngine (hmem : Memory.wf s.mem) (hplatform : s.platform.Legal) :
    EngineInv s.resetEngine where
  mem := hmem
  cur := RowBuf.wf_nil _
  prev := RowBuf.wf_nil _
  platform := hplatform
  latch := fun h => absurd rfl h
  live := by simp [State.reset]
  rowCount := Nat.le_refl 0
  first := iff_of_true rfl rfl
  posZero := fun _ => rfl
  pos := nofun
  posLive := nofun
  curWritten := nofun
  prevWritten := nofun
  noFault := fun _ => ⟨rfl, rfl, rfl⟩
  faultCode := nofun
  faultAddr := fun _ => rfl

/-- CRC_MEM and ADLER_MEM, for a feed that the invariant does not see. -/
theorem streamFeed_engineInv {feed : Byte → State → State} (hfeed : ∀ v t, EngineInv t → EngineInv (feed v t))
    (h : EngineInv s) (n : Nat) :
    (streamBytes (fun v t => .ok () (feed v t)) n s).Good (fun _ => EngineInv) EngineInv :=
  streamBytes_good (fun _ _ ht _ => engineInv_enterFault _ _ ht)
    (fun v t ht => (Res.good_ok _ _ _ _).mpr (engineInv_advanceSrc 1 (hfeed v t ht))) n s h

theorem checkTrailer_engineInv {running : State → Word} {setMatch : State → Bool → State} {code : ErrCode}
    {k : Bool} (h : EngineInv s) (hmatch : ∀ b, EngineInv (setMatch s b)) :
    (checkTrailer running setMatch code k s).Good (fun _ => EngineInv) EngineInv := by
  refine ((readTrailer_good (fun _ => True) s.srcAddr s).mono (fun _ _ ht => ht) fun t ht =>
    engineInv_busFault (engineInv_fault h) ht).bind ?_
  rintro w t ⟨rfl, -⟩
  split
  · exact engineInv_advanceSrc 4 (hmatch true)
  split
  · exact engineInv_enterFault _ _ (hmatch false)
  · exact engineInv_advanceSrc 4 (engineInv_of_invFields (hmatch false) rfl)

theorem loadPalEntry_engineInv (h : EngineInv s) (i : Nat) :
    (loadPalEntry i s).Good (fun _ => EngineInv) EngineInv := by
  have hread : ∀ a, (busRead a s).Good (fun _ t => t = s) EngineInv := fun a =>
    (busRead_good (fun _ => True) a s).mono (fun _ _ ht => ht.1) fun t ht =>
      engineInv_busFault (engineInv_fault h) ht
  refine (hread _).bind ?_
  rintro r t rfl
  refine (hread _).bind ?_
  rintro g u rfl
  refine (hread _).bind ?_
  rintro b t rfl
  exact engineInv_of_invFields h rfl

/-- The row of SWIZZLE_ROW, staged and then emitted. -/
theorem swizzleRow_engineInv {g : Geometry} (h : EngineInv s)
    (hg : checkConfig s.width s.fmt s.platform.maxRowBytes = .ok g) :
    ((readBytes s.srcAddr g.rowBytes s).bind fun row t =>
      (emitRow row t.width t.fmt t.dstXstep t).bind fun _ t =>
        .ok () ((t.advanceSrc g.rowBytes).advanceDst t.dstStride)).Good (fun _ => EngineInv) EngineInv := by
  refine ((readBytes_good (fun _ => True) s.srcAddr g.rowBytes s).mono (fun _ _ ht => ht) fun t ht =>
    engineInv_busFault (engineInv_fault h) ht).bind ?_
  rintro _ t ⟨rfl, rfl⟩
  refine ((emitRow_good hg (State.bytesFrom_length _ _ _) t.dstXstep t).mono
    (fun _ _ hu => engineInv_busEffect h hu) fun u hu => engineInv_busFault (engineInv_fault h) hu).bind ?_
  intro _ u hu
  exact engineInv_of_invFields hu rfl

/-- UNFILTER, byte after byte. -/
theorem unfilter_engineInv (h : EngineInv s) (herr : s.status.err = false) (n : Nat) :
    (streamBytes (fun v t => filterByte v (some t.srcAddr) t) n s).Good
      (fun _ t => EngineInv t ∧ t.status.err = false) EngineInv :=
  streamBytes_good (P := fun t => EngineInv t ∧ t.status.err = false)
    (fun _ _ ht _ => engineInv_enterFault _ _ ht.1)
    (fun v _ ht => (engineInv_filterByte ht.1 ht.2 v _).mono
      (fun _ _ hu => ⟨engineInv_advanceSrc 1 hu.1, hu.2⟩) fun _ hu => hu) n s ⟨h, herr⟩

/-- Every command keeps the invariant, and the model does not stop on one. -/
theorem exec_engineInv (h : EngineInv s) (herr : s.status.err = false) (i : Instr) :
    ∃ t, exec i s = .next t ∧ EngineInv t := by
  have hcommand : ∀ {r : Res Unit}, r.Good (fun _ => EngineInv) EngineInv →
      ∃ t, r.toOutcome = .next t ∧ EngineInv t := fun hr =>
    hr.toOutcome.imp fun _ ht => ⟨ht.1, ht.2.elim id id⟩
  cases i with
  | nop => exact ⟨s, rfl, h⟩
  | crcInit | crcByte _ | adlerInit | adlerByte _ =>
    exact ⟨_, rfl, engineInv_of_invFields h rfl⟩
  | crcMem _ =>
    exact hcommand (streamFeed_engineInv (feed := feedCrc) (fun _ _ ht => engineInv_of_invFields ht rfl) h _)
  | adlerMem _ =>
    exact hcommand (streamFeed_engineInv (feed := feedAdler) (fun _ _ ht => engineInv_of_invFields ht rfl) h _)
  | crcCheck _ | adlerCheck _ =>
    exact hcommand (checkTrailer_engineInv h fun _ => engineInv_of_invFields h rfl)
  | passBegin =>
    obtain ⟨g, hg, hbegin⟩ | ⟨code, -, hfault⟩ := exec_passBegin_cases s
    · exact ⟨_, hbegin, engineInv_beginPass h hg⟩
    · exact ⟨_, hfault, engineInv_enterFault _ _ h⟩
  | unfilterByte v =>
    exact hcommand ((engineInv_filterByte h herr v none).mono (fun _ _ ht => ht.1) fun _ ht => ht)
  | unfilter len => exact hcommand ((unfilter_engineInv h herr len.toNat).mono (fun _ _ ht => ht.1) fun _ ht => ht)
  | palLoad n =>
    refine hcommand ?_
    split
    · exact engineInv_enterFault _ _ h
    · exact forRange_good (P := EngineInv) _ _ (fun i _ _ t ht => loadPalEntry_engineInv ht i) s h
  | swizzleRow =>
    cases hg : checkConfig s.width s.fmt s.platform.maxRowBytes with
    | error code => exact ⟨_, exec_swizzleRow_badConfig hg, engineInv_enterFault _ _ h⟩
    | ok g =>
      rw [exec, execSwizzleRow, liveConfig_ok hg, Res.bind_ok]
      exact hcommand (swizzleRow_engineInv h hg)

end Commands

/-! ### Events -/

theorem cmdWrite_engineInv {s : State} (h : EngineInv s) (w : Word) :
    ∃ t, cmdWrite w s = .next t ∧ EngineInv t := by
  cases herr : s.status.err with
  | true => exact ⟨s, cmdWrite_of_halted herr, h⟩
  | false =>
    cases hdecode : decode w with
    | error e => exact ⟨_, by rw [cmdWrite, herr, hdecode]; rfl, engineInv_enterFault .badCmd none h⟩
    | ok i =>
      rw [cmdWrite_of_decode herr hdecode]
      exact exec_engineInv h herr i

/-- A host write to a register reaches no field that the invariant reads, unless it resets the engine. -/
theorem regWrite_engineInv {s : State} (h : EngineInv s) (r : WindowReg) (v : Word) :
    EngineInv (regWrite r v s) := by
  cases r with
  | ctrl =>
    rw [regWrite, ctrlWrite]
    split
    · exact engineInv_resetEngine h.mem h.platform
    · exact engineInv_of_invFields h rfl
  | status | cmd | errAddr | fstate | rowPos | rowCount | rowBytes | fdist | reserved => exact h
  | crc | adler | srcAddr | dstAddr | dstStride | dstXstep | width | rows | fmt | pal _ =>
    exact engineInv_of_invFields h rfl

/-- Every legal event is a step that keeps the invariant. -/
theorem hostEvent_engineInv {s : State} (h : EngineInv s) {e : HostEvent} (he : e.legal = true) :
    ∃ t, hostEvent e s = .next t ∧ EngineInv t := by
  cases e with
  | write off width v =>
    obtain ⟨rfl, haligned, hwindow⟩ := accessInModel_eq_true_iff.mp he
    rw [hostEvent_write_w32 haligned hwindow, mmioWrite]
    split
    · exact cmdWrite_engineInv h v
    · exact ⟨_, rfl, regWrite_engineInv h _ v⟩
  | read off width => exact ⟨_, if_pos he, engineInv_of_invFields h rfl⟩
  | store a v =>
    exact ⟨_, rfl, { h with mem := Memory.wf_write a v h.mem, latch := h.latch, noFault := h.noFault }⟩
  | powerOnReset => exact ⟨_, rfl, engineInv_resetEngine h.mem h.platform⟩

/-- Only legal events are steps. -/
theorem legal_of_hostEvent {e : HostEvent} {s t : State} (h : hostEvent e s = .next t) : e.legal = true := by
  cases e with
  | write off width v =>
    by_contra hillegal
    cases h.symm.trans (if_neg hillegal)
  | read off width =>
    by_contra hillegal
    cases h.symm.trans (if_neg hillegal)
  | store a v => rfl
  | powerOnReset => rfl

theorem engineInv_setInbox {s : State} (h : EngineInv s) (rest : List HostEvent) :
    EngineInv { s with inbox := rest } :=
  engineInv_of_invFields h rfl

theorem step_of_inbox_nil {s : State} (h : s.inbox = []) : step s = .next s := by
  simp only [step, takeEvent, h]

/-! ### The obligations -/

/-- Settles O11: the reset state is a reset of itself. -/
theorem invariantHoldsAtReset : Obligations.InvariantHoldsAtReset :=
  engineInv_resetEngine (s := State.reset) Memory.wf_nil ⟨by decide, by decide⟩

/-- Settles O12: the event of a step is legal, and every legal event keeps the invariant. -/
theorem stepKeepsInvariant : Obligations.StepKeepsInvariant := by
  intro s t hinv hstep
  cases hinbox : s.inbox with
  | nil =>
    rw [step_of_inbox_nil hinbox] at hstep
    cases hstep
    exact hinv
  | cons e rest =>
    rw [step_of_inbox hinbox] at hstep
    obtain ⟨u, hu, huinv⟩ := hostEvent_engineInv (engineInv_setInbox hinv rest) (legal_of_hostEvent hstep)
    cases hstep.symm.trans hu
    exact huinv

/-- Settles O13: every legal event is a step under the invariant. -/
theorem legalStepsNeverStop : Obligations.LegalStepsNeverStop := by
  intro s hinv hlegal
  cases hinbox : s.inbox with
  | nil => exact ⟨s, step_of_inbox_nil hinbox⟩
  | cons e rest =>
    obtain ⟨t, ht, -⟩ := hostEvent_engineInv (engineInv_setInbox hinv rest) (hlegal e rest hinbox)
    exact ⟨t, (step_of_inbox hinbox).trans ht⟩

end Sys2Proof.Machine

end Invariant

/-! ## Frames: what a command writes, the codes it raises, and where its stores go
(spec/10_state.md sections 1 and 2; spec/20_memory.md sections 1 and 2; spec/41_filter.md section 3;
spec/60_exceptions.md R231) -/

section Frames

namespace Sys2Proof.Machine

/-! ### Bytes fed to the filter unit -/

/-- The targets of `n` rows of the pass, from the row in progress on. -/
def State.rowTargets (s : State) (n b : Nat) : Prop :=
  ∃ k < n, emitTarget (s.dstAddr + BitVec.ofNat 32 k * s.latch.stride) s.latch.width s.latch.fmt s.latch.xstep
    s.latch.rowBytes b

/-- `t` is `s` after bytes that the filter unit has accepted: they have completed `n` rows, and their stores went
to the targets of `n + m` rows. -/
structure Fed (s : State) (n m : Nat) (t : State) : Prop where
  frame : t = { s with
    adler := t.adler, srcAddr := t.srcAddr, dstAddr := t.dstAddr, filt := t.filt
    cur := t.cur, prev := t.prev, mem := t.mem, busLog := t.busLog }
  tap : s.ctrl.adlerTap = false → t.adler = s.adler
  row : t.filt.row = s.filt.row + BitVec.ofNat 32 n
  dst : t.dstAddr = s.dstAddr + BitVec.ofNat 32 n * s.latch.stride
  bus : BusEffect (s.rowTargets (n + m)) s { s with mem := t.mem, busLog := t.busLog }

/-- Bus writes as seen from a state with the same memory, log and platform. -/
theorem BusEffect.transfer {A : Nat → Prop} {s t s' : State} (h : BusEffect A s t) (hmem : s'.mem = s.mem)
    (hlog : s'.busLog = s.busLog) (hplatform : s'.platform = s.platform) :
    BusEffect A s' { s' with mem := t.mem, busLog := t.busLog } :=
  ⟨rfl, by rw [hmem, hlog, hplatform]; exact h.log⟩

section Fed

variable {s t u : State} {n n' m : Nat}

/-- A change that stores nothing and completes no row. -/
theorem Fed.of_frame (hframe : t = { s with
      adler := t.adler, srcAddr := t.srcAddr, filt := t.filt, cur := t.cur, prev := t.prev })
    (htap : s.ctrl.adlerTap = false → t.adler = s.adler) (hrow : t.filt.row = s.filt.row) : Fed s 0 0 t where
  frame := by rw [hframe]
  tap := htap
  row := by rw [hrow, BitVec.add_zero]
  dst := by rw [hframe, BitVec.zero_mul, BitVec.add_zero]
  bus := by
    rw [hframe]
    exact BusEffect.refl _ s

theorem Fed.refl (s : State) : Fed s 0 0 s := .of_frame rfl (fun _ => rfl) rfl

theorem Fed.platform (h : Fed s n m t) : t.platform = s.platform := by rw [h.frame]

theorem Fed.latch (h : Fed s n m t) : t.latch = s.latch := by rw [h.frame]

theorem Fed.status (h : Fed s n m t) : t.status = s.status := by rw [h.frame]

/-- The targets of later rows, counted from an earlier one. -/
theorem Fed.rowTargets {b : Nat} (h : Fed s n 0 t) (hb : t.rowTargets m b) : s.rowTargets (n + m) b := by
  obtain ⟨k, hk, htarget⟩ := hb
  refine ⟨n + k, by omega, ?_⟩
  rwa [h.latch, h.dst, BitVec.add_assoc, ← BitVec.add_mul, ← BitVec.ofNat_add] at htarget

theorem Fed.trans (h : Fed s n 0 t) (h' : Fed t n' m u) : Fed s (n + n') m u where
  frame := by
    rw [h'.frame, h.frame]
  tap := fun hoff => (h'.tap (by rw [h.frame]; exact hoff)).trans (h.tap hoff)
  row := by rw [h'.row, h.row, BitVec.add_assoc, ← BitVec.ofNat_add]
  dst := by rw [h'.dst, h.dst, h.latch, BitVec.add_assoc, ← BitVec.add_mul, ← BitVec.ofNat_add]
  bus := by
    have hlater : BusEffect (s.rowTargets (n + n' + m)) t { t with mem := u.mem, busLog := u.busLog } :=
      h'.bus.mono fun b hb => by
        rw [Nat.add_assoc]
        exact h.rowTargets hb
    exact (h.bus.mono fun b ⟨k, hk, hb⟩ => ⟨k, by omega, hb⟩).trans
      (hlater.transfer (s' := { s with mem := t.mem, busLog := t.busLog }) rfl rfl h.platform.symm)

theorem Fed.advanceSrc (h : Fed s n 0 t) (k : Nat) : Fed s n 0 (t.advanceSrc k) :=
  h.trans (u := t.advanceSrc k) (.of_frame rfl (fun _ => rfl) rfl)

theorem Fed.adlerTap (h : Fed s n 0 t) (v : Byte) : Fed s n 0 (adlerTap v t) := by
  refine h.trans (.of_frame (by rw [adlerTap_eq]) (fun hoff => ?_) (by rw [adlerTap_filt]))
  rw [adlerTap_adler, hoff]
  rfl

/-- A stored payload byte, and the stores of its row's emission. -/
theorem Fed.of_emission {out : Byte} (h : BusEffect s.rowTarget (storePayload out s) u) : Fed s 0 1 u := by
  have hfirst : ∀ b, s.rowTarget b → s.rowTargets 1 b := fun b hb =>
    ⟨0, Nat.one_pos, by rwa [BitVec.zero_mul, BitVec.add_zero]⟩
  refine ⟨?_, fun _ => ?_, ?_, ?_, (h.mono hfirst).transfer rfl rfl rfl⟩
  all_goals rw [h.frame]
  · rfl
  · rfl
  · exact (BitVec.add_zero _).symm
  · rw [BitVec.zero_mul, BitVec.add_zero]
    rfl

/-- The row that the byte completes is finished. -/
theorem Fed.of_finishRow {out : Byte} (h : BusEffect s.rowTarget (storePayload out s) u) (row : List Byte) :
    Fed s 1 0 (finishRow row u) where
  frame := by
    rw [h.frame]
    rfl
  tap := fun _ => by
    rw [h.frame]
    rfl
  row := by
    rw [h.frame]
    rfl
  dst := by
    rw [BitVec.one_mul, h.frame]
    rfl
  bus := (Fed.of_emission h).bus

end Fed

/-- `t` is a fault of a byte after at most `n` completed rows: a store of the next row happened only if its
emission was refused, with the row left open at its end. -/
def FedFault (s : State) (n : Nat) (t : State) : Prop :=
  ∃ k ≤ n, ∃ m u code addr, Fed s k m u ∧ code ∈ raisable .unfilter ∧ t = State.enterFault u code addr ∧
    (m = 0 ∨ m = 1 ∧ code = .bus ∧ u.filt.phase = .inRow ∧ u.filt.x.toNat = s.latch.rowBytes)

theorem FedFault.trans {s t u : State} {n n' : Nat} (h : Fed s n 0 t) (h' : FedFault t n' u) :
    FedFault s (n + n') u := by
  obtain ⟨k, hk, m, v, code, addr, hv, hcode, hu, hend⟩ := h'
  rw [h.latch] at hend
  exact ⟨n + k, by omega, m, v, code, addr, h.trans hv, hcode, hu, hend⟩

theorem FedFault.of_raise {code : ErrCode} (hcode : code ∈ raisable .unfilter) (s : State) (addr : Option Addr)
    (n : Nat) : FedFault s n (s.enterFault code addr) :=
  ⟨0, Nat.zero_le n, 0, s, code, addr, .refl s, hcode, rfl, .inl rfl⟩

theorem acceptByte_fed (v : Byte) (a : Option Addr) (s : State) :
    (acceptByte v a s).Sound (fun _ t => ∃ n ≤ 1, Fed s n 0 t) (FedFault s 0) := by
  cases hphase : s.filt.phase with
  | idle =>
    rw [acceptByte_idle hphase]
    exact .of_raise (by decide) s a 0
  | done =>
    rw [acceptByte_done hphase]
    exact .of_raise (by decide) s a 0
  | awaitFilter =>
    rw [acceptByte_await hphase]
    cases filterTypeOf v with
    | none => exact FedFault.of_raise (by decide) s a 0
    | some f => exact ⟨0, Nat.zero_le 1, .of_frame rfl (fun _ => rfl) rfl⟩
  | inRow =>
    rw [acceptByte_inRow hphase]
    refine (payloadByte_sound v s).mono ?_ ?_
    · rintro _ t ⟨out, ⟨-, rfl⟩ | ⟨-, row, u, -, hbus, rfl⟩⟩
      · exact ⟨0, Nat.zero_le 1, .of_frame rfl (fun _ => rfl) rfl⟩
      · exact ⟨1, Nat.le_refl 1, .of_finishRow hbus row⟩
    · rintro t ⟨hx, out, u, b, _, hbus, -, -, rfl⟩
      refine ⟨0, Nat.le_refl 0, 1, u, .bus, some b, .of_emission hbus, by decide, rfl, .inr ⟨rfl, rfl, ?_⟩⟩
      rw [hbus.frame]
      exact ⟨hphase, hx⟩

/-- Every byte of the filter unit, in any state. -/
theorem filterByte_fed (v : Byte) (a : Option Addr) (s : State) :
    (filterByte v a s).Sound (fun _ t => ∃ n ≤ 1, Fed s n 0 t) (FedFault s 0) :=
  (acceptByte_fed v a s).bind fun _ _ ⟨n, hn, ht⟩ => ⟨n, hn, ht.adlerTap v⟩

/-- UNFILTER's bytes: no more rows than bytes. -/
theorem streamBytes_fed (len : Nat) (s : State) :
    (streamBytes (fun v t => filterByte v (some t.srcAddr) t) len s).Sound (fun _ t => ∃ n ≤ len, Fed s n 0 t)
      (FedFault s len) := by
  refine streamBytes_counted (P := fun k t => ∃ n ≤ k, Fed s n 0 t) len ⟨0, Nat.le_refl 0, .refl s⟩ ?_
  rintro k hk t ⟨n, hn, ht⟩
  have hfault : ∀ u, FedFault t 0 u → FedFault s len u := fun u hu => by
    obtain ⟨j, hj, hrest⟩ := FedFault.trans ht hu
    exact ⟨j, by omega, hrest⟩
  rw [streamBytes]
  cases hread : t.platform.admits t.srcAddr .read with
  | false =>
    rw [busRead_refused hread]
    exact hfault _ (.of_raise (by decide) t _ 0)
  | true =>
    rw [busRead_ok hread, Res.bind_ok]
    refine ((filterByte_fed _ _ t).mono (fun _ _ hu => hu) hfault).bind ?_
    rintro _ u ⟨n', hn', hu⟩
    exact ⟨n + n', by omega, (ht.trans hu).advanceSrc 1⟩

/-- How a filter command over at most `len` bytes ends. -/
def FedEnd (s : State) (len : Nat) (t : State) : Prop := (∃ n ≤ len, Fed s n 0 t) ∨ FedFault s len t

theorem exec_unfilterByte_fedEnd {v : Byte} {s t : State} (h : exec (.unfilterByte v) s = .next t) :
    FedEnd s 1 t :=
  ((filterByte_fed v none s).of_next h).imp id fun ⟨k, hk, hrest⟩ => ⟨k, by omega, hrest⟩

theorem exec_unfilter_fedEnd {len : BitVec 24} {s t : State} (h : exec (.unfilter len) s = .next t) :
    FedEnd s len.toNat t := (streamBytes_fed len.toNat s).of_next h

theorem exec_unfilterByte_srcAddr {v : Byte} {s t : State} (h : exec (.unfilterByte v) s = .next t) :
    t.srcAddr = s.srcAddr := by
  obtain hkeeps | ⟨u, hkeeps, -, ⟨_, _, rfl⟩ | ⟨_, _, rfl⟩⟩ := (filterByte_ends v none s).of_next h <;>
    exact hkeeps.srcAddr

/-- The number of completed rows, from the row counter. -/
theorem Fed.rowCount {s t : State} {n m : Nat} (h : Fed s n m t) (hn : n < 2 ^ 32) :
    t.filt.row - s.filt.row = BitVec.ofNat 32 n ∧ (t.filt.row - s.filt.row).toNat = n := by
  have hdiff : t.filt.row - s.filt.row = BitVec.ofNat 32 n := by
    rw [h.row, BitVec.add_comm, BitVec.add_sub_cancel]
  exact ⟨hdiff, by rw [hdiff, BitVec.toNat_ofNat, Nat.mod_eq_of_lt hn]⟩

/-- Every byte outside the targets of the rows that were emitted keeps its value. -/
theorem Fed.outside {s t : State} {n m b : Nat} (h : Fed s n m t) (hb : ¬ s.rowTargets (n + m) b) :
    Memory.read t.mem b = Memory.read s.mem b := h.bus.outside hb

section FedEnd

variable {s t : State} {len : Nat}

/-- What a filter command leaves alone. -/
theorem FedEnd.frame (h : FedEnd s len t) : t = { s with
    status := { s.status with
      err := t.status.err, errAddrValid := t.status.errAddrValid, errCode := t.status.errCode }
    errAddr := t.errAddr, adler := t.adler, srcAddr := t.srcAddr, dstAddr := t.dstAddr
    filt := t.filt
    cur := t.cur, prev := t.prev, mem := t.mem, busLog := t.busLog } := by
  obtain ⟨n, -, ht⟩ | ⟨n, -, m, u, code, addr, hu, -, rfl, -⟩ := h
  · rw [ht.frame]
  · rw [hu.frame]
    rfl

theorem FedEnd.tap (h : FedEnd s len t) (hoff : s.ctrl.adlerTap = false) : t.adler = s.adler := by
  obtain ⟨n, -, ht⟩ | ⟨n, -, m, u, code, addr, hu, -, rfl, -⟩ := h
  · exact ht.tap hoff
  · exact hu.tap hoff

theorem FedEnd.noFault (h : FedEnd s len t) (herr : t.status.err = false) :
    t.status = s.status ∧ t.errAddr = s.errAddr := by
  obtain ⟨n, -, ht⟩ | ⟨n, -, m, u, code, addr, hu, -, rfl, -⟩ := h
  · rw [ht.frame]
    exact ⟨rfl, rfl⟩
  · exact absurd herr (by simp)

/-- DST_ADDR and F_ROW advance together, by no more rows than bytes. -/
theorem FedEnd.rows (h : FedEnd s len t) (hlen : len < 2 ^ 32) :
    t.dstAddr = s.dstAddr + (t.filt.row - s.filt.row) * s.latch.stride ∧
      (t.filt.row - s.filt.row).toNat ≤ len := by
  obtain ⟨n, hn, ht⟩ | ⟨n, hn, m, t, code, addr, ht, -, rfl, -⟩ := h
  all_goals
    obtain ⟨hdiff, hcount⟩ := ht.rowCount (by omega)
    have hdst : t.dstAddr = s.dstAddr + (t.filt.row - s.filt.row) * s.latch.stride := by rw [hdiff, ht.dst]
    exact ⟨hdst, hcount.trans_le hn⟩

/-- A byte keeps its value if no completed row, and no row whose emission was refused, has it as a target. -/
theorem FedEnd.outside (h : FedEnd s len t) (hlen : len < 2 ^ 32) {b : Nat}
    (hb : ∀ k, k < (t.filt.row - s.filt.row).toNat ∨
        (k = (t.filt.row - s.filt.row).toNat ∧ t.status.err = true ∧ t.status.errCode = ErrCode.bus.number ∧
          t.filt.phase = .inRow ∧ t.filt.x.toNat = s.latch.rowBytes) →
      ¬ emitTarget (s.dstAddr + BitVec.ofNat 32 k * s.latch.stride) s.latch.width s.latch.fmt s.latch.xstep
        s.latch.rowBytes b) : Memory.read t.mem b = Memory.read s.mem b := by
  obtain ⟨n, hn, ht⟩ | ⟨n, hn, m, t, code, addr, ht, -, rfl, hend⟩ := h
  · rw [(ht.rowCount (by omega)).2] at hb
    exact ht.outside fun ⟨k, hk, htarget⟩ => hb k (.inl hk) htarget
  · simp only [State.enterFault_filt] at hb
    rw [(ht.rowCount (by omega)).2] at hb
    refine ht.outside fun ⟨k, hk, htarget⟩ => ?_
    obtain rfl | ⟨rfl, rfl, hopen⟩ := hend
    · exact hb k (.inl hk) htarget
    · obtain hlt | rfl := Nat.lt_succ_iff_lt_or_eq.mp hk
      · exact hb k (.inl hlt) htarget
      · exact hb k (.inr ⟨rfl, rfl, rfl, hopen⟩) htarget

end FedEnd

/-- Settles O51: UNFILTER_BYTE feeds one byte, UNFILTER at most its count. -/
theorem unfilterFrame : Obligations.UnfilterFrame := by
  rintro _ s t (⟨len, rfl⟩ | ⟨v, rfl⟩) - hexec
  · have hend := exec_unfilter_fedEnd hexec
    have hlen : len.toNat < 2 ^ 32 := by omega
    obtain ⟨hdst, hrows⟩ := hend.rows hlen
    exact ⟨hend.frame, nofun, hend.tap, hend.noFault, hdst, nofun, fun _ h => by cases h; exact hrows,
      fun b hb => hend.outside hlen hb⟩
  · have hend := exec_unfilterByte_fedEnd hexec
    obtain ⟨hdst, hrows⟩ := hend.rows (by decide)
    exact ⟨hend.frame, fun _ => exec_unfilterByte_srcAddr hexec, hend.tap,
      hend.noFault, hdst, fun _ => hrows, nofun,
      fun b hb => hend.outside (by decide) hb⟩

/-! ### Every command -/

/-- What a command writes before its fault, if it has one: all the rest of `s` stands in `u`. -/
def CommandFrame (s u : State) : Instr → Prop
  | .nop => u = s
  | .crcInit | .crcByte _ => ∃ crc, u = { s with crc := crc }
  | .adlerInit | .adlerByte _ => ∃ adler, u = { s with adler := adler }
  | .crcMem _ => ∃ crc src, u = { s with crc := crc, srcAddr := src }
  | .adlerMem _ => ∃ adler src, u = { s with adler := adler, srcAddr := src }
  | .crcCheck _ => ∃ v log src, (log = s.status.chkLog ∨ log = true) ∧
      u = { s with status := { s.status with crcMatch := v, chkLog := log }, srcAddr := src }
  | .adlerCheck _ => ∃ v log src, (log = s.status.chkLog ∨ log = true) ∧
      u = { s with status := { s.status with adlerMatch := v, chkLog := log }, srcAddr := src }
  | .passBegin => ∃ latch filt, u = { s with latch := latch, filt := filt }
  | .unfilterByte _ => (∃ n m, Fed s n m u) ∧ u.srcAddr = s.srcAddr
  | .unfilter _ => ∃ n m, Fed s n m u
  | .palLoad _ => ∃ pal src, u = { s with pal := pal, srcAddr := src }
  | .swizzleRow => ∃ u' src dst, BusEffect (fun _ => True) s u' ∧ u = { u' with srcAddr := src, dstAddr := dst }

/-- `t` is a fault with one of the codes, entered where `F` holds. -/
def FaultIn (codes : List ErrCode) (F : State → Prop) (t : State) : Prop :=
  ∃ u code addr, F u ∧ code ∈ codes ∧ t = State.enterFault u code addr

theorem FaultIn.of_busFault {A : Nat → Prop} {R : Addr → AccessKind → Prop} {codes : List ErrCode}
    {F : State → Prop} {s t : State} (h : BusFault A R s t) (hcode : .bus ∈ codes)
    (hF : ∀ u, BusEffect A s u → F u) : FaultIn codes F t := by
  obtain ⟨u, a, k, hu, -, -, rfl⟩ := h
  exact ⟨u, .bus, some a, hF u hu, hcode, rfl⟩

/-- With no address to write to, nothing is written. -/
theorem BusEffect.eq_of_false {s t : State} (h : BusEffect (fun _ => False) s t) : t = s := by
  obtain ⟨ws, hlog, hmem, hws⟩ := h.log
  obtain rfl : ws = [] := List.eq_nil_iff_forall_not_mem.mpr fun c hc => (hws c hc).1
  rw [h.frame, hlog, hmem]
  rfl

/-- A read leaves the state, or faults with E_BUS there. -/
theorem busRead_faultIn {codes : List ErrCode} {F : State → Prop} {s : State} (hcode : .bus ∈ codes) (hF : F s)
    (a : Addr) : (busRead a s).Sound (fun _ t => t = s) (FaultIn codes F) :=
  ((busRead_good (fun _ => False) a s).mono (fun _ _ h => h.1) fun _ h =>
    .of_busFault h hcode fun _ hu => by rwa [hu.eq_of_false]).sound

section

variable {s : State}

/-- The streams of CRC_MEM and ADLER_MEM keep what a feed and an advance keep. -/
theorem streamFeed_frame {feed : Byte → State → State} {F : State → Prop}
    (hfeed : ∀ v t, F t → F ((feed v t).advanceSrc 1))
    (hF : F s) (n : Nat) :
    (streamBytes (fun v t => .ok () (feed v t)) n s).Sound (fun _ => F) (FaultIn [.bus] F) :=
  streamBytes_sound (fun t a ht _ => ⟨t, .bus, some a, ht, by decide, rfl⟩)
    (fun v t ht => (Res.sound_ok _ _ _ _).mpr (hfeed v t ht)) n s hF

theorem checkTrailer_frame {running : State → Word} {setMatch : State → Bool → State} {code : ErrCode} {k : Bool}
    {F : State → Prop} (hF : F s) (hmatch : ∀ v, F (setMatch s v) ∧ F ((setMatch s v).advanceSrc 4) ∧
      F ((setMatch s v).setChkLog.advanceSrc 4)) :
    (checkTrailer running setMatch code k s).Sound (fun _ => F) (FaultIn [.badCmd, .bus, code] F) := by
  refine ((readTrailer_good (fun _ => False) s.srcAddr s).sound.mono (fun _ _ h => h) fun t h =>
    .of_busFault h (by simp) fun u hu => by rwa [hu.eq_of_false]).bind ?_
  rintro w t ⟨rfl, -⟩
  split
  · exact (hmatch true).2.1
  split
  · exact ⟨_, code, _, (hmatch false).1, by simp, rfl⟩
  · exact (hmatch false).2.2

theorem palLoad_frame (n : Nat) :
    (forRange loadPalEntry 0 n s).Sound (fun _ t => ∃ pal src, t = { s with pal := pal, srcAddr := src })
      (FaultIn [.bus] fun t => ∃ pal src, t = { s with pal := pal, srcAddr := src }) := by
  refine forRange_sound (P := fun t => ∃ pal src, t = { s with pal := pal, srcAddr := src }) 0 n
    (fun i _ _ t ht => ?_) s ⟨_, _, rfl⟩
  have hread := busRead_faultIn (codes := [.bus])
      (F := fun t => ∃ pal src, t = { s with pal := pal, srcAddr := src })
    (by decide) ht
  refine (hread _).bind ?_
  rintro r _ rfl
  refine (hread _).bind ?_
  rintro g _ rfl
  refine (hread _).bind ?_
  rintro b _ rfl
  obtain ⟨pal, src, rfl⟩ := ht
  exact ⟨_, _, rfl⟩

theorem swizzleRow_frame (g : Geometry) :
    ((readBytes s.srcAddr g.rowBytes s).bind fun row t =>
      (emitRow row t.width t.fmt t.dstXstep t).bind fun _ t =>
        .ok () ((t.advanceSrc g.rowBytes).advanceDst t.dstStride)).Sound
      (fun _ t => CommandFrame s t .swizzleRow) (FaultIn [.bus] fun t => CommandFrame s t .swizzleRow) := by
  refine ((readBytes_good (fun _ => True) s.srcAddr g.rowBytes s).sound.mono (fun _ _ h => h) fun t h =>
    .of_busFault h (by decide) fun u hu => ⟨u, _, _, hu, rfl⟩).bind ?_
  rintro row t ⟨rfl, -⟩
  refine ((emitRow_sound row _ _ _ t).mono (fun _ _ h => h.mono fun _ _ => trivial) fun u h =>
    .of_busFault (h.mono (fun _ _ => trivial) fun _ _ h => h) (by decide) fun v hv => ⟨v, _, _, hv, rfl⟩).bind ?_
  intro _ u hu
  exact ⟨u, _, _, hu, rfl⟩

/-- How a command ends: with what it writes, or there in a fault of one of its codes. -/
def EndsIn (i : Instr) (s t : State) : Prop :=
  CommandFrame s t i ∨ FaultIn (raisable i.opcode) (fun u => CommandFrame s u i) t

theorem FaultIn.mono {codes codes' : List ErrCode} {F : State → Prop} {t : State} (h : FaultIn codes F t)
    (hcodes : ∀ code ∈ codes, code ∈ codes') : FaultIn codes' F t := by
  obtain ⟨u, code, addr, hu, hcode, rfl⟩ := h
  exact ⟨u, code, addr, hu, hcodes code hcode, rfl⟩

theorem exec_endsIn {i : Instr} {t : State} (h : exec i s = .next t) : EndsIn i s t := by
  cases i with
  | nop =>
    cases h
    exact .inl rfl
  | crcInit | crcByte _ | adlerInit | adlerByte _ =>
    cases h
    exact .inl ⟨_, rfl⟩
  | crcMem len =>
    refine (streamFeed_frame (feed := feedCrc) (F := fun u => CommandFrame s u (.crcMem len))
      ?_ ⟨_, _, rfl⟩ _).of_next h
    rintro v _ ⟨crc, src, rfl⟩
    exact ⟨_, _, rfl⟩
  | adlerMem len =>
    refine (streamFeed_frame (feed := feedAdler) (F := fun u => CommandFrame s u (.adlerMem len))
      ?_ ⟨_, _, rfl⟩ _).of_next h
    rintro v _ ⟨adler, src, rfl⟩
    exact ⟨_, _, rfl⟩
  | crcCheck k =>
    exact (checkTrailer_frame (F := fun u => CommandFrame s u (.crcCheck k)) ⟨_, _, _, .inl rfl, rfl⟩ fun v =>
      ⟨⟨v, _, _, .inl rfl, rfl⟩, ⟨v, _, _, .inl rfl, rfl⟩, ⟨v, _, _, .inr rfl, rfl⟩⟩).of_next h
  | adlerCheck k =>
    exact (checkTrailer_frame (F := fun u => CommandFrame s u (.adlerCheck k)) ⟨_, _, _, .inl rfl, rfl⟩ fun v =>
      ⟨⟨v, _, _, .inl rfl, rfl⟩, ⟨v, _, _, .inl rfl, rfl⟩, ⟨v, _, _, .inr rfl, rfl⟩⟩).of_next h
  | passBegin =>
    obtain ⟨g, -, hbegin⟩ | ⟨code, hcode, hfault⟩ := exec_passBegin_cases s
    · cases hbegin.symm.trans h
      exact .inl ⟨_, _, rfl⟩
    · cases hfault.symm.trans h
      exact .inr ⟨s, code, none, ⟨_, _, rfl⟩, List.mem_cons_of_mem _ hcode, rfl⟩
  | unfilterByte v =>
    have hsrc := exec_unfilterByte_srcAddr h
    obtain ⟨n, -, ht⟩ | ⟨n, -, m, u, code, addr, hu, hcode, rfl, -⟩ := exec_unfilterByte_fedEnd h
    · exact .inl ⟨⟨n, 0, ht⟩, hsrc⟩
    · have hcodes : ∀ c ∈ raisable .unfilter, c ∈ raisable .unfilterByte := by decide
      exact .inr ⟨u, code, addr, ⟨⟨n, m, hu⟩, hsrc⟩, hcodes code hcode, rfl⟩
  | unfilter len =>
    obtain ⟨n, -, ht⟩ | ⟨n, -, m, u, code, addr, hu, hcode, rfl, -⟩ := exec_unfilter_fedEnd h
    · exact .inl ⟨n, 0, ht⟩
    · exact .inr ⟨u, code, addr, ⟨n, m, hu⟩, hcode, rfl⟩
  | palLoad n =>
    rw [exec, execPalLoad] at h
    split at h
    · cases h
      exact .inr ⟨s, .badCmd, none, ⟨_, _, rfl⟩, List.mem_cons_self, rfl⟩
    · exact ((palLoad_frame _).of_next h).imp id fun hf => hf.mono fun _ => List.mem_cons_of_mem _
  | swizzleRow =>
    cases hg : checkConfig s.width s.fmt s.platform.maxRowBytes with
    | error code =>
      cases (exec_swizzleRow_badConfig hg).symm.trans h
      have hcode : ∀ c ∈ [ErrCode.badFormat, .unsupported, .rowTooLong], c ∈ raisable .swizzleRow := by decide
      exact .inr ⟨s, code, none, ⟨s, _, _, .refl _ s, rfl⟩, hcode code (checkConfig_error hg), rfl⟩
    | ok g =>
      rw [exec, execSwizzleRow, liveConfig_ok hg, Res.bind_ok] at h
      exact ((swizzleRow_frame g).of_next h).imp id fun hf => hf.mono (by decide)

end

theorem CommandFrame.status_err {i : Instr} {s u : State} (h : CommandFrame s u i) :
    u.status.err = s.status.err := by
  cases i with
  | nop =>
    obtain rfl := h
    rfl
  | crcInit | crcByte _ | adlerInit | adlerByte _ =>
    obtain ⟨_, rfl⟩ := h
    rfl
  | crcMem _ | adlerMem _ | passBegin | palLoad _ =>
    obtain ⟨_, _, rfl⟩ := h
    rfl
  | crcCheck _ | adlerCheck _ =>
    obtain ⟨_, _, _, -, rfl⟩ := h
    rfl
  | unfilterByte _ =>
    obtain ⟨⟨n, m, hu⟩, -⟩ := h
    rw [hu.status]
  | unfilter _ =>
    obtain ⟨n, m, hu⟩ := h
    rw [hu.status]
  | swizzleRow =>
    obtain ⟨u', _, _, hbus, rfl⟩ := h
    rw [hbus.frame]

/-- Bus writes, each admitted and each in the log. -/
def WritesLogged (s t : State) : Prop := BusEffect (fun _ => True) s { s with mem := t.mem, busLog := t.busLog }

/-- The commands that write to the bus, and every command's writes. -/
theorem CommandFrame.writes {i : Instr} {s u : State} (h : CommandFrame s u i) :
    (u.mem = s.mem ∧ u.busLog = s.busLog) ∨
      WritesLogged s u ∧ ((∃ len, i = .unfilter len) ∨ (∃ v, i = .unfilterByte v) ∨ i = .swizzleRow) := by
  cases i with
  | nop =>
    obtain rfl := h
    exact .inl ⟨rfl, rfl⟩
  | crcInit | crcByte _ | adlerInit | adlerByte _ =>
    obtain ⟨_, rfl⟩ := h
    exact .inl ⟨rfl, rfl⟩
  | crcMem _ | adlerMem _ | passBegin | palLoad _ =>
    obtain ⟨_, _, rfl⟩ := h
    exact .inl ⟨rfl, rfl⟩
  | crcCheck _ | adlerCheck _ =>
    obtain ⟨_, _, _, -, rfl⟩ := h
    exact .inl ⟨rfl, rfl⟩
  | unfilterByte v =>
    obtain ⟨⟨n, m, hu⟩, -⟩ := h
    exact .inr ⟨hu.bus.mono fun _ _ => trivial, .inr (.inl ⟨v, rfl⟩)⟩
  | unfilter len =>
    obtain ⟨n, m, hu⟩ := h
    exact .inr ⟨hu.bus.mono fun _ _ => trivial, .inl ⟨len, rfl⟩⟩
  | swizzleRow =>
    obtain ⟨u', _, _, hbus, rfl⟩ := h
    exact .inr ⟨hbus.transfer rfl rfl rfl, .inr (.inr rfl)⟩

/-- A form L word has no reserved bit, so only the other forms have illegal words. -/
theorem badCmd_mem_raisable {w : Word} {o : Opcode} (ho : opcodeOf (opField w) = some o)
    (herror : ∀ i, decode w ≠ .ok i) : .badCmd ∈ raisable o := by
  by_cases hform : o.form = .l
  · refine absurd (decode_of_and_mask (o := o) (and_mask_eq_word_iff.mpr ⟨opcodeOf_some ho, ?_⟩)) (herror _)
    have hmask : lenField o.form.mask = 0#24 := by rw [hform]; rfl
    rw [reservedBits_eq_zero_iff, hmask, BitVec.and_zero]
  · revert hform
    cases o <;> decide

/-! ### The obligations -/

/-- Settles O21: a command's faults by how it ends, and an illegal word's by its form. -/
theorem commandsRaiseOnlyTheirCodes : Obligations.CommandsRaiseOnlyTheirCodes := by
  intro w s t herr hcmd hfault
  by_cases hlegal : ∃ i, decode w = .ok i
  · obtain ⟨i, hdecode⟩ := hlegal
    rw [cmdWrite_of_decode herr hdecode] at hcmd
    rw [opField_of_decode hdecode, opcodeOf_number]
    obtain hframe | ⟨u, code, addr, -, hcode, rfl⟩ := exec_endsIn hcmd
    · rw [hframe.status_err, herr] at hfault
      cases hfault
    · exact ⟨code, hcode, rfl⟩
  · have herror := not_exists.mp hlegal
    cases (cmdWrite_of_illegalWord herr ((illegalWord_iff w).mpr herror)).symm.trans hcmd
    cases ho : opcodeOf (opField w) with
    | none => rfl
    | some o => exact ⟨.badCmd, badCmd_mem_raisable ho herror, rfl⟩

/-- Settles O59: the writes of a command's frame; fault entry makes none. -/
theorem everyMemoryChangeIsAnAdmittedBusWrite : Obligations.EveryMemoryChangeIsAnAdmittedBusWrite := by
  intro i s t hexec
  have hwrites : (t.mem = s.mem ∧ t.busLog = s.busLog) ∨
      WritesLogged s t ∧ ((∃ len, i = .unfilter len) ∨ (∃ v, i = .unfilterByte v) ∨ i = .swizzleRow) := by
    obtain hframe | ⟨u, code, addr, hframe, -, rfl⟩ := exec_endsIn hexec
    · exact hframe.writes
    · exact hframe.writes
  obtain ⟨hmem, hlog⟩ | ⟨hlogged, hi⟩ := hwrites
  · exact ⟨[], hlog, hmem, nofun, fun h => absurd rfl h⟩
  · obtain ⟨ws, hlog, hmem, hadmitted⟩ := hlogged.log
    exact ⟨ws, hlog, hmem, fun c hc => (hadmitted c hc).2, fun _ => hi⟩

/-- Settles O60: each command's frame, with or without its fault. -/
theorem commandsWriteOnlyTheirState : Obligations.CommandsWriteOnlyTheirState := by
  intro i s t hexec
  obtain ⟨u, hframe, hend⟩ : ∃ u, CommandFrame s u i ∧ (t = u ∨ ∃ code addr, t = u.enterFault code addr) := by
    obtain hframe | ⟨u, code, addr, hframe, -, ht⟩ := exec_endsIn hexec
    · exact ⟨t, hframe, .inl rfl⟩
    · exact ⟨u, hframe, .inr ⟨code, addr, ht⟩⟩
  clear hexec
  cases i with
  | nop =>
    obtain rfl := hframe
    obtain rfl | ⟨code, addr, rfl⟩ := hend <;> simp
  | crcInit | crcByte _ | adlerInit | adlerByte _ =>
    obtain ⟨_, rfl⟩ := hframe
    obtain rfl | ⟨code, addr, rfl⟩ := hend <;> simp
  | crcMem _ | adlerMem _ | passBegin | palLoad _ =>
    obtain ⟨_, _, rfl⟩ := hframe
    obtain rfl | ⟨code, addr, rfl⟩ := hend <;> simp
  | crcCheck _ | adlerCheck _ =>
    obtain ⟨_, log, _, hlog, rfl⟩ := hframe
    obtain rfl | ⟨code, addr, rfl⟩ := hend <;> simpa using hlog.resolve_left
  | unfilterByte _ =>
    obtain ⟨⟨n, m, hu⟩, hsrc⟩ := hframe
    obtain ⟨adler, dst, filt, cur, prev, mem, log, rfl, htap⟩ : ∃ adler dst filt cur prev mem log, u = { s with
        adler := adler, dstAddr := dst, filt := filt, cur := cur, prev := prev, mem := mem, busLog := log } ∧
        (s.ctrl.adlerTap = false → adler = s.adler) :=
      ⟨_, _, _, _, _, _, _, hsrc ▸ hu.frame, hu.tap⟩
    obtain rfl | ⟨code, addr, rfl⟩ := hend <;> simpa using mt htap
  | unfilter _ =>
    obtain ⟨n, m, hu⟩ := hframe
    obtain ⟨adler, src, dst, filt, cur, prev, mem, log, rfl, htap⟩ :
        ∃ adler src dst filt cur prev mem log, u = { s with
        adler := adler, srcAddr := src, dstAddr := dst, filt := filt, cur := cur, prev := prev, mem := mem
        busLog := log } ∧ (s.ctrl.adlerTap = false → adler = s.adler) := ⟨_, _, _, _, _, _, _, _, hu.frame, hu.tap⟩
    obtain rfl | ⟨code, addr, rfl⟩ := hend <;> simpa using mt htap
  | swizzleRow =>
    obtain ⟨u', src, dst, hbus, rfl⟩ := hframe
    obtain ⟨mem, log, rfl⟩ : ∃ mem log, u' = { s with mem := mem, busLog := log } := ⟨_, _, hbus.frame⟩
    obtain rfl | ⟨code, addr, rfl⟩ := hend <;> simp

end Sys2Proof.Machine

end Frames

/-! ## Hidden bytes: what CUR and PREV hold beyond the bytes written in the pass is never observable
(spec/10_state.md R42) -/

section HiddenRows

namespace Sys2Proof.Machine

/-! ### States with other row buffers -/

/-- A state with other row buffers. -/
def State.withRows (cur prev : List Host.Cell) (s : State) : State := { s with cur := cur, prev := prev }

/-- The bus and row emission neither read nor write the row buffers. -/
theorem withRows_unrelated (cur prev : List Host.Cell) : Unrelated (State.withRows cur prev) where
  platform _ := rfl
  mem _ := rfl
  busLog _ := rfl
  pal _ := rfl
  dstAddr _ := rfl
  store _ _ _ := rfl
  enterFault _ _ _ := rfl

/-- From `s` to `s'` no byte of the row buffers that may still be read has changed: they are left with the row
state, or a pass has begun. -/
structure KeepsRows (s s' : State) : Prop where
  cur : s'.cur = s.cur
  prev : s'.prev = s.prev
  pass : s'.filt = s.filt ∧ s'.latch = s.latch ∨ s'.filt.phase ≠ .inRow ∧ s'.filt.first = true

theorem KeepsRows.of_eq {s s' : State} (hcur : s'.cur = s.cur) (hprev : s'.prev = s.prev)
    (hfilt : s'.filt = s.filt)
    (hlatch : s'.latch = s.latch) : KeepsRows s s' := ⟨hcur, hprev, .inl ⟨hfilt, hlatch⟩⟩

theorem SameButHidden.refl (s : State) : SameButHidden s s := ⟨rfl, fun _ _ _ => rfl, fun _ _ _ => rfl⟩

theorem SameButHidden.eq_withRows {s t : State} (h : SameButHidden s t) : t = s.withRows t.cur t.prev :=
  h.rest.symm

/-- A change that keeps the rows, made of both states. -/
theorem SameButHidden.of_keepsRows {s t s' : State} (h : SameButHidden s t) (hkeeps : KeepsRows s s') :
    SameButHidden s' (s'.withRows t.cur t.prev) := by
  obtain ⟨hcur, hprev, ⟨hfilt, hlatch⟩ | ⟨hphase, hfirst⟩⟩ := hkeeps
  · exact ⟨rfl, by rw [hfilt, hcur]; exact h.cur, by rw [hfilt, hlatch, hprev]; exact h.prev⟩
  · exact ⟨rfl, fun hrow => absurd hrow hphase, fun hno => by simp [hfirst] at hno⟩

/-! ### Pseudocode run from both states -/

/-- Two runs end alike, in states that differ in hidden bytes only. -/
inductive Res.Alike : Res Unit → Res Unit → Prop
  | ok {s t : State} (h : SameButHidden s t) : Res.Alike (.ok () s) (.ok () t)
  | ended {s t : State} (h : SameButHidden s t) : Res.Alike (.ended s) (.ended t)
  | stuck (f : Fault) : Res.Alike (.stuck f) (.stuck f)

theorem Res.Alike.bind {r r' : Res Unit} {k k' : Unit → State → Res Unit} (h : r.Alike r')
    (hk : ∀ s t, r = .ok () s → SameButHidden s t → (k () s).Alike (k' () t)) : (r.bind k).Alike (r'.bind k') := by
  cases h with
  | ok h => exact hk _ _ rfl h
  | ended h => exact .ended h
  | stuck f => exact .stuck f

theorem Res.Alike.toOutcome {r r' : Res Unit} {s' : State} (h : r.Alike r') (hr : r.toOutcome = .next s') :
    ∃ t', r'.toOutcome = .next t' ∧ SameButHidden s' t' := by
  cases h with
  | ok h | ended h =>
    cases hr
    exact ⟨_, rfl, h⟩
  | stuck f => cases hr

theorem raise_alike {s t : State} (h : SameButHidden s t) (code : ErrCode) (addr : Option Addr) :
    (raise code addr s : Res Unit).Alike (raise code addr t) := by
  rw [h.eq_withRows]
  exact .ended (h.of_keepsRows (.of_eq rfl rfl rfl rfl))

/-! ### The filter unit -/

section Filter

variable {s t : State}

/-- Where the filter unit can take a payload byte, it can with other hidden bytes. -/
theorem State.RowReady.of_sameButHidden (hready : s.RowReady) (hphase : s.filt.phase = .inRow)
    (h : SameButHidden s t) : t.RowReady := by
  rw [h.eq_withRows]
  exact {
    latch := hready.latch
    fits := hready.fits
    pos := hready.pos
    cur := fun j hj => h.cur hphase j hj ▸ hready.cur j hj
    prev := fun hfirst j hj => h.prev hfirst j hj ▸ hready.prev hfirst j hj }

/-- A payload byte, its three neighbours known. -/
theorem payloadByte_eq (h : s.RowReady) {a b c : Byte} (ha : neighbourA s.cur s.filt.x.toNat s.latch.dist = some a)
    (hb : neighbourB s.prev s.filt.first s.filt.x.toNat = some b)
    (hc : neighbourC s.prev s.filt.first s.filt.x.toNat s.latch.dist = some c) (v : Byte) :
    payloadByte v s = if s.filt.x.toNat + 1 = s.latch.rowBytes
      then rowEnd (storePayload (reconstruct s.filt.ftype v a b c) s)
      else .ok () (storePayload (reconstruct s.filt.ftype v a b c) s) := by
  have hmax : s.filt.x.toNat < s.platform.maxRowBytes := Nat.lt_of_lt_of_le h.pos h.latch.rowBytes_le
  simp only [payloadByte, ha, hb, hc, if_pos hmax, storePayload_filt, storePayload_latch, x_succ_toNat h]

theorem SameButHidden.neighbourA_eq (h : SameButHidden s t) (hphase : s.filt.phase = .inRow)
    (hdist : 1 ≤ s.latch.dist) :
    neighbourA t.cur s.filt.x.toNat s.latch.dist = neighbourA s.cur s.filt.x.toNat s.latch.dist := by
  unfold neighbourA
  split
  · exact (h.cur hphase _ (by omega)).symm
  · rfl

theorem SameButHidden.neighbourB_eq (h : SameButHidden s t) (hpos : s.filt.x.toNat < s.latch.rowBytes) :
    neighbourB t.prev s.filt.first s.filt.x.toNat = neighbourB s.prev s.filt.first s.filt.x.toNat := by
  unfold neighbourB
  split
  · rfl
  · exact (h.prev (by simpa using ‹¬s.filt.first = true›) _ hpos).symm

theorem SameButHidden.neighbourC_eq (h : SameButHidden s t) (hpos : s.filt.x.toNat < s.latch.rowBytes) :
    neighbourC t.prev s.filt.first s.filt.x.toNat s.latch.dist
      = neighbourC s.prev s.filt.first s.filt.x.toNat s.latch.dist := by
  unfold neighbourC
  split
  · rfl
  · rename_i hread
    simp only [Bool.or_eq_true, not_or, Bool.not_eq_true] at hread
    exact (h.prev hread.1 _ (by omega)).symm

theorem storePayload_sameButHidden (hready : s.RowReady) (hphase : s.filt.phase = .inRow)
    (h : SameButHidden s t) (out : Byte) : SameButHidden (storePayload out s) (storePayload out t) := by
  have hx : t.filt = s.filt := by rw [h.eq_withRows]; rfl
  refine ⟨?_, fun _ j hj => ?_, h.prev⟩
  · rw [h.eq_withRows]
    rfl
  · rw [storePayload_filt, x_succ_toNat hready] at hj
    rw [storePayload_cur, storePayload_cur, hx, RowBuf.get_put, RowBuf.get_put]
    split
    · rfl
    · exact h.cur hphase j (by omega)

/-- The end of a row, whose bytes are all known. -/
theorem rowEnd_alike (h : SameButHidden s t) (hphase : s.filt.phase = .inRow)
    (hx : s.filt.x.toNat = s.latch.rowBytes) : (rowEnd s).Alike (rowEnd t) := by
  have hslice : RowBuf.slice t.cur 0 s.latch.rowBytes = RowBuf.slice s.cur 0 s.latch.rowBytes :=
    RowBuf.slice_congr fun j hj => by
      rw [Nat.zero_add]
      exact (h.cur hphase j (by omega)).symm
  rw [h.eq_withRows]
  simp only [rowEnd, State.withRows, hslice]
  cases hrow : RowBuf.slice s.cur 0 s.latch.rowBytes with
  | none => exact .stuck _
  | some row =>
    have hsound := emitRow_sound row s.latch.width s.latch.fmt s.latch.xstep s
    have hmap := emitRow_mapState (withRows_unrelated t.cur t.prev) row s.latch.width s.latch.fmt s.latch.xstep s
    simp only [State.withRows] at hmap
    simp only [hmap]
    cases hemit : emitRow row s.latch.width s.latch.fmt s.latch.xstep s with
    | ok _ u =>
      rw [hemit] at hsound
      refine .ok ⟨rfl, fun hrowPhase => ?_, fun _ j hj => ?_⟩
      · rw [finishRow_filt_phase] at hrowPhase
        split at hrowPhase <;> cases hrowPhase
      · have hj' : j < row.length := by
          rw [(RowBuf.slice_spec hrow).1]
          rwa [finishRow_latch, hsound.frame] at hj
        rw [finishRow_prev, finishRow_prev, RowBuf.get_putRow, RowBuf.get_putRow, if_pos (by omega),
          if_pos (by omega)]
    | ended u =>
      rw [hemit] at hsound
      obtain ⟨v, _, _, hbus, -, -, rfl⟩ := hsound
      refine .ended (h.of_keepsRows ?_)
      rw [hbus.frame]
      exact .of_eq rfl rfl rfl rfl
    | stuck f => exact .stuck f

theorem acceptByte_alike (hinv : EngineInv s) (herr : s.status.err = false) (h : SameButHidden s t) (v : Byte)
    (a : Option Addr) : (acceptByte v a s).Alike (acceptByte v a t) := by
  have hfilt : t.filt = s.filt := by rw [h.eq_withRows]; rfl
  have hlatch : t.latch = s.latch := by rw [h.eq_withRows]; rfl
  cases hphase : s.filt.phase with
  | idle =>
    rw [acceptByte_idle hphase, acceptByte_idle (hfilt ▸ hphase)]
    exact raise_alike h _ a
  | done =>
    rw [acceptByte_done hphase, acceptByte_done (hfilt ▸ hphase)]
    exact raise_alike h _ a
  | awaitFilter =>
    rw [acceptByte_await hphase, acceptByte_await (hfilt ▸ hphase)]
    cases filterTypeOf v with
    | none => exact raise_alike h _ a
    | some f =>
      refine .ok ⟨?_, fun _ j hj => absurd hj (by simp), h.prev⟩
      rw [h.eq_withRows]
      rfl
  | inRow =>
    have hready := engineInv_rowReady hinv herr hphase
    obtain ⟨x, hx⟩ := neighbourA_some hready.latch.dist_pos hready.cur
    obtain ⟨y, hy⟩ := neighbourB_some hready.pos hready.prev
    obtain ⟨z, hz⟩ := neighbourC_some (d := s.latch.dist) hready.pos hready.prev
    have hstore := storePayload_sameButHidden hready hphase h (reconstruct s.filt.ftype v x y z)
    rw [acceptByte_inRow hphase, acceptByte_inRow (hfilt ▸ hphase), payloadByte_eq hready hx hy hz,
      payloadByte_eq (hready.of_sameButHidden hphase h)
        (by rw [hfilt, hlatch, h.neighbourA_eq hphase hready.latch.dist_pos, hx])
        (by rw [hfilt, h.neighbourB_eq hready.pos, hy])
        (by rw [hfilt, hlatch, h.neighbourC_eq hready.pos, hz]), hfilt, hlatch]
    split
    · rename_i hlast
      exact rowEnd_alike hstore hphase (by rw [storePayload_filt, storePayload_latch, x_succ_toNat hready, hlast])
    · exact .ok hstore

theorem filterByte_alike (hinv : EngineInv s) (herr : s.status.err = false) (h : SameButHidden s t) (v : Byte)
    (a : Option Addr) : (filterByte v a s).Alike (filterByte v a t) := by
  refine (acceptByte_alike hinv herr h v a).bind fun u w _ huw => ?_
  have hw : adlerTap v w = (adlerTap v u).withRows w.cur w.prev := by
    rw [huw.eq_withRows, adlerTap_eq, adlerTap_eq]
    rfl
  rw [hw]
  exact .ok (huw.of_keepsRows (.of_eq (by simp) (by simp) (by simp) (by simp)))

theorem streamBytes_alike (n : Nat) (hinv : EngineInv s) (herr : s.status.err = false) (h : SameButHidden s t) :
    (streamBytes (fun v u => filterByte v (some u.srcAddr) u) n s).Alike
      (streamBytes (fun v u => filterByte v (some u.srcAddr) u) n t) := by
  induction n generalizing s t with
  | zero => exact .ok h
  | succ n ih =>
    have hsrc : t.srcAddr = s.srcAddr := by rw [h.eq_withRows]; rfl
    have hmem : t.mem = s.mem := by rw [h.eq_withRows]; rfl
    have hplatform : t.platform = s.platform := by rw [h.eq_withRows]; rfl
    rw [streamBytes, streamBytes]
    cases hread : s.platform.admits s.srcAddr .read with
    | false =>
      rw [busRead_refused hread, hsrc, busRead_refused (by rw [hplatform, hread])]
      exact raise_alike h _ _
    | true =>
      rw [busRead_ok hread, hsrc, busRead_ok (by rw [hplatform, hread]), hmem, Res.bind_ok, Res.bind_ok, hsrc]
      have hgood := engineInv_filterByte hinv herr (Memory.read s.mem s.srcAddr.toNat) (some s.srcAddr)
      refine (filterByte_alike hinv herr h _ _).bind fun u w hu huw => ?_
      rw [hu] at hgood
      have hw : w.advanceSrc 1 = (u.advanceSrc 1).withRows w.cur w.prev := by
        rw [huw.eq_withRows]
        rfl
      refine ih (engineInv_advanceSrc 1 hgood.1) hgood.2 ?_
      rw [hw]
      exact huw.of_keepsRows (.of_eq rfl rfl rfl rfl)

end Filter

/-! ### The other commands -/

/-- A check of a trailer whose register and MATCH bit are not the rows'. -/
theorem checkTrailer_withRows {running : State → Word} {setMatch : State → Bool → State}
    {cur prev : List Host.Cell}
    (hrunning : ∀ s, running (State.withRows cur prev s) = running s)
    (hmatch : ∀ s v, setMatch (State.withRows cur prev s) v = (setMatch s v).withRows cur prev)
    (code : ErrCode) (k : Bool) (s : State) :
    checkTrailer running setMatch code k (s.withRows cur prev)
      = (checkTrailer running setMatch code k s).mapState (State.withRows cur prev) := by
  have hg := withRows_unrelated cur prev
  have htrailer : readTrailer s.srcAddr (s.withRows cur prev)
      = (readTrailer s.srcAddr s).mapState (State.withRows cur prev) :=
    Res.bind_mapState (busRead_mapState hg _ s) fun _ s => Res.bind_mapState (busRead_mapState hg _ s) fun _ s =>
      Res.bind_mapState (busRead_mapState hg _ s) fun _ s =>
        Res.bind_mapState (busRead_mapState hg _ s) fun _ _ => rfl
  refine Res.bind_mapState htrailer fun w u => ?_
  have hctrl : (State.withRows cur prev u).ctrl = u.ctrl := rfl
  rw [hrunning, hmatch, hmatch, hctrl]
  split
  · rfl
  split
  · exact raise_mapState hg _ _ _
  · rfl

theorem exec_withRows {i : Instr} (hbyte : ∀ v, i ≠ .unfilterByte v) (hstream : ∀ len, i ≠ .unfilter len)
    (cur prev : List Host.Cell) (s : State) :
    exec i (s.withRows cur prev) = mapNext (State.withRows cur prev) (exec i s) := by
  have hg := withRows_unrelated cur prev
  cases i with
  | nop | crcInit | crcByte _ | adlerInit | adlerByte _ => rfl
  | unfilterByte v => exact absurd rfl (hbyte v)
  | unfilter len => exact absurd rfl (hstream len)
  | crcMem len | adlerMem len =>
    exact toOutcome_eq_mapNext (streamBytes_mapState hg (fun _ => rfl) (fun _ _ => rfl) (fun _ _ => rfl) _ s)
  | crcCheck k | adlerCheck k =>
    exact toOutcome_eq_mapNext (checkTrailer_withRows (fun _ => rfl) (fun _ _ => rfl) _ k s)
  | passBegin =>
    exact toOutcome_eq_mapNext (Res.bind_mapState (liveConfig_mapState hg (fun _ => rfl) (fun _ => rfl) s)
      fun _ _ => rfl)
  | palLoad n =>
    refine toOutcome_eq_mapNext ?_
    split
    · exact raise_mapState hg _ _ s
    · refine forRange_mapState (fun _ s => ?_) _ _ s
      exact Res.bind_mapState (busRead_mapState hg _ s) fun _ s =>
        Res.bind_mapState (busRead_mapState hg _ s) fun _ s =>
          Res.bind_mapState (busRead_mapState hg _ s) fun _ _ => rfl
  | swizzleRow =>
    exact toOutcome_eq_mapNext
      (Res.bind_mapState (liveConfig_mapState hg (fun _ => rfl) (fun _ => rfl) s) fun _ s =>
        Res.bind_mapState (readBytes_mapState hg _ _ s) fun _ s =>
          Res.bind_mapState (emitRow_mapState hg _ _ _ _ s) fun _ _ => rfl)

/-- The commands outside the filter unit leave the rows and the row state, or begin a pass. -/
theorem exec_keepsRows {i : Instr} (hbyte : ∀ v, i ≠ .unfilterByte v) (hstream : ∀ len, i ≠ .unfilter len)
    {s t : State} (h : exec i s = .next t) : KeepsRows s t := by
  obtain ⟨-, -, -, -, -, -, -, -, -, -, -, -, -, -, hlatch, hfilt, hrows, -⟩ := commandsWriteOnlyTheirState i s t h
  have hkept : t.cur = s.cur ∧ t.prev = s.prev := by
    by_contra hne
    obtain ⟨len, hi⟩ | ⟨v, hi⟩ := hrows (not_and_or.mp hne)
    · exact hstream len hi
    · exact hbyte v hi
  refine ⟨hkept.1, hkept.2, ?_⟩
  by_cases hpass : i = .passBegin
  · obtain rfl := hpass
    obtain ⟨g, -, hbegin⟩ | ⟨code, -, hfault⟩ := exec_passBegin_cases s
    · cases hbegin.symm.trans h
      refine .inr ⟨?_, rfl⟩
      rw [beginPass_filt]
      split <;> simp
    · cases hfault.symm.trans h
      exact .inl ⟨rfl, rfl⟩
  · refine .inl ⟨?_, by_contra fun hne => hpass (hlatch hne)⟩
    by_contra hne
    obtain hi | ⟨len, hi⟩ | ⟨v, hi⟩ := hfilt hne
    · exact hpass hi
    · exact hstream len hi
    · exact hbyte v hi

section Events

variable {s t s' : State}

theorem exec_sameButHidden {i : Instr} (hinv : EngineInv s) (herr : s.status.err = false) (h : SameButHidden s t)
    (hs : exec i s = .next s') : ∃ t', exec i t = .next t' ∧ SameButHidden s' t' := by
  by_cases hbyte : ∃ v, i = .unfilterByte v
  · obtain ⟨v, rfl⟩ := hbyte
    exact (filterByte_alike hinv herr h v none).toOutcome hs
  by_cases hstream : ∃ len, i = .unfilter len
  · obtain ⟨len, rfl⟩ := hstream
    exact (streamBytes_alike len.toNat hinv herr h).toOutcome hs
  rw [not_exists] at hbyte hstream
  refine ⟨s'.withRows t.cur t.prev, ?_, h.of_keepsRows (exec_keepsRows hbyte hstream hs)⟩
  rw [h.eq_withRows, exec_withRows hbyte hstream, hs]
  rfl

theorem cmdWrite_sameButHidden {w : Word} (hinv : EngineInv s) (h : SameButHidden s t)
    (hs : cmdWrite w s = .next s') : ∃ t', cmdWrite w t = .next t' ∧ SameButHidden s' t' := by
  have hstatus : t.status = s.status := by rw [h.eq_withRows]; rfl
  cases herr : s.status.err with
  | true =>
    cases (cmdWrite_of_halted herr).symm.trans hs
    exact ⟨t, cmdWrite_of_halted (hstatus ▸ herr), h⟩
  | false =>
    by_cases hlegal : ∃ i, decode w = .ok i
    · obtain ⟨i, hdecode⟩ := hlegal
      rw [cmdWrite_of_decode herr hdecode] at hs
      rw [cmdWrite_of_decode (hstatus ▸ herr) hdecode]
      exact exec_sameButHidden hinv herr h hs
    · have hillegal := (illegalWord_iff w).mpr (not_exists.mp hlegal)
      cases (cmdWrite_of_illegalWord herr hillegal).symm.trans hs
      refine ⟨_, cmdWrite_of_illegalWord (hstatus ▸ herr) hillegal, ?_⟩
      rw [h.eq_withRows]
      exact h.of_keepsRows (.of_eq rfl rfl rfl rfl)

theorem resetEngine_sameButHidden (h : SameButHidden s t) : SameButHidden s.resetEngine t.resetEngine := by
  rw [h.eq_withRows]
  exact .refl _

theorem regWrite_sameButHidden (h : SameButHidden s t) (r : WindowReg) (v : Word) :
    SameButHidden (regWrite r v s) (regWrite r v t) := by
  cases r with
  | ctrl =>
    rw [regWrite, regWrite, ctrlWrite, ctrlWrite]
    split
    · exact resetEngine_sameButHidden h
    · rw [h.eq_withRows]
      exact h.of_keepsRows (.of_eq rfl rfl rfl rfl)
  | status | cmd | errAddr | fstate | rowPos | rowCount | rowBytes | fdist | reserved => exact h
  | crc | adler | srcAddr | dstAddr | dstStride | dstXstep | width | rows | fmt | pal _ =>
    rw [h.eq_withRows]
    exact h.of_keepsRows (.of_eq rfl rfl rfl rfl)

/-- No register of the window shows a row buffer. -/
theorem regRead_withRows (r : WindowReg) (cur prev : List Host.Cell) (s : State) :
    regRead r (s.withRows cur prev) = regRead r s := by
  cases r <;> rfl

theorem hostEvent_sameButHidden {e : HostEvent} (hinv : EngineInv s) (h : SameButHidden s t)
    (hs : hostEvent e s = .next s') : ∃ t', hostEvent e t = .next t' ∧ SameButHidden s' t' := by
  have hlegal := legal_of_hostEvent hs
  cases e with
  | write off width v =>
    obtain ⟨rfl, haligned, hwindow⟩ := accessInModel_eq_true_iff.mp hlegal
    rw [hostEvent_write_w32 haligned hwindow, mmioWrite] at hs ⊢
    by_cases hcmd : windowReg off = .cmd
    · rw [if_pos hcmd] at hs ⊢
      exact cmdWrite_sameButHidden hinv h hs
    · rw [if_neg hcmd] at hs ⊢
      cases hs
      exact ⟨_, rfl, regWrite_sameButHidden h _ v⟩
  | read off width =>
    cases (if_pos hlegal).symm.trans hs
    refine ⟨_, if_pos hlegal, ?_⟩
    rw [h.eq_withRows, mmioRead, mmioRead, regRead_withRows]
    exact h.of_keepsRows (.of_eq rfl rfl rfl rfl)
  | store a v =>
    cases hs
    refine ⟨_, rfl, ?_⟩
    rw [h.eq_withRows]
    exact h.of_keepsRows (.of_eq rfl rfl rfl rfl)
  | powerOnReset =>
    cases hs
    exact ⟨_, rfl, resetEngine_sameButHidden h⟩

end Events

/-! ### The obligation -/

/-- Settles O14: a step of `s`, which the invariant gives, is matched by one of `t`. -/
theorem rowBufferContentsNeverObservable : Obligations.RowBufferContentsNeverObservable := by
  intro s t hinv _ h hlegal
  have hinbox : t.inbox = s.inbox := by rw [h.eq_withRows]; rfl
  obtain ⟨s', hs⟩ := legalStepsNeverStop s hinv hlegal
  cases hs0 : s.inbox with
  | nil =>
    exact ⟨s, t, step_of_inbox_nil hs0, step_of_inbox_nil (hinbox.trans hs0), h⟩
  | cons e rest =>
    have hrest : SameButHidden { s with inbox := rest } { t with inbox := rest } := by
      rw [h.eq_withRows]
      exact h.of_keepsRows (.of_eq rfl rfl rfl rfl)
    have hevent := (step_of_inbox hs0).symm.trans hs
    obtain ⟨t', ht, hst⟩ := hostEvent_sameButHidden (engineInv_setInbox hinv rest) hrest hevent
    exact ⟨s', t', hs, (step_of_inbox (hinbox.trans hs0)).trans ht, hst⟩

end Sys2Proof.Machine

end HiddenRows

/-! ## Streams: byte runs split over several commands, and UNFILTER byte by byte
(spec/40_checksum.md section 2; spec/41_filter.md sections 3 and 4) -/

section Streams

namespace Sys2Proof.Machine

/-! ### Issuing commands -/

theorem cmdWrite_encode {s : State} (herr : s.status.err = false) (i : Instr) : cmdWrite (encode i) s = exec i s :=
  cmdWrite_of_decode herr (decode_encode i)

theorem issue_cons_of_next {i : Instr} {rest : List Instr} {s t : State} (herr : s.status.err = false)
    (h : exec i s = .next t) : issue (i :: rest) s = issue rest t := by
  simp only [issue, cmdWrite_encode herr, h]

theorem issue_of_halted {s : State} (herr : s.status.err = true) (is : List Instr) : issue is s = .next s := by
  induction is with
  | nil => rfl
  | cons i is ih => simp only [issue, cmdWrite_of_halted herr, ih]

theorem issue_singleton {s : State} (herr : s.status.err = false) (i : Instr) : issue [i] s = exec i s := by
  rw [issue, cmdWrite_encode herr]
  cases exec i s <;> rfl

/-- A byte run split over two commands: the second goes on where the first ended, or is ignored after its fault. -/
theorem issue_stream_split {cmd : BitVec 24 → Instr} {handle : Byte → State → Res Unit}
    (hexec : ∀ len s, exec (cmd len) s = (streamBytes handle len.toNat s).toOutcome)
    (hhandle : ∀ v t, t.status.err = false →
      (handle v t).Sound (fun _ u => u.status.err = false) (fun u => u.status.err = true))
    {p q : BitVec 24} (hsum : p.toNat + q.toNat < 2 ^ 24) (s : State) :
    issue [cmd p, cmd q] s = issue [cmd (p + q)] s := by
  cases herr : s.status.err with
  | true => rw [issue_of_halted herr, issue_of_halted herr]
  | false =>
    have hcount : (p + q).toNat = p.toNat + q.toNat := by rw [BitVec.toNat_add, Nat.mod_eq_of_lt hsum]
    have hfirst := streamBytes_sound (h := handle) (P := fun t => t.status.err = false)
      (Q := fun t => t.status.err = true) (fun _ _ _ _ => rfl) hhandle p.toNat s herr
    rw [issue_singleton herr, hexec, hcount, streamBytes_add]
    have hp := hexec p s
    cases hr : streamBytes handle p.toNat s with
    | ok _ t =>
      rw [hr] at hfirst hp
      rw [issue_cons_of_next herr hp, issue_singleton hfirst, hexec, Res.bind_ok]
    | ended t =>
      rw [hr] at hfirst hp
      rw [issue_cons_of_next herr hp, issue_of_halted hfirst, Res.bind_ended, Res.toOutcome_ended]
    | stuck f =>
      rw [hr] at hp
      simp only [issue, cmdWrite_encode herr, hp, Res.toOutcome_stuck, Res.bind_stuck]

/-! ### The checksums over runs of BYTE commands -/

theorem issue_map_crcByte {s : State} (herr : s.status.err = false) (vs : List Byte) :
    issue (vs.map .crcByte) s = .next { s with crc := crc32 s.crc vs } := by
  induction vs generalizing s with
  | nil => rfl
  | cons v vs ih =>
    rw [List.map_cons, issue_cons_of_next (t := feedCrc v s) herr rfl, ih (s := feedCrc v s) herr]
    rfl

theorem issue_map_adlerByte {s : State} (herr : s.status.err = false) (vs : List Byte) :
    issue (vs.map .adlerByte) s = .next { s with adler := adler32 s.adler vs } := by
  induction vs generalizing s with
  | nil => rfl
  | cons v vs ih =>
    rw [List.map_cons, issue_cons_of_next (t := feedAdler v s) herr rfl, ih (s := feedAdler v s) herr]
    rfl

/-! ### A byte of UNFILTER and UNFILTER_BYTE -/

/-- The address that a byte comes with is that of a fault of its own, and of nothing else. -/
theorem acceptByte_address (v : Byte) (s : State) (addr : Option Addr) :
    (∃ code, ∀ a, acceptByte v a s = raise code a s) ∨ acceptByte v addr s = acceptByte v none s ∧
      (acceptByte v none s).Sound (fun _ _ => True) fun t => t.status.errAddrValid = true := by
  cases hphase : s.filt.phase with
  | idle => exact .inl ⟨_, acceptByte_idle hphase v⟩
  | done => exact .inl ⟨_, acceptByte_done hphase v⟩
  | awaitFilter =>
    cases hf : filterTypeOf v with
    | none => exact .inl ⟨.badFilter, fun a => by rw [acceptByte_await hphase, hf]⟩
    | some f =>
      refine .inr ⟨by rw [acceptByte_await hphase, acceptByte_await hphase, hf], ?_⟩
      rw [acceptByte_await hphase, hf]
      trivial
  | inRow =>
    refine .inr ⟨by rw [acceptByte_inRow hphase, acceptByte_inRow hphase], ?_⟩
    rw [acceptByte_inRow hphase]
    refine (payloadByte_firstRefused v s).mono (fun _ _ h => h) ?_
    rintro t ⟨c, u, -, rfl⟩
    rfl

theorem filterByte_address (v : Byte) (s : State) (addr : Option Addr) :
    (∃ code, ∀ a, filterByte v a s = raise code a s) ∨ filterByte v addr s = filterByte v none s ∧
      (filterByte v none s).Sound (fun _ _ => True) fun t => t.status.errAddrValid = true := by
  obtain ⟨code, hraise⟩ | ⟨hsame, hvalid⟩ := acceptByte_address v s addr
  · exact .inl ⟨code, fun a => by rw [filterByte, hraise, Res.bind_raise]⟩
  · exact .inr ⟨by rw [filterByte, filterByte, hsame], hvalid.bind fun _ _ _ => trivial⟩

theorem filterByte_err {s : State} (herr : s.status.err = false) (v : Byte) (addr : Option Addr) :
    (filterByte v addr s).Sound (fun _ t => t.status.err = false) (fun t => t.status.err = true) := by
  refine (filterByte_ends v addr s).mono (fun _ _ h => h.status ▸ herr) ?_
  rintro t ⟨u, -, -, ⟨_, _, rfl⟩ | ⟨_, _, rfl⟩⟩ <;> rfl

theorem exec_unfilter_succ {len : BitVec 24} (hlen : len ≠ 0#24) {s : State}
    (hread : s.platform.admits s.srcAddr .read = true) :
    exec (.unfilter len) s =
      ((filterByte (Memory.read s.mem s.srcAddr.toNat) (some s.srcAddr) s).bind fun _ t =>
        streamBytes (fun v u => filterByte v (some u.srcAddr) u) (len - 1#24).toNat
          (t.advanceSrc 1)).toOutcome := by
  have hcount : len.toNat = (len - 1#24).toNat + 1 := by
    have hpos : len.toNat ≠ 0 := fun h => hlen (BitVec.eq_of_toNat_eq h)
    rw [BitVec.toNat_sub]
    simp only [BitVec.toNat_ofNat]
    omega
  rw [exec, execUnfilter, hcount, streamBytes, busRead_ok hread, Res.bind_ok]

/-- UNFILTER whose first byte UNFILTER_BYTE takes without a fault: the rest goes on after it. -/
theorem exec_unfilter_of_byte {len : BitVec 24} (hlen : len ≠ 0#24) {s t : State} (herr : s.status.err = false)
    (hread : s.platform.admits s.srcAddr .read = true)
    (hbyte : exec (.unfilterByte (Memory.read s.mem s.srcAddr.toNat)) s = .next t) (hno : t.status.err = false) :
    exec (.unfilter len) s = exec (.unfilter (len - 1#24)) { t with srcAddr := s.srcAddr + 1#32 } := by
  have hsrc := exec_unfilterByte_srcAddr hbyte
  have hend := filterByte_err herr (Memory.read s.mem s.srcAddr.toNat) none
  rw [exec_unfilter_succ hlen hread]
  rw [exec, execUnfilterByte] at hbyte
  obtain ⟨code, hraise⟩ | ⟨hsame, -⟩ := filterByte_address (Memory.read s.mem s.srcAddr.toNat) s (some s.srcAddr)
  · rw [hraise] at hbyte
    cases hbyte
    cases hno
  · rw [hsame]
    cases hr : filterByte (Memory.read s.mem s.srcAddr.toNat) none s with
    | ok _ u =>
      rw [hr] at hbyte
      cases hbyte
      rw [← hsrc]
      rfl
    | ended u =>
      rw [hr] at hbyte hend
      cases hbyte
      exact absurd (hno.symm.trans hend) Bool.false_ne_true
    | stuck f =>
      rw [hr] at hbyte
      cases hbyte

/-- UNFILTER whose first byte faults: SRC_ADDR stays there, and is the address of a fault of the byte's own. -/
theorem exec_unfilter_of_byteFault {len : BitVec 24} (hlen : len ≠ 0#24) {s t : State}
    (herr : s.status.err = false) (hread : s.platform.admits s.srcAddr .read = true)
    (hbyte : exec (.unfilterByte (Memory.read s.mem s.srcAddr.toNat)) s = .next t) (hfault : t.status.err = true) :
    exec (.unfilter len) s = .next (if t.status.errAddrValid = true then t else { t with
      status := { t.status with errAddrValid := true }
      errAddr := s.srcAddr }) := by
  have hend := filterByte_err herr (Memory.read s.mem s.srcAddr.toNat) none
  rw [exec_unfilter_succ hlen hread]
  rw [exec, execUnfilterByte] at hbyte
  obtain ⟨code, hraise⟩ | ⟨hsame, hvalid⟩ :=
    filterByte_address (Memory.read s.mem s.srcAddr.toNat) s (some s.srcAddr)
  · rw [hraise] at hbyte
    cases hbyte
    rw [hraise]
    rfl
  · rw [hsame]
    cases hr : filterByte (Memory.read s.mem s.srcAddr.toNat) none s with
    | ok _ u =>
      rw [hr] at hbyte hend
      cases hbyte
      exact absurd (hend.symm.trans hfault) Bool.false_ne_true
    | ended u =>
      rw [hr] at hbyte hvalid
      cases hbyte
      have hset : t.status.errAddrValid = true := hvalid
      rw [if_pos hset]
      rfl
    | stuck f =>
      rw [hr] at hbyte
      cases hbyte

theorem exec_unfilter_readRefused {len : BitVec 24} (hlen : len ≠ 0#24) {s : State}
    (hread : s.platform.admits s.srcAddr .read = false) :
    exec (.unfilter len) s = .next (s.enterFault .bus (some s.srcAddr)) := by
  obtain ⟨n, hn⟩ : ∃ n, len.toNat = n + 1 :=
    Nat.exists_eq_succ_of_ne_zero fun h0 => hlen (BitVec.eq_of_toNat_eq h0)
  rw [exec, execUnfilter, hn, streamBytes, busRead_refused hread, Res.bind_raise, Res.toOutcome_raise]

/-! ### The obligations -/

/-- Settles O32: the streams of the MEM commands, and the BYTE commands one by one. -/
theorem checksumSplitInvariance : Obligations.ChecksumSplitInvariance :=
  ⟨fun _ _ s hsum =>
    ⟨issue_stream_split (cmd := .crcMem) (fun _ _ => rfl) (fun _ _ h => h) hsum s,
      issue_stream_split (cmd := .adlerMem) (fun _ _ => rfl) (fun _ _ h => h) hsum s⟩,
    fun vs _ herr => ⟨issue_map_crcByte herr vs, issue_map_adlerByte herr vs⟩⟩

/-- Settles O48: the first byte's read, and each end of the byte. -/
theorem unfilterFeedsByteByByte : Obligations.UnfilterFeedsByteByByte := by
  refine ⟨fun s => rfl, fun len s hlen herr => ⟨exec_unfilter_readRefused hlen, fun hread t hbyte =>
    ⟨exec_unfilter_of_byte hlen herr hread hbyte, fun _ => exec_unfilterByte_srcAddr hbyte,
      fun hfault hvalid => ?_, fun hfault hvalid => ?_⟩⟩⟩
  · rw [exec_unfilter_of_byteFault hlen herr hread hbyte hfault, if_pos hvalid]
  · rw [exec_unfilter_of_byteFault hlen herr hread hbyte hfault, if_neg (by simp [hvalid])]

/-- Settles O49: UNFILTER's stream, and its first byte with none after it. -/
theorem unfilterSplitInvariance : Obligations.UnfilterSplitInvariance :=
  ⟨fun _ _ s hsum => issue_stream_split (cmd := .unfilter) (fun _ _ => rfl)
      (fun v t h => filterByte_err h v (some t.srcAddr)) hsum s,
    fun _ _ herr hread hbyte hno => exec_unfilter_of_byte (by decide) herr hread hbyte hno⟩

end Sys2Proof.Machine

end Streams

/-! ## Whole rows: a row through the filter unit is the row that a list reference decodes, and the filtered stream
of a list of rows gives the rows back (spec/41_filter.md sections 2 to 4; spec/60_exceptions.md section 2) -/

section WholeRows

namespace Sys2Proof.Machine

/-! ### The list reference (R144 to R147, R160) -/

/-- The next byte of a row of which `out` is reconstructed. -/
def decodeByte (f : FilterType) (d : Nat) (above : Option (List Byte)) (out : List Byte) (v : Byte) : Byte :=
  let n := originalNeighbours d above out out.length
  reconstruct f v n.1 n.2.1 n.2.2

theorem decodeRowFrom_cons (f : FilterType) (d : Nat) (above : Option (List Byte)) (out : List Byte) (v : Byte)
    (vs : List Byte) :
    decodeRowFrom f d above out (v :: vs) = decodeRowFrom f d above (out ++ [decodeByte f d above out v]) vs := rfl

/-- What the reconstruction of byte `k` reads of its own row stands before it. -/
theorem originalNeighbours_take {d : Nat} (hd : 1 ≤ d) (above : Option (List Byte)) (row : List Byte) (k : Nat) :
    originalNeighbours d above (row.take k) k = originalNeighbours d above row k := by
  have hleft : d ≤ k → rowByte (row.take k) (k - d) = rowByte row (k - d) := fun hk => by
    rw [rowByte, rowByte, List.getD_eq_getElem?_getD, List.getD_eq_getElem?_getD,
      List.getElem?_take_of_lt (by omega)]
  unfold originalNeighbours
  split
  · rw [hleft (by assumption)]
  · rfl

theorem reconstruct_sub_pred (f : FilterType) (v a b c : Byte) :
    reconstruct f (v - BitVec.ofNat 8 (pred f a b c)) a b c = v := by
  rw [reconstruct, BitVec.ofNat_add, BitVec.ofNat_toNat, BitVec.setWidth_eq, BitVec.sub_add_cancel]

theorem decodeByte_encodeByte (f : FilterType) {d : Nat} (hd : 1 ≤ d) (above : Option (List Byte))
    {row : List Byte}
    {k : Nat} (hk : k < row.length) :
    decodeByte f d above (row.take k) (encodeByte f d above row k) = row[k] := by
  have hlen : (row.take k).length = k := List.length_take_of_le hk.le
  rw [decodeByte, hlen, originalNeighbours_take hd, encodeByte, reconstruct_sub_pred, rowByte,
    List.getD_eq_getElem _ _ hk]

/-- The rest of a filtered row decodes to the rest of the row. -/
theorem decodeRowFrom_encodeRow (f : FilterType) {d : Nat} (hd : 1 ≤ d) (above : Option (List Byte))
    (row : List Byte)
    (n k : Nat) (hn : k + n = row.length) :
    decodeRowFrom f d above (row.take k) ((encodeRow f d above row).drop k) = row := by
  have hlen : (encodeRow f d above row).length = row.length := by simp [encodeRow]
  induction n generalizing k with
  | zero =>
    rw [List.drop_of_length_le (by omega), List.take_of_length_le (by omega)]
    rfl
  | succ n ih =>
    have hk : k < row.length := by omega
    have hbyte : (encodeRow f d above row)[k]'(by omega) = encodeByte f d above row k := by simp [encodeRow]
    rw [List.drop_eq_getElem_cons (by omega), hbyte, decodeRowFrom_cons, decodeByte_encodeByte f hd above hk,
      List.take_append_getElem hk]
    exact ih (k + 1) (by omega)

theorem decodeRow_encodeRow (f : FilterType) {d : Nat} (hd : 1 ≤ d) (above : Option (List Byte))
    (row : List Byte) :
    decodeRow f d above (encodeRow f d above row) = row :=
  decodeRowFrom_encodeRow f hd above row row.length 0 (Nat.zero_add _)

theorem filterTypeOf_filterTypeByte (f : FilterType) : filterTypeOf (filterTypeByte f) = some f := by
  cases f <;> rfl

/-! ### A row in progress -/

/-- A state with another row in progress, SRC_ADDR and ADLER: what the bytes of a row change before its end. -/
def State.withRow (cur : List Host.Cell) (src : Addr) (adler : Word) (filt : Filt) (s : State) : State :=
  { s with cur := cur, srcAddr := src, adler := adler, filt := filt }

theorem withRow_unrelated (cur : List Host.Cell) (src : Addr) (adler : Word) (filt : Filt) :
    Unrelated (State.withRow cur src adler filt) where
  platform _ := rfl
  mem _ := rfl
  busLog _ := rfl
  pal _ := rfl
  dstAddr _ := rfl
  store _ _ _ := rfl
  enterFault _ _ _ := rfl

/-- A pass waits for the filter-type byte of its next row. -/
structure RowDue (s : State) : Prop where
  inv : EngineInv s
  err : s.status.err = false
  phase : s.filt.phase = .awaitFilter

theorem RowDue.latch {s : State} (h : RowDue s) : s.LatchGood := h.inv.latch (by simp [h.phase])

/-- `t` is `s` after the type byte `f` of its next row and a payload that has reconstructed `out`. -/
structure RowSoFar (s : State) (f : FilterType) (out : List Byte) (t : State) : Prop where
  frame : t = s.withRow t.cur t.srcAddr t.adler ⟨.inRow, f, BitVec.ofNat 32 out.length, s.filt.row, s.filt.first⟩
  cur : ∀ j < out.length, RowBuf.get t.cur j = out[j]?

section Row

variable {s t : State} {f : FilterType} {out : List Byte}

theorem RowSoFar.start (s : State) (f : FilterType) : RowSoFar s f [] (startRow f s) := ⟨rfl, nofun⟩

theorem RowSoFar.filt (h : RowSoFar s f out t) :
    t.filt = ⟨.inRow, f, BitVec.ofNat 32 out.length, s.filt.row, s.filt.first⟩ := by
  rw [h.frame]
  rfl

theorem RowSoFar.adlerTap (h : RowSoFar s f out t) (v : Byte) : RowSoFar s f out (adlerTap v t) := by
  refine ⟨?_, by rw [adlerTap_cur]; exact h.cur⟩
  rw [adlerTap_eq, h.frame]
  rfl

theorem RowSoFar.advanceSrc (h : RowSoFar s f out t) (n : Nat) : RowSoFar s f out (t.advanceSrc n) := by
  refine ⟨?_, h.cur⟩
  conv_lhs => rw [h.frame]
  rfl

/-- The neighbours `b` and `c` are those of the row above. -/
theorem RowDue.neighbours (hs : RowDue s) {x : Nat} (hx : x < s.latch.rowBytes) (out : List Byte) :
    neighbourB s.prev s.filt.first x = some (originalNeighbours s.latch.dist s.rowAbove out x).2.1 ∧
      neighbourC s.prev s.filt.first x s.latch.dist
        = some (originalNeighbours s.latch.dist s.rowAbove out x).2.2 := by
  cases hfirst : s.filt.first with
  | true => simp [neighbourB, neighbourC, originalNeighbours, State.rowAbove, hfirst]
  | false =>
    obtain ⟨row, hrow⟩ := Option.isSome_iff_exists.mp ((RowBuf.slice_isSome s.prev 0 s.latch.rowBytes).mpr
      fun j hj => by rw [Nat.zero_add]; exact hs.inv.prevWritten hfirst j hj)
    have habove : s.rowAbove = some row := by rw [State.rowAbove, hfirst]; exact hrow
    obtain ⟨hlen, hbytes⟩ := RowBuf.slice_spec hrow
    have hget : ∀ j < s.latch.rowBytes, RowBuf.get s.prev j = some (rowByte row j) := fun j hj => by
      rw [← Nat.zero_add j, ← hbytes j hj, Nat.zero_add, List.getElem?_eq_getElem (by omega), rowByte,
        List.getD_eq_getElem _ _ (by omega)]
    refine ⟨?_, ?_⟩
    · simp [neighbourB, originalNeighbours, habove, hget x hx]
    · simp only [neighbourC, originalNeighbours, habove, Bool.false_or, decide_eq_true_eq]
      split
      · rfl
      · exact hget _ (by omega)

/-- The neighbour `a` is that of the bytes reconstructed so far. -/
theorem RowSoFar.neighbourA (h : RowSoFar s f out t) {d : Nat} (hd : 1 ≤ d) (above : Option (List Byte)) :
    neighbourA t.cur out.length d = some (originalNeighbours d above out out.length).1 := by
  simp only [Machine.neighbourA, originalNeighbours]
  split
  · rw [h.cur _ (by omega), rowByte, List.getD_eq_getElem _ _ (by omega), List.getElem?_eq_getElem (by omega)]
  · rfl

theorem RowSoFar.x_toNat (hs : RowDue s) (h : RowSoFar s f out t) (hlen : out.length ≤ s.latch.rowBytes) :
    t.filt.x.toNat = out.length := by
  have hfits := hs.latch.rowBytes_le
  have hmax := hs.inv.platform.2
  rw [h.filt]
  exact Nat.mod_eq_of_lt (by omega)

theorem RowSoFar.ready (hs : RowDue s) (h : RowSoFar s f out t) (hlen : out.length < s.latch.rowBytes) :
    t.RowReady := by
  have hx := h.x_toNat hs hlen.le
  have hcur : ∀ j < t.filt.x.toNat, (RowBuf.get t.cur j).isSome := fun j hj => by
    rw [hx] at hj
    rw [h.cur j hj, List.getElem?_eq_getElem hj]
    rfl
  rw [h.frame] at hx hcur ⊢
  exact ⟨hs.latch, hs.inv.platform.2, hx.trans_lt hlen, hcur, hs.inv.prevWritten⟩

/-- One payload byte: the reference's next byte is stored, and the last one ends the row. -/
theorem RowSoFar.payloadByte (hs : RowDue s) (h : RowSoFar s f out t) (hlen : out.length < s.latch.rowBytes)
    (v : Byte) :
    ∃ u, RowSoFar s f (out ++ [decodeByte f s.latch.dist s.rowAbove out v]) u ∧ u.srcAddr = t.srcAddr ∧
      u.adler = t.adler ∧
      payloadByte v t = if out.length + 1 = s.latch.rowBytes then rowEnd u else .ok () u := by
  have hready := h.ready hs hlen
  have hx := h.x_toNat hs hlen.le
  have hlatch : t.latch = s.latch := by rw [h.frame]; rfl
  have hprev : t.prev = s.prev := by rw [h.frame]; rfl
  have hfirst : t.filt.first = s.filt.first := by rw [h.filt]
  have htype : t.filt.ftype = f := by rw [h.filt]
  obtain ⟨hb, hc⟩ := hs.neighbours hlen out
  have hbyte := payloadByte_eq hready (v := v)
    (by rw [hx, hlatch]; exact h.neighbourA hs.latch.dist_pos s.rowAbove)
    (by rw [hx, hprev, hfirst]; exact hb) (by rw [hx, hprev, hfirst, hlatch]; exact hc)
  rw [hx, hlatch, htype] at hbyte
  refine ⟨storePayload (decodeByte f s.latch.dist s.rowAbove out v) t, ⟨?_, fun j hj => ?_⟩, rfl, rfl, hbyte⟩
  · rw [List.length_append, List.length_singleton, BitVec.ofNat_add, storePayload, h.filt]
    conv_lhs => rw [h.frame]
    rfl
  · rw [storePayload_cur, RowBuf.get_put, hx]
    split
    · rename_i hlast
      rw [hlast, List.getElem?_concat_length]
    · rw [List.length_append, List.length_singleton] at hj
      rw [h.cur j (by omega), List.getElem?_append_left (by omega)]

/-- A whole row in CUR. -/
theorem RowSoFar.slice {row : List Byte} (h : RowSoFar s f row t) :
    RowBuf.slice t.cur 0 row.length = some row := by
  obtain ⟨row', hrow'⟩ := Option.isSome_iff_exists.mp ((RowBuf.slice_isSome t.cur 0 row.length).mpr fun j hj => by
    rw [Nat.zero_add, h.cur j hj, List.getElem?_eq_getElem hj]
    rfl)
  obtain ⟨hlen, hbytes⟩ := RowBuf.slice_spec hrow'
  have heq : row' = row := List.ext_getElem? fun j => by
    by_cases hj : j < row.length
    · rw [hbytes j hj, Nat.zero_add, h.cur j hj]
    · rw [List.getElem?_eq_none (by omega), List.getElem?_eq_none (by omega)]
  rw [hrow', heq]

/-- `t` is `s` after its next row, of type `f`: the row is emitted and in PREV, and the pass goes on. -/
def RowDone (s : State) (f : FilterType) (row : List Byte) (src : Addr) (adler : Word) (t : State) : Prop :=
  ∃ u, emitRow row s.latch.width s.latch.fmt s.latch.xstep s = .ok () u ∧
    t = { s with
      cur := t.cur, prev := t.prev, mem := u.mem, busLog := u.busLog, srcAddr := src, adler := adler
      dstAddr := s.dstAddr + s.latch.stride
      filt := ⟨if s.filt.row + 1#32 = s.latch.rows then .done else .awaitFilter,
        f, 0#32, s.filt.row + 1#32, false⟩ } ∧
    RowBuf.slice t.cur 0 s.latch.rowBytes = some row ∧ RowBuf.slice t.prev 0 s.latch.rowBytes = some row

/-- The emission of the row in progress is admitted. -/
def State.RowAdmitted (s : State) : Prop :=
  s.emissionAdmitted s.dstAddr s.latch.width s.latch.fmt s.latch.xstep s.latch.rowBytes

theorem RowSoFar.rowEnd {row : List Byte} (hs : RowDue s) (h : RowSoFar s f row t)
    (hlen : row.length = s.latch.rowBytes) (hadm : s.RowAdmitted) :
    ∃ w, rowEnd t = .ok () w ∧ RowDone s f row t.srcAddr t.adler w := by
  obtain ⟨u, hemit, hbus⟩ := emitRow_ok hs.latch hlen hadm
  have hslice := hlen ▸ h.slice
  have hmap := emitRow_mapState (withRow_unrelated t.cur t.srcAddr t.adler
    ⟨.inRow, f, BitVec.ofNat 32 row.length, s.filt.row, s.filt.first⟩) row
      s.latch.width s.latch.fmt s.latch.xstep s
  rw [← h.frame, hemit] at hmap
  have hlatch : t.latch = s.latch := by rw [h.frame]; rfl
  refine ⟨_, by rw [Machine.rowEnd, hlatch, hslice]; simp only [hmap]; rfl, u, hemit, ?_, ?_, ?_⟩
  · rw [hbus.frame]
    rfl
  · rw [hbus.frame]
    exact hslice
  · rw [hbus.frame, ← hlen]
    exact RowBuf.slice_putRow _ 0 row

/-- A byte inside the row. -/
theorem RowSoFar.byte (hs : RowDue s) (h : RowSoFar s f out t) (hlen : out.length + 1 < s.latch.rowBytes)
    (v : Byte)
    (addr : Option Addr) :
    ∃ u, filterByte v addr t = .ok () u ∧ RowSoFar s f (out ++ [decodeByte f s.latch.dist s.rowAbove out v]) u ∧
      u.srcAddr = t.srcAddr ∧ u.adler = if s.ctrl.adlerTap then adler32Byte t.adler v else t.adler := by
  obtain ⟨u, hu, hsrc, hadler, hbyte⟩ := h.payloadByte hs (by omega) v
  have htap : u.ctrl = s.ctrl := by rw [hu.frame]; rfl
  refine ⟨Machine.adlerTap v u, ?_, hu.adlerTap v, by rw [adlerTap_srcAddr, hsrc],
    by rw [adlerTap_adler, htap, hadler]⟩
  rw [filterByte, acceptByte_inRow (by rw [h.filt]), hbyte, if_neg (by omega), Res.bind_ok]

/-- The row's last byte. -/
theorem RowSoFar.lastByte (hs : RowDue s) (h : RowSoFar s f out t) (hlen : out.length + 1 = s.latch.rowBytes)
    (hadm : s.RowAdmitted) (v : Byte) (addr : Option Addr) :
    ∃ w, filterByte v addr t = .ok () w ∧
      RowDone s f (out ++ [decodeByte f s.latch.dist s.rowAbove out v]) t.srcAddr
        (if s.ctrl.adlerTap then adler32Byte t.adler v else t.adler) w := by
  obtain ⟨u, hu, hsrc, hadler, hbyte⟩ := h.payloadByte hs (by omega) v
  obtain ⟨w, hw, w', hemit, hframe, hcur, hprev⟩ := hu.rowEnd hs (by simpa using hlen) hadm
  refine ⟨Machine.adlerTap v w, ?_, w', hemit, ?_, by rwa [adlerTap_cur], by rwa [adlerTap_prev]⟩
  · rw [filterByte, acceptByte_inRow (by rw [h.filt]), hbyte, if_pos hlen, hw, Res.bind_ok]
  · rw [adlerTap_eq, hframe, hsrc, hadler]

/-- What ADLER takes of bytes that the filter unit accepts. -/
def State.tapped (s : State) (adler : Word) (vs : List Byte) : Word :=
  if s.ctrl.adlerTap then adler32 adler vs else adler

theorem State.tapped_nil (s : State) (adler : Word) : s.tapped adler [] = adler := ite_self adler

theorem State.tapped_cons (s : State) (adler : Word) (v : Byte) (vs : List Byte) :
    s.tapped adler (v :: vs) = s.tapped (if s.ctrl.adlerTap then adler32Byte adler v else adler) vs := by
  unfold State.tapped
  split <;> rfl

theorem RowDone.advanceSrc {row : List Byte} {src : Addr} {adler : Word} (h : RowDone s f row src adler t)
    (n : Nat) :
    RowDone s f row (src + BitVec.ofNat 32 n) adler (t.advanceSrc n) := by
  obtain ⟨u, hemit, hframe, hcur, hprev⟩ := h
  refine ⟨u, hemit, ?_, hcur, hprev⟩
  conv_lhs => rw [hframe]
  rfl

/-- What UNFILTER does with the next byte of the row. -/
theorem RowSoFar.streamBytes_succ (h : RowSoFar s f out t) {handle : Byte → State → Res Unit} {n : Nat}
    (hread : s.admitsRun .read t.srcAddr (n + 1)) :
    streamBytes handle (n + 1) t =
      (handle (Memory.read s.mem t.srcAddr.toNat) t).bind fun _ u => streamBytes handle n (u.advanceSrc 1) := by
  have hplatform : t.platform = s.platform := by rw [h.frame]; rfl
  have hmem : t.mem = s.mem := by rw [h.frame]; rfl
  rw [streamBytes, busRead_ok (by rw [hplatform]; exact (State.admitsRun_succ.mp hread).1), Res.bind_ok, hmem]

/-- The rest of a row from the bus, as UNFILTER streams it. -/
theorem RowSoFar.stream (hs : RowDue s) (hadm : s.RowAdmitted) (n : Nat) (h : RowSoFar s f out t)
    (hlen : out.length + (n + 1) = s.latch.rowBytes) (hread : s.admitsRun .read t.srcAddr (n + 1)) :
    ∃ w, streamBytes (fun v u => filterByte v (some u.srcAddr) u) (n + 1) t = .ok () w ∧
      RowDone s f (decodeRowFrom f s.latch.dist s.rowAbove out (s.bytesFrom t.srcAddr (n + 1)))
        (t.srcAddr + BitVec.ofNat 32 (n + 1)) (s.tapped t.adler (s.bytesFrom t.srcAddr (n + 1))) w := by
  induction n generalizing t out with
  | zero =>
    have hnone : s.bytesFrom (t.srcAddr + 1#32) 0 = [] := rfl
    rw [h.streamBytes_succ hread, State.bytesFrom_succ, decodeRowFrom_cons, State.tapped_cons, hnone,
      State.tapped_nil]
    obtain ⟨w, hw, hdone⟩ := h.lastByte hs hlen hadm (Memory.read s.mem t.srcAddr.toNat) (some t.srcAddr)
    exact ⟨w.advanceSrc 1, by rw [hw]; rfl, hdone.advanceSrc 1⟩
  | succ n ih =>
    rw [h.streamBytes_succ hread, State.bytesFrom_succ, decodeRowFrom_cons, State.tapped_cons]
    obtain ⟨u, hu, hrow, hsrc, hadler⟩ :=
      h.byte hs (by omega) (Memory.read s.mem t.srcAddr.toNat) (some t.srcAddr)
    have hnext : (u.advanceSrc 1).srcAddr = t.srcAddr + 1#32 := by rw [State.advanceSrc, hsrc]
    have hadler' : (u.advanceSrc 1).adler = u.adler := rfl
    obtain ⟨w, hw, hdone⟩ := ih (hrow.advanceSrc 1) (by rw [List.length_append, List.length_singleton]; omega)
      (by rw [hnext]; exact (State.admitsRun_succ.mp hread).2)
    rw [hnext, hadler', hadler, ← addr_add_succ] at hdone
    exact ⟨w, by rw [hu]; exact hw, hdone⟩

/-- The rest of a row, as a host issues it byte by byte. -/
theorem RowSoFar.issue (hs : RowDue s) (hadm : s.RowAdmitted) (h : RowSoFar s f out t) {vs : List Byte}
    (hvs : vs ≠ []) (hlen : out.length + vs.length = s.latch.rowBytes) :
    ∃ w, issue (vs.map .unfilterByte) t = .next w ∧
      RowDone s f (decodeRowFrom f s.latch.dist s.rowAbove out vs) t.srcAddr (s.tapped t.adler vs) w := by
  have hexec : ∀ {u w : State} {v : Byte}, filterByte v none u = .ok () w → exec (.unfilterByte v) u = .next w :=
    fun hu => by rw [exec, execUnfilterByte, hu]; rfl
  induction vs generalizing t out with
  | nil => exact absurd rfl hvs
  | cons v vs ih =>
    have herr : t.status.err = false := by rw [h.frame]; exact hs.err
    rw [decodeRowFrom_cons, State.tapped_cons]
    rcases eq_or_ne vs [] with rfl | hne
    · rw [State.tapped_nil]
      obtain ⟨w, hw, hdone⟩ := h.lastByte hs hlen hadm v none
      exact ⟨w, issue_cons_of_next herr (hexec hw), hdone⟩
    · have hpos := List.length_pos_iff.mpr hne
      rw [List.length_cons] at hlen
      obtain ⟨u, hu, hrow, hsrc, hadler⟩ := h.byte hs (by omega) v none
      obtain ⟨w, hw, hdone⟩ := ih hrow hne (by rw [List.length_append, List.length_singleton]; omega)
      rw [hsrc, hadler] at hdone
      exact ⟨w, (issue_cons_of_next herr (hexec hu)).trans hw, hdone⟩

/-- The filter-type byte of the next row. -/
theorem RowDue.typeByte (hs : RowDue s) (f : FilterType) (addr : Option Addr) :
    ∃ t, filterByte (filterTypeByte f) addr s = .ok () t ∧ RowSoFar s f [] t ∧ t.srcAddr = s.srcAddr ∧
      t.adler = if s.ctrl.adlerTap then adler32Byte s.adler (filterTypeByte f) else s.adler := by
  refine ⟨Machine.adlerTap (filterTypeByte f) (startRow f s), ?_, (RowSoFar.start s f).adlerTap _,
    by rw [adlerTap_srcAddr]; rfl, by rw [adlerTap_adler]; rfl⟩
  rw [filterByte, acceptByte_await hs.phase, filterTypeOf_filterTypeByte, Res.bind_ok]

theorem RowDue.rowBytes_pos (hs : RowDue s) : 0 < s.latch.rowBytes :=
  (Nat.zero_le _).trans_lt ((engineInv_startRow hs.inv hs.phase .none).posLive rfl hs.err)

theorem RowDone.state {row : List Byte} {src : Addr} {adler : Word} (h : RowDone s f row src adler t) :
    t.status = s.status ∧ t.latch = s.latch ∧ t.platform = s.platform ∧ t.dstAddr = s.dstAddr + s.latch.stride ∧
      t.filt = ⟨if s.filt.row + 1#32 = s.latch.rows then .done else .awaitFilter,
        f, 0#32, s.filt.row + 1#32, false⟩ := by
  obtain ⟨u, -, hframe, -, -⟩ := h
  rw [hframe]
  exact ⟨rfl, rfl, rfl, rfl, rfl⟩

end Row

/-! ### A list of rows (R160) -/

theorem issue_append_of_next {xs : List Instr} {s t : State} (h : issue xs s = .next t) (ys : List Instr) :
    issue (xs ++ ys) s = issue ys t := by
  induction xs generalizing s with
  | nil =>
    cases h
    rfl
  | cons x xs ih =>
    rw [List.cons_append, issue]
    rw [issue] at h
    cases hx : cmdWrite (encode x) s with
    | next u =>
      rw [hx] at h
      exact ih h
    | fault _ | refused _ =>
      rw [hx] at h
      cases h

theorem issue_engineInv {xs : List Instr} {s t : State} (hs : EngineInv s) (h : issue xs s = .next t) :
    EngineInv t := by
  induction xs generalizing s with
  | nil =>
    cases h
    exact hs
  | cons x xs ih =>
    obtain ⟨u, hu, hinv⟩ := cmdWrite_engineInv hs (encode x)
    rw [issue, hu] at h
    exact ih hinv h

/-- The filtered stream of one row, issued byte by byte, gives the row back. -/
theorem RowDue.issue_encodeRow {s : State} (hs : RowDue s) (f : FilterType) {row : List Byte}
    (hlen : row.length = s.latch.rowBytes) (hadm : s.RowAdmitted) :
    ∃ (adler : Word) (t : State),
      issue ((filterTypeByte f :: encodeRow f s.latch.dist s.rowAbove row).map .unfilterByte) s = .next t ∧
      RowDone s f row s.srcAddr adler t ∧ EngineInv t := by
  have hpayload : (encodeRow f s.latch.dist s.rowAbove row).length = s.latch.rowBytes := by simp [encodeRow, hlen]
  obtain ⟨u, hu, hrow, hsrc, -⟩ := hs.typeByte f none
  obtain ⟨t, ht, hdone⟩ := hrow.issue hs hadm (vs := encodeRow f s.latch.dist s.rowAbove row)
    (List.length_pos_iff.mp (hpayload ▸ hs.rowBytes_pos)) (by rw [hpayload]; exact Nat.zero_add _)
  have hissue :
      issue ((filterTypeByte f :: encodeRow f s.latch.dist s.rowAbove row).map .unfilterByte) s = .next t :=
    (issue_cons_of_next hs.err (by rw [exec, execUnfilterByte, hu]; rfl)).trans ht
  rw [hsrc, show decodeRowFrom f s.latch.dist s.rowAbove [] _ = row from
    decodeRow_encodeRow f hs.latch.dist_pos s.rowAbove row] at hdone
  exact ⟨_, t, hissue, hdone, issue_engineInv hs.inv hissue⟩

theorem succ_toNat {x y : Word} (h : x.toNat + 1 ≤ y.toNat) : (x + 1#32).toNat = x.toNat + 1 := by
  have := y.isLt
  rw [BitVec.toNat_add]
  exact Nat.mod_eq_of_lt (by simp; omega)

theorem rowAdmitted_of_zero {s : State} {n : Nat}
    (h : ∀ k ≤ n, s.emissionAdmitted (s.dstAddr + BitVec.ofNat 32 k * s.latch.stride) s.latch.width s.latch.fmt
      s.latch.xstep s.latch.rowBytes) : s.RowAdmitted := by
  simpa [State.RowAdmitted] using h 0 (Nat.zero_le n)

/-- The filtered stream of the rows of a pass, its last row named. -/
theorem RowDue.issue_encodeRows {s : State} (hs : RowDue s) (rows : List (FilterType × List Byte)) (f : FilterType)
    (row : List Byte) (hrows : s.filt.row.toNat + rows.length + 1 ≤ s.latch.rows.toNat)
    (hlen : ∀ r ∈ rows ++ [(f, row)], r.2.length = s.latch.rowBytes)
    (hadm : ∀ k ≤ rows.length, s.emissionAdmitted (s.dstAddr + BitVec.ofNat 32 k * s.latch.stride) s.latch.width
      s.latch.fmt s.latch.xstep s.latch.rowBytes) :
    ∃ t, issue ((encodeRows s.latch.dist s.rowAbove (rows ++ [(f, row)])).map .unfilterByte) s = .next t ∧
      t.status.err = false ∧ t.filt.row.toNat = s.filt.row.toNat + rows.length + 1 ∧
      RowBuf.slice t.cur 0 s.latch.rowBytes = some row ∧ RowBuf.slice t.prev 0 s.latch.rowBytes = some row := by
  induction rows generalizing s with
  | nil =>
    obtain ⟨adler, t, ht, hdone, -⟩ := hs.issue_encodeRow f (hlen (f, row) (by simp)) (rowAdmitted_of_zero hadm)
    obtain ⟨hstatus, -, -, -, hfilt⟩ := hdone.state
    obtain ⟨-, -, -, hcur, hprev⟩ := hdone
    refine ⟨t, ?_, by rw [hstatus]; exact hs.err, by rw [hfilt]; exact succ_toNat hrows, hcur, hprev⟩
    rw [List.nil_append, encodeRows, encodeRows, List.append_nil]
    exact ht
  | cons r rows ih =>
    obtain ⟨adler, t, ht, hdone, hinv⟩ := hs.issue_encodeRow r.1 (hlen r (by simp)) (rowAdmitted_of_zero hadm)
    obtain ⟨hstatus, hlatch, hplatform, hdst, hfilt⟩ := hdone.state
    obtain ⟨-, -, -, -, hprev⟩ := hdone
    rw [List.length_cons] at hrows
    have hcount := succ_toNat (x := s.filt.row) (y := s.latch.rows) (by omega)
    have hmore : s.filt.row + 1#32 ≠ s.latch.rows := fun hlast => by rw [← hlast, hcount] at hrows; omega
    have hdue : RowDue t := ⟨hinv, by rw [hstatus]; exact hs.err, by rw [hfilt]; exact if_neg hmore⟩
    have habove : t.rowAbove = some r.2 := by rw [State.rowAbove, hfilt, hlatch]; exact hprev
    have hrow : t.filt.row = s.filt.row + 1#32 := by rw [hfilt]
    have hadm' : ∀ k ≤ rows.length, t.emissionAdmitted (t.dstAddr + BitVec.ofNat 32 k * s.latch.stride)
        s.latch.width
        s.latch.fmt s.latch.xstep s.latch.rowBytes := fun k hk => by
      have hnext := hadm (k + 1) (by simpa using hk)
      rw [State.emissionAdmitted, hplatform, hdst, add_assoc]
      rwa [BitVec.ofNat_add, add_comm (BitVec.ofNat 32 k), BitVec.add_mul, BitVec.one_mul] at hnext
    obtain ⟨u, hu, herr, hend, hcur, hprev'⟩ := ih hdue (by rw [hrow, hcount, hlatch]; omega)
      (fun x hx => by rw [hlatch]; exact hlen x (List.mem_cons_of_mem _ hx)) (by rw [hlatch]; exact hadm')
    refine ⟨u, ?_, herr, ?_, hlatch ▸ hcur, hlatch ▸ hprev'⟩
    · rw [hlatch, habove] at hu
      rw [List.cons_append, encodeRows, ← List.cons_append, List.map_append, issue_append_of_next ht]
      exact hu
    · rw [hend, hrow, hcount, List.length_cons]
      omega

/-! ### The obligations -/

/-- Settles O46: the type byte, and the rest of the row as one stream. -/
theorem unfilterDecodesAWholeRow : Obligations.UnfilterDecodesAWholeRow := by
  intro f len s hinv herr hphase hlen hread htype hadm
  have hs : RowDue s := ⟨hinv, herr, hphase⟩
  have hpos := hs.rowBytes_pos
  obtain ⟨n, hn⟩ : ∃ n, s.latch.rowBytes = n + 1 := ⟨s.latch.rowBytes - 1, by omega⟩
  obtain ⟨t, ht, hrow, hsrc, hadler⟩ := hs.typeByte f (some s.srcAddr)
  rw [Nat.add_comm, State.admitsRun_succ] at hread
  obtain ⟨hfirst, hrest⟩ := hread
  have hnext : (t.advanceSrc 1).srcAddr = s.srcAddr + 1#32 := by rw [State.advanceSrc, hsrc]
  have hadler' : (t.advanceSrc 1).adler = t.adler := rfl
  obtain ⟨w, hw, hdone⟩ := (hrow.advanceSrc 1).stream hs hadm n (by rw [hn]; exact Nat.zero_add _)
    (by rw [hnext, ← hn]; exact hrest)
  rw [hnext, hadler', hadler, ← hn, ← State.tapped_cons, ← htype, ← State.bytesFrom_succ, ← addr_add_succ,
    Nat.add_comm] at hdone
  obtain ⟨u, hemit, hframe, -, hprev⟩ := hdone
  refine ⟨_, u, w, rfl, hemit, ?_, hframe, hprev⟩
  rw [exec, execUnfilter, hlen, Nat.add_comm, streamBytes, busRead_ok hfirst, Res.bind_ok,
    htype, ht, Res.bind_ok, hn,
    hw]
  rfl

/-- Settles O47: by induction on the rows, each of them given back. -/
theorem filterRoundTrip : Obligations.FilterRoundTrip := by
  intro rows f row s hinv herr hphase hzero hrows hlen hadm
  have habove : s.rowAbove = none := by rw [State.rowAbove, hinv.first.mpr hzero]; rfl
  have hcount : s.filt.row.toNat = 0 := by rw [hzero]; rfl
  have h := RowDue.issue_encodeRows ⟨hinv, herr, hphase⟩ rows f row (by omega) hlen hadm
  rwa [habove, hcount, Nat.zero_add] at h

/-- Settles O43: the row's last byte is stored, and its emission ends at its first refused access. -/
theorem refusedEmissionKeepsTheRowOpen : Obligations.RefusedEmissionKeepsTheRowOpen := by
  intro v s hinv herr hphase hx hadm
  have hready := engineInv_rowReady hinv herr hphase
  obtain ⟨out, row, hrow, hbyte⟩ := payloadByte_last hready hx v
  obtain ⟨u, c, hemit, hfirst, hbus⟩ := emitRow_refused hready.latch (RowBuf.slice_spec hrow).1 hadm
  have hpos : s.filt.x + 1#32 = BitVec.ofNat 32 s.latch.rowBytes := by
    rw [← hx, BitVec.ofNat_add, BitVec.ofNat_toNat, BitVec.setWidth_eq]
  refine ⟨row, _, storePayload out (State.enterFault u .bus (some c.1)), c, ?_, hemit, hfirst, rfl, ?_, ?_,
    fun j hj => storePayload_slice_getElem? hrow hj (by omega), fun b hb => hbus.outside hb⟩
  · rw [exec, execUnfilterByte, filterByte, acceptByte_inRow hphase, hbyte, hemit]
    rfl
  · rw [hbus.frame, ← hpos]
    rfl
  · rw [← hrow, hbus.frame]
    rfl

end Sys2Proof.Machine

end WholeRows

/-! ## Checksums: the trailer decides a critical check, the CRC is a polynomial division, and a changed byte is
detected (spec/40_checksum.md sections 1 and 4) -/

section Checksums

namespace Sys2Proof.Machine

/-! ### The trailer (R110, R114, R118) -/

theorem append_inj {n m : Nat} {x x' : BitVec n} {y y' : BitVec m} (h : x ++ y = x' ++ y') : x = x' ∧ y = y' := by
  have hlow := congrArg (BitVec.extractLsb' 0 m) h
  rw [BitVec.extractLsb'_append_eq_right, BitVec.extractLsb'_append_eq_right] at hlow
  rw [hlow, BitVec.append_left_inj] at h
  exact ⟨h, hlow⟩

/-- A trailer is its four bytes. -/
theorem bytesFrom_eq_of_trailerAt {s t : State} {a : Addr} (h : s.trailerAt a = t.trailerAt a) :
    s.bytesFrom a 4 = t.bytesFrom a 4 := by
  obtain ⟨h, h3⟩ := append_inj h
  obtain ⟨h, h2⟩ := append_inj h
  obtain ⟨h0, h1⟩ := append_inj h
  simp [State.bytesFrom, List.range_succ, -BitVec.toNat_add, h0, h1, h2, h3]

/-- A critical check that passes one trailer faults on any other. -/
theorem checkTrailer_sensitive {running : State → Word} {setMatch : State → Bool → State} {code : ErrCode}
    {s : State}
    {m : List Host.Cell} (hquirk : s.ctrl.ignoreChecksum = false) (hread : s.admitsRun .read s.srcAddr 4)
    (hrunning : running { s with mem := m } = running s)
    (hother : State.bytesFrom { s with mem := m } s.srcAddr 4 ≠ s.bytesFrom s.srcAddr 4) {t : State}
    (ht : (checkTrailer running setMatch code true s).toOutcome = .next t) (hpass : t.status.err = false) :
    ∃ u, (checkTrailer running setMatch code true { s with mem := m }).toOutcome = .next u ∧ u.status.err = true ∧
      u.status.errCode = code.number := by
  have hmatch : s.trailerAt s.srcAddr = running s := by
    by_contra hne
    rw [checkTrailer_fatal hread hne ⟨rfl, hquirk⟩] at ht
    cases ht
    cases hpass
  refine ⟨_, checkTrailer_fatal (s := { s with mem := m }) hread (fun heq => hother ?_) ⟨rfl, hquirk⟩, rfl, rfl⟩
  exact bytesFrom_eq_of_trailerAt (heq.trans (hrunning.trans hmatch.symm))

/-! ### The CRC bit by bit (R100) -/

theorem getLsbD_crcBit (t : Word) (i : Nat) :
    (crcBit t).getLsbD i = (t.getLsbD (1 + i) ^^ (t.getLsbD 0 && (0xEDB88320#32).getLsbD i)) := by
  unfold crcBit
  split <;> simp_all

/-- The bit shifted out stands at the top, by the polynomial's top bit. -/
theorem crcBit_injective : Function.Injective crcBit := by
  intro t u h
  have hbit : ∀ i, (t.getLsbD (1 + i) ^^ (t.getLsbD 0 && (0xEDB88320#32).getLsbD i))
      = (u.getLsbD (1 + i) ^^ (u.getLsbD 0 && (0xEDB88320#32).getLsbD i)) := fun i => by
    rw [← getLsbD_crcBit, ← getLsbD_crcBit, h]
  have hlow : t.getLsbD 0 = u.getLsbD 0 := by simpa using hbit 31
  refine BitVec.eq_of_getLsbD_eq fun i _ => ?_
  cases i with
  | zero => exact hlow
  | succ i => simpa only [hlow, Bool.xor_left_inj, Nat.add_comm 1] using hbit i

theorem crcBits_injective (n : Nat) : Function.Injective (crcBits n) := by
  induction n with
  | zero => exact fun _ _ h => h
  | succ n ih => exact ih.comp crcBit_injective

theorem crc32Byte_inj {c c' : Word} {v v' : Byte} :
    crc32Byte c v = crc32Byte c' v' ↔
      c ^^^ 0xFFFFFFFF#32 ^^^ v.setWidth 32 = c' ^^^ 0xFFFFFFFF#32 ^^^ v'.setWidth 32 := by
  rw [crc32Byte, crc32Byte, BitVec.xor_left_inj, (crcBits_injective 8).eq_iff]

theorem crc32_injective (vs : List Byte) : Function.Injective (crc32 · vs) := by
  induction vs with
  | nil => exact fun _ _ h => h
  | cons v vs ih =>
    refine ih.comp (f := (crc32Byte · v)) fun c c' h => ?_
    rwa [crc32Byte_inj, BitVec.xor_left_inj, BitVec.xor_left_inj] at h

theorem crc32_append (c : Word) (vs ws : List Byte) : crc32 c (vs ++ ws) = crc32 (crc32 c vs) ws :=
  List.foldl_append

/-- The reflected step is the unreflected one on the reversed word. -/
theorem crcBit_reverse (t : Word) : crcBit t.reverse = (crcMsbBit t).reverse := by
  have hpoly : ∀ i < 32, (0x04C11DB7#32).getMsbD i = (0xEDB88320#32).getLsbD i := by decide
  refine BitVec.eq_of_getLsbD_eq fun i hi => ?_
  rw [getLsbD_crcBit, BitVec.getLsbD_reverse, BitVec.getLsbD_reverse, BitVec.getLsbD_reverse, ← hpoly i hi]
  unfold crcMsbBit
  split <;> simp_all [BitVec.msb, Nat.add_comm]

theorem crcBits_reverse (n : Nat) (t : Word) : crcBits n t.reverse = (crcMsbBits n t).reverse := by
  induction n generalizing t with
  | zero => rfl
  | succ n ih => rw [crcBits, crcBit_reverse, ih, crcMsbBits]

theorem reverse_xor_byte (t : Word) (v : Byte) :
    (t ^^^ (v.reverse ++ 0#24)).reverse = t.reverse ^^^ v.setWidth 32 := by
  refine BitVec.eq_of_getLsbD_eq fun i hi => ?_
  rw [BitVec.getLsbD_reverse, BitVec.getLsbD_xor, BitVec.getLsbD_reverse, BitVec.getMsbD_xor,
    BitVec.getMsbD_append,
    BitVec.getLsbD_setWidth]
  obtain h8 | h8 := lt_or_ge i 8
  · simp [h8, hi, BitVec.getMsbD_reverse]
  · simp [h8]

/-- One byte of the unreflected division, on the reversed and inverted register. -/
theorem crc32Byte_not_reverse (t : Word) (v : Byte) :
    crc32Byte (~~~t.reverse) v = ~~~(crcMsbBits 8 (t ^^^ (v.reverse ++ 0#24))).reverse := by
  have hones : 0xFFFFFFFF#32 = BitVec.allOnes 32 := rfl
  rw [crc32Byte, hones, BitVec.xor_allOnes, BitVec.xor_allOnes, BitVec.not_not, ← crcBits_reverse,
    reverse_xor_byte]

theorem crc32_not_reverse (t : Word) (vs : List Byte) :
    crc32 (~~~t.reverse) vs = ~~~(vs.foldl (fun t v => crcMsbBits 8 (t ^^^ (v.reverse ++ 0#24))) t).reverse := by
  induction vs generalizing t with
  | nil => rfl
  | cons v vs ih => rw [List.foldl_cons, ← ih, ← crc32Byte_not_reverse, crc32, List.foldl_cons, crc32]

/-! ### The low half of Adler-32 (R102) -/

/-- The byte sum of an Adler-32 value, its low half. -/
def adlerLow (a : Word) : Nat := (a.extractLsb' 0 16).toNat

theorem adlerLow_adler32Byte (a : Word) (v : Byte) :
    adlerLow (adler32Byte a v) = (adlerLow a + v.toNat) % adlerModulus := by
  rw [adlerLow, adler32Byte, BitVec.extractLsb'_append_eq_right]
  exact Nat.mod_eq_of_lt ((Nat.mod_lt _ (by decide)).trans (by decide))

theorem adlerLow_adler32 (a : Word) (vs : List Byte) :
    adlerLow (adler32 a vs) ≡ adlerLow a + byteSum vs [MOD adlerModulus] := by
  induction vs generalizing a with
  | nil => rfl
  | cons v vs ih =>
    have hsum : byteSum (v :: vs) = v.toNat + byteSum vs := rfl
    have hstep : adlerLow (adler32Byte a v) ≡ adlerLow a + v.toNat [MOD adlerModulus] := by
      rw [adlerLow_adler32Byte]
      exact Nat.mod_modEq _ _
    rw [hsum, ← Nat.add_assoc]
    exact (ih (adler32Byte a v)).trans (hstep.add_right _)

theorem byteSum_append (vs ws : List Byte) : byteSum (vs ++ ws) = byteSum vs + byteSum ws := by simp [byteSum]

/-- The byte sum tells two bytes apart, its modulus being above 255. -/
theorem byte_eq_of_adler32 {c : Word} {before after : List Byte} {v w : Byte}
    (h : adler32 c (before ++ v :: after) = adler32 c (before ++ w :: after)) : v = w := by
  have hsum : ∀ x : Byte, byteSum (before ++ x :: after) =
      x.toNat + (byteSum before + byteSum after) := fun x => by
    have hcons : byteSum (x :: after) = x.toNat + byteSum after := rfl
    rw [byteSum_append, hcons, Nat.add_left_comm]
  have hmod := (adlerLow_adler32 c (before ++ v :: after)).symm.trans
    (h ▸ adlerLow_adler32 c (before ++ w :: after))
  rw [hsum, hsum] at hmod
  refine BitVec.eq_of_toNat_eq (Nat.ModEq.eq_of_lt_of_lt ((hmod.add_left_cancel' _).add_right_cancel' _) ?_ ?_) <;>
  exact (BitVec.isLt _).trans (by decide)

/-! ### The obligations -/

/-- Settles O33: both checks, by what one trailer passed says of another. -/
theorem trailerSensitivity : Obligations.TrailerSensitivity := fun _ m _ hquirk hread hother =>
  ⟨fun _ => checkTrailer_sensitive (m := m) hquirk hread rfl hother,
    fun _ => checkTrailer_sensitive (m := m) hquirk hread rfl hother⟩

/-- Settles O34: the CRC update is injective, and the byte sum of Adler-32 keeps a difference. -/
theorem singleByteChangeIsDetected : Obligations.SingleByteChangeIsDetected := by
  refine fun c before after v w hne => ⟨fun h => hne ?_, mt byte_eq_of_adler32 hne⟩
  rw [crc32_append, crc32_append] at h
  have hbyte : crc32Byte (crc32 c before) v = crc32Byte (crc32 c before) w := crc32_injective after h
  rw [crc32Byte_inj, BitVec.xor_right_inj] at hbyte
  simpa using congrArg (BitVec.setWidth 8) hbyte

/-- Settles O35: the bit step on the reversed word, byte by byte, and the check value. -/
theorem crcIsReflectedPolynomialDivision : Obligations.CrcIsReflectedPolynomialDivision := by
  refine ⟨fun c vs => ?_, by decide +kernel⟩
  rw [← crc32_not_reverse, BitVec.reverse_reverse_eq, BitVec.not_not]

/-- Settles O36: the two sums of a run from 1. -/
theorem adlerClosedForm : Obligations.AdlerClosedForm := adler32_one_eq_sums

end Sys2Proof.Machine

end Checksums

/-! ## First rows, and the bits of a row beyond its last pixel (spec/41_filter.md section 4; spec/42_swizzle.md
section 5) -/

section RowBits

namespace Sys2Proof.Machine

/-! ### Paeth with a zero neighbour (R146, R157) -/

theorem paeth_left (a : Byte) : paeth a 0#8 0#8 = a := by simp [paeth]

theorem paeth_above (b : Byte) : paeth 0#8 b 0#8 = b := by
  rw [paeth_eq]
  split_ifs with hleft habove
  · have hdist : paethDistance 0#8 b 0#8 0#8 = b.toNat ∧ paethDistance 0#8 b 0#8 b = 0 := by simp [paethDistance]
    exact BitVec.eq_of_toNat_eq (by simp; omega)
  · rfl
  · simp [paethDistance] at habove

/-! ### Samples by the bits of their pixel (R182) -/

section Bits

variable {buf buf' : List Byte}

/-- A byte of a row is its eight bits. -/
theorem getElem?_eq_of_rowBit (hlen : buf.length = buf'.length) {m : Nat}
    (h : ∀ k < 8, rowBit buf (8 * m + k) = rowBit buf' (8 * m + k)) : buf[m]? = buf'[m]? := by
  obtain hm | hm := lt_or_ge m buf.length
  · have hm' : m < buf'.length := hlen ▸ hm
    have hbit : ∀ k < 8, buf[m].getLsbD (7 - k) = buf'[m].getLsbD (7 - k) := fun k hk => by
      have hdiv : (8 * m + k) / 8 = m := by omega
      have hmod : (8 * m + k) % 8 = k := by omega
      simpa only [rowBit, hdiv, hmod, List.getD_eq_getElem _ _ hm, List.getD_eq_getElem _ _ hm'] using h k hk
    rw [List.getElem?_eq_getElem hm, List.getElem?_eq_getElem hm']
    refine congrArg some (BitVec.eq_of_getLsbD_eq fun i hi => ?_)
    have hsub : 7 - (7 - i) = i := by omega
    rw [← hsub]
    exact hbit (7 - i) (by omega)
  · rw [List.getElem?_eq_none hm, List.getElem?_eq_none (hlen ▸ hm)]

/-- A sample below 8 bits is the bits of its pixel. -/
theorem map_subByteSample_eq_of_rowBit (hlen : buf.length = buf'.length) {n i : Nat} (hn : n = 1 ∨ n = 2 ∨ n = 4)
    (h : ∀ k < n, rowBit buf (i * n + k) = rowBit buf' (i * n + k)) :
    buf[i * n / 8]?.map (subByteSample n i) = buf'[i * n / 8]?.map (subByteSample n i) := by
  obtain hm | hm := lt_or_ge (i * n / 8) buf.length
  · have hbyte := List.getElem?_eq_getElem hm
    have hbyte' := List.getElem?_eq_getElem (hlen ▸ hm)
    rw [hbyte, hbyte', Option.map_some, Option.map_some]
    refine congrArg some (BitVec.eq_of_getLsbD_eq fun j _ => ?_)
    obtain hj | hj := lt_or_ge j n
    · have hsub : n - 1 - (n - 1 - j) = j := by omega
      rw [← hsub, getLsbD_subByteSample_eq_rowBit hn (by omega) hbyte,
        getLsbD_subByteSample_eq_rowBit hn (by omega) hbyte', h _ (by omega)]
    · rw [getLsbD_subByteSample (by omega), getLsbD_subByteSample (by omega), decide_eq_false (by omega),
        Bool.false_and, Bool.false_and]
  · rw [List.getElem?_eq_none hm, List.getElem?_eq_none (hlen ▸ hm)]

theorem channels_eq_one {ct : ColourType} {d : Depth} (hlegal : legalPair ct d = true)
    (hd : d = .d1 ∨ d = .d2 ∨ d = .d4) : ct.channels = 1 := by
  revert hlegal
  obtain rfl | rfl | rfl := hd <;> cases ct <;> decide

/-- The samples of a pixel of the row are its bits. -/
theorem sample_eq_of_rowBit {sf : SrcFormat} (hlegal : legalPair sf.ct sf.depth = true)
    (hlen : buf.length = buf'.length) {i ch : Nat} (hch : ch < sf.ct.channels)
    (h : ∀ k < sf.bpp, rowBit buf (i * sf.bpp + k) = rowBit buf' (i * sf.bpp + k)) :
    sample sf buf i ch = sample sf buf' i ch := by
  obtain ⟨ct, d⟩ := sf
  have hbyte : ∀ m j, 8 * m = i * (ct.channels * d.bits) + j → j + 8 ≤ ct.channels * d.bits → buf[m]? = buf'[m]? :=
    fun m j hm hj => getElem?_eq_of_rowBit hlen fun k hk => by
      rw [hm, Nat.add_assoc]
      exact h (j + k) (show j + k < ct.channels * d.bits by omega)
  have hsmall : ∀ n, d.bits = n → n = 1 ∨ n = 2 ∨ n = 4 → ct.channels = 1 →
      buf[i * n / 8]?.map (subByteSample n i) = buf'[i * n / 8]?.map (subByteSample n i) := fun n hbits hn hone =>
    map_subByteSample_eq_of_rowBit hlen hn (by simpa [SrcFormat.bpp, hone, hbits] using h)
  have hwiden : ∀ n, d.bits = n → (d, n) ∈ [(Depth.d1, 1), (.d2, 2), (.d4, 4)] → ct.channels = 1 →
      sample ⟨ct, d⟩ buf i ch = sample ⟨ct, d⟩ buf' i ch := fun n hbits hd hone => by
    have hn : n = 1 ∨ n = 2 ∨ n = 4 := by
      simp only [List.mem_cons, Prod.mk.injEq, List.not_mem_nil, or_false] at hd
      exact hd.imp And.right (Or.imp And.right And.right)
    rw [sample_subByte hd, sample_subByte hd]
    simpa [Option.map_map, Function.comp_def] using
      congrArg (Option.map (BitVec.setWidth 16)) (hsmall n hbits hn hone)
  cases d with
  | d1 => exact hwiden 1 rfl (by simp) (channels_eq_one hlegal (by simp))
  | d2 => exact hwiden 2 rfl (by simp) (channels_eq_one hlegal (by simp))
  | d4 => exact hwiden 4 rfl (by simp) (channels_eq_one hlegal (by simp))
  | d8 =>
    simp only [Depth.bits] at hbyte
    simp only [sample, hbyte (i * ct.channels + ch) (8 * ch) (by ring) (by simp at hch; omega)]
  | d16 =>
    simp only [Depth.bits] at hbyte
    simp only [sample, hbyte (2 * (i * ct.channels + ch)) (16 * ch) (by ring) (by simp at hch; omega),
      hbyte (2 * (i * ct.channels + ch) + 1) (16 * ch + 8) (by ring) (by simp at hch; omega)]

theorem toBgra_congr {sf : SrcFormat} {i : Nat} (pal : Vector Word 256)
    (h : ∀ ch < sf.ct.channels, sample sf buf i ch = sample sf buf' i ch) :
    toBgra pal sf buf i = toBgra pal sf buf' i := by
  obtain ⟨ct, d⟩ := sf
  replace h : ∀ ch < ct.channels, sample ⟨ct, d⟩ buf i ch = sample ⟨ct, d⟩ buf' i ch := h
  cases ct with
  | gray | indexed => simp only [toBgra, h 0 (by decide)]
  | grayAlpha => simp only [toBgra, h 0 (by decide), h 1 (by decide)]
  | rgb => simp only [toBgra, h 0 (by decide), h 1 (by decide), h 2 (by decide)]
  | rgba => simp only [toBgra, h 0 (by decide), h 1 (by decide), h 2 (by decide), h 3 (by decide)]

theorem emitY8Pixel_congr {sf : SrcFormat} {i : Nat} (xstep : Word) (h : toY8 sf buf i = toY8 sf buf' i) :
    emitY8Pixel sf buf xstep i = emitY8Pixel sf buf' xstep i := by
  funext s
  rw [emitY8Pixel, h, emitY8Pixel]

theorem emitBgraPixel_congr {sf : SrcFormat} {i : Nat} (srcOver : Bool) (xstep : Word)
    (h : ∀ pal, toBgra pal sf buf i = toBgra pal sf buf' i) :
    emitBgraPixel sf buf srcOver xstep i = emitBgraPixel sf buf' srcOver xstep i := by
  funext s
  rw [emitBgraPixel, h, emitBgraPixel]

end Bits

/-- The code of a destination format (R180). -/
def DstFormat.code : DstFormat → BitVec 2
  | .raw => 0#2
  | .y8 => 1#2
  | .bgra => 2#2

theorem DstFormat.code_injective : Function.Injective DstFormat.code := by
  intro df df'
  cases df <;> cases df' <;> decide

theorem dstFmt_of_dstFormatOf {f : Fmt} {df : DstFormat} (h : dstFormatOf f = some df) : f.dstFmt = df.code := by
  unfold dstFormatOf at h
  split_ifs at h <;> cases h <;> assumption

theorem forRange_congr {body body' : Nat → State → Res Unit} {n i : Nat}
    (h : ∀ j, i ≤ j → j < i + n → body j = body' j) (s : State) : forRange body i n s = forRange body' i n s := by
  induction n generalizing i s with
  | zero => rfl
  | succ n ih =>
    rw [forRange, forRange, h i le_rfl (by omega)]
    congr 1
    funext _ t
    exact ih (fun j hij hj => h j (by omega) (by omega)) t

/-! ### The obligations -/

/-- Settles O45: the predictions with the neighbours above, or to the left, zero. -/
theorem firstRowCollapses : Obligations.FirstRowCollapses := by
  refine fun raw a b => ⟨?_, rfl, ?_, ?_⟩
  · rw [reconstruct, reconstruct, pred, pred, paeth_left]
  · simp [reconstruct, pred, BitVec.ofNat_add]
  · rw [reconstruct, reconstruct, pred, pred, paeth_above]

/-- Settles O58: pixel by pixel, each a function of its samples and each sample of the bits of its pixel. -/
theorem unusedRowBitsAreIgnored : Obligations.UnusedRowBitsAreIgnored := by
  intro buf buf' width f sf xstep s hsrc hraw hlen hbits
  have hsample : ∀ i < width.toNat, ∀ ch < sf.ct.channels, sample sf buf i ch = sample sf buf' i ch :=
    fun i hi ch hch => sample_eq_of_rowBit (srcFormatOf_legal hsrc) hlen hch fun k hk => hbits _ <| by
      have hrow := Nat.mul_le_mul_right sf.bpp (Nat.succ_le_of_lt hi)
      rw [Nat.succ_mul] at hrow
      omega
  have hy8 : ∀ i < width.toNat, toY8 sf buf i = toY8 sf buf' i := fun i hi => by
    rw [toY8, hsample i hi 0 (by cases sf.ct <;> decide), toY8]
  have hbgra : ∀ i < width.toNat, ∀ pal, toBgra pal sf buf i = toBgra pal sf buf' i := fun i hi pal =>
    toBgra_congr pal (hsample i hi)
  simp only [emitRow, hsrc]
  cases hdf : dstFormatOf f with
  | none => rfl
  | some df =>
    cases df with
    | raw => exact absurd (dstFmt_of_dstFormatOf hdf) hraw
    | y8 =>
      have hloop := forRange_congr (n := width.toNat) (i := 0)
        (fun i _ hi => emitY8Pixel_congr xstep (hy8 i (by omega))) s
      simp only [hloop]
    | bgra =>
      have hloop := forRange_congr (n := width.toNat) (i := 0)
        (fun i _ hi => emitBgraPixel_congr f.srcOver xstep (hbgra i (by omega))) s
      simp only [hloop]

end Sys2Proof.Machine

end RowBits

/-! ## Row emission access by access, and where the pixels of a row land (spec/42_swizzle.md sections 1, 3
and 5) -/

section EmittedRows

namespace Sys2Proof.Machine

/-! ### Following a loop -/

theorem foldl_apply_keeps {P : State → Prop} (hP : ∀ (o : BusOp) t, P t → P (o.apply t)) (ops : List BusOp)
    {s : State}
    (hs : P s) : P (ops.foldl (fun t o => o.apply t) s) := by
  induction ops generalizing s with
  | nil => exact hs
  | cons o ops ih => exact ih (hP o s hs)

/-- A loop whose rounds follow `L` accesses each follows all of them: round `i + j` follows those
from `L * j` on. -/
theorem forRange_follow {body : Nat → State → Res Unit} {accesses : Nat → List Access} {V : Nat → List Byte → Prop}
    {P : State → Prop} {L : Nat} (hlen : ∀ j, (accesses j).length = L)
    (hP : ∀ (o : BusOp) t, P t → P (o.apply t)) (n i : Nat)
    (hbody : ∀ j, i ≤ j → j < i + n → ∀ t, P t → ∃ ops : List BusOp, ops.map BusOp.access = accesses j ∧
      V j (ops.map BusOp.value) ∧ readsMemory ops t ∧ body j t = follow ops t)
    {s : State} (hs : P s) :
    ∃ ops : List BusOp, ops.map BusOp.access = (List.range' i n).flatMap accesses ∧ readsMemory ops s ∧
      forRange body i n s = follow ops s ∧ ∀ j < n, V (i + j) (((ops.drop (L * j)).take L).map BusOp.value) := by
  induction n generalizing i s with
  | zero => exact ⟨[], rfl, trivial, rfl, fun _ hj => absurd hj (Nat.not_lt_zero _)⟩
  | succ n ih =>
    obtain ⟨first, haccess, hvalue, hreads, hfirst⟩ := hbody i le_rfl (by omega) s hs
    obtain ⟨rest, haccess', hreads', hrest, hvalue'⟩ := ih (i + 1) (fun j hij hj => hbody j (by omega) (by omega))
      (foldl_apply_keeps hP first hs)
    have hL : first.length = L := by rw [← hlen i, ← haccess, List.length_map]
    refine ⟨first ++ rest, ?_, (readsMemory_append first rest s).mpr ⟨hreads, hreads'⟩, ?_, fun j hj => ?_⟩
    · rw [List.map_append, haccess, haccess', List.range'_succ, List.flatMap_cons]
    · rw [forRange, hfirst, follow_append]
      cases hfollow : follow first s with
      | ok _ t => rw [Res.bind_ok, Res.bind_ok, follow_ok hfollow, hrest]
      | ended _ | stuck _ => rfl
    · cases j with
      | zero =>
        rw [Nat.mul_zero, List.drop_zero, List.take_left' hL]
        exact hvalue
      | succ j =>
        have hdrop : (first ++ rest).drop (L * (j + 1)) = rest.drop (L * j) := by
          rw [Nat.mul_succ, Nat.add_comm, ← List.drop_drop, List.drop_left' hL]
        rw [hdrop, Nat.add_comm j, ← Nat.add_assoc]
        exact hvalue' j (by omega)

theorem BusOp.apply_read_other {o : BusOp} {a : Addr} (h : o.access ≠ (a, .write)) (s : State) :
    Memory.read (o.apply s).mem a.toNat = Memory.read s.mem a.toNat := by
  obtain ⟨⟨b, kind⟩, v⟩ := o
  cases kind with
  | read => rfl
  | write => exact Memory.read_write_other _ _ fun hab => h (by rw [BitVec.eq_of_toNat_eq hab])

theorem foldl_apply_read_other {ops : List BusOp} {a : Addr} (h : ∀ o ∈ ops, o.access ≠ (a, .write)) (s : State) :
    Memory.read (ops.foldl (fun t o => o.apply t) s).mem a.toNat = Memory.read s.mem a.toNat := by
  induction ops generalizing s with
  | nil => rfl
  | cons o ops ih =>
    obtain ⟨ho, hops⟩ := List.forall_mem_cons.mp h
    rw [List.foldl_cons, ih hops, BusOp.apply_read_other ho]

/-- The last write to an address stays. -/
theorem follow_lastWrite {pre post : List BusOp} {a : Addr} {v : Byte} {s t : State}
    (h : follow (pre ++ ⟨(a, .write), v⟩ :: post) s = .ok () t) (hpost : ∀ o ∈ post, o.access ≠ (a, .write)) :
    Memory.read t.mem a.toNat = v := by
  rw [follow_ok h, List.foldl_append, List.foldl_cons, foldl_apply_read_other hpost]
  exact Memory.read_write_same _ _ _

/-! ### The accesses of a row by format (R188, R195) -/

/-- What one Y8 pixel follows. -/
theorem emitY8Pixel_follow {sf : SrcFormat} {row : List Byte} {i : Nat} {y : Byte} (hy : toY8 sf row i = some y)
    (xstep : Word) (t : State) :
    emitY8Pixel sf row xstep i t = follow [⟨(pixelAddr t.dstAddr xstep i, .write), y⟩] t := by
  rw [emitY8Pixel, hy]
  rfl

/-- The bytes that a BGRA pixel moves: its own, or under SRC_OVER those read and then those blended with them. -/
def BgraValues (f : Fmt) (px : Pixel) (vs : List Byte) : Prop :=
  if f.srcOver then ∃ old : Pixel, vs = pixelBytes old ++ pixelBytes (Config.overFn old px) else vs = pixelBytes px

/-- What one BGRA pixel follows. -/
theorem emitBgraPixel_follow {sf : SrcFormat} {row : List Byte} {i : Nat} {t : State} {px : Pixel}
    (hpx : toBgra t.pal sf row i = some px) (f : Fmt) (xstep : Word) :
    ∃ ops : List BusOp, ops.map BusOp.access = pixelAccesses f (pixelAddr t.dstAddr xstep i) ∧
      BgraValues f px (ops.map BusOp.value) ∧ readsMemory ops t ∧
      emitBgraPixel sf row f.srcOver xstep i t = follow ops t := by
  unfold emitBgraPixel BgraValues pixelAccesses
  simp only [hpx]
  split
  · obtain ⟨old, reads, haccess, hvalue, hmem, hfold, hbind⟩ := readPixel_follow (pixelAddr t.dstAddr xstep i) t
    obtain ⟨writes, haccess', hvalue', hmem', hwrite⟩ := writeBytes_follow (pixelAddr t.dstAddr xstep i)
      (pixelBytes (Config.overFn old px)) t
    refine ⟨reads ++ writes, ?_, ⟨old, ?_⟩, (readsMemory_append reads writes t).mpr ⟨hmem, hmem' _⟩, ?_⟩
    · rw [List.map_append, haccess, haccess', pixelBytes_length]
    · rw [List.map_append, hvalue, hvalue']
    · rw [hbind, follow_append]
      cases hfollow : follow reads t with
      | ok _ u =>
        cases (follow_ok hfollow).trans hfold
        exact hwrite
      | ended _ | stuck _ => rfl
  · obtain ⟨writes, haccess, hvalue, hmem, hwrite⟩ := writeBytes_follow (pixelAddr t.dstAddr xstep i)
      (pixelBytes px) t
    exact ⟨writes, by rw [haccess, pixelBytes_length]; rfl, hvalue, hmem t, hwrite⟩

/-- The emission of a row is its accesses followed in order, and these satisfy `V`. -/
def EmissionFollows (width : Word) (f : Fmt) (xstep : Word) (row : List Byte) (s : State)
    (V : List BusOp → Prop) : Prop :=
  ∃ ops : List BusOp, ops.map BusOp.access = emissionAccesses s.dstAddr width f xstep row.length ∧
    readsMemory ops s ∧ emitRow row width f xstep s = follow ops s ∧ V ops

section Formats

variable {width : Word} {f : Fmt} {sf : SrcFormat} {xstep : Word} {row : List Byte} {s : State}

theorem emitRow_raw (hsrc : srcFormatOf f = some sf) (hdst : dstFormatOf f = some .raw)
    (hadm : admitted sf.ct .raw f.srcOver = true) :
    emitRow row width f xstep s = writeBytes s.dstAddr row s := by
  simp only [emitRow, hsrc, hdst, hadm, if_true]

theorem emitRow_y8 (hsrc : srcFormatOf f = some sf) (hdst : dstFormatOf f = some .y8)
    (hadm : admitted sf.ct .y8 f.srcOver = true) :
    emitRow row width f xstep s = forRange (emitY8Pixel sf row xstep) 0 width.toNat s := by
  simp only [emitRow, hsrc, hdst, hadm, if_true]

theorem emitRow_bgra (hsrc : srcFormatOf f = some sf) (hdst : dstFormatOf f = some .bgra)
    (hadm : admitted sf.ct .bgra f.srcOver = true) :
    emitRow row width f xstep s = forRange (emitBgraPixel sf row f.srcOver xstep) 0 width.toNat s := by
  simp only [emitRow, hsrc, hdst, hadm, if_true]

theorem emissionFollows_raw (hsrc : srcFormatOf f = some sf) (hdst : dstFormatOf f = some .raw)
    (hadm : admitted sf.ct .raw f.srcOver = true) :
    EmissionFollows width f xstep row s fun ops => ops.map BusOp.value = row := by
  obtain ⟨ops, haccess, hvalue, hreads, hfollow⟩ := writeBytes_follow s.dstAddr row s
  refine ⟨ops, ?_, hreads s, (emitRow_raw hsrc hdst hadm).trans hfollow, hvalue⟩
  simp only [emissionAccesses, hdst, haccess]

theorem emissionFollows_y8 (hsrc : srcFormatOf f = some sf) (hdst : dstFormatOf f = some .y8)
    (hadm : admitted sf.ct .y8 f.srcOver = true) (hlen : row.length = rowLength width sf.bpp) :
    EmissionFollows width f xstep row s fun ops =>
      ∀ i < width.toNat, ops[i]?.map BusOp.value = toY8 sf row i := by
  obtain ⟨ops, haccess, hreads, hfollow, hvalue⟩ := forRange_follow (body := emitY8Pixel sf row xstep)
    (accesses := fun i => [(pixelAddr s.dstAddr xstep i, .write)]) (V := fun i vs => vs.head? = toY8 sf row i)
    (P := fun t => t.dstAddr = s.dstAddr) (L := 1) (s := s) (fun _ => rfl)
    (fun o t ht => (o.apply_dstAddr t).trans ht) width.toNat 0 (fun i _ hi t ht => by
      obtain ⟨y, hy⟩ := Option.isSome_iff_exists.mp
        (toY8_isSome (srcFormatOf_legal hsrc) hlen (show i < width.toNat by omega))
      refine ⟨_, ?_, ?_, ?_, emitY8Pixel_follow hy xstep t⟩
      · rw [List.map_singleton, ht]
      · exact hy.symm
      · exact ⟨nofun, trivial⟩) rfl
  refine ⟨ops, ?_, hreads, (emitRow_y8 hsrc hdst hadm).trans hfollow, fun i hi => ?_⟩
  · simp only [emissionAccesses, hdst, haccess, List.range_eq_range', List.map_eq_flatMap]
  · rw [← Nat.zero_add i, ← hvalue i hi]
    simp [List.head?_take]

theorem emissionFollows_bgra (hsrc : srcFormatOf f = some sf) (hdst : dstFormatOf f = some .bgra)
    (hadm : admitted sf.ct .bgra f.srcOver = true) (hlen : row.length = rowLength width sf.bpp) :
    EmissionFollows width f xstep row s fun ops => ∀ i < width.toNat, ∃ px, toBgra s.pal sf row i = some px ∧
      BgraValues f px (((ops.drop ((if f.srcOver then 8 else 4) * i)).take (if f.srcOver then 8 else 4)).map
        BusOp.value) := by
  obtain ⟨ops, haccess, hreads, hfollow, hvalue⟩ := forRange_follow (body := emitBgraPixel sf row f.srcOver xstep)
    (accesses := fun i => pixelAccesses f (pixelAddr s.dstAddr xstep i))
    (V := fun i vs => ∃ px, toBgra s.pal sf row i = some px ∧ BgraValues f px vs)
    (P := fun t => t.dstAddr = s.dstAddr ∧ t.pal = s.pal) (L := if f.srcOver then 8 else 4) (s := s)
    (fun i => by unfold pixelAccesses; split <;> rfl)
    (fun o t ht => ⟨(o.apply_dstAddr t).trans ht.1, (o.apply_pal t).trans ht.2⟩) width.toNat 0
    (fun i _ hi t ht => by
      obtain ⟨hd, hpal⟩ := ht
      obtain ⟨px, hpx⟩ := Option.isSome_iff_exists.mp
        (toBgra_isSome (pal := s.pal) (srcFormatOf_legal hsrc) hlen (show i < width.toNat by omega))
      obtain ⟨ops, haccess, hvalue, hreads, hfollow⟩ := emitBgraPixel_follow (t := t) (hpal ▸ hpx) f xstep
      exact ⟨ops, by rw [haccess, hd], ⟨px, hpx, hvalue⟩, hreads, hfollow⟩) ⟨rfl, rfl⟩
  refine ⟨ops, ?_, hreads, (emitRow_bgra hsrc hdst hadm).trans hfollow, fun i hi => ?_⟩
  · simp only [emissionAccesses, hdst, haccess, List.range_eq_range']
  · rw [← Nat.zero_add i]
    simpa using hvalue i hi

/-! ### Where pixels land (R180, R188) -/

theorem BusEffect.bytesFrom_eq {A : Nat → Prop} {s t : State} (h : BusEffect A s t) {a : Addr} {n : Nat}
    (hdisjoint : ∀ b, inRun a n b → ¬ A b) : t.bytesFrom a n = s.bytesFrom a n :=
  List.map_congr_left fun _ hj => h.outside (hdisjoint _ (inRun_add a (List.mem_range.mp hj)))

/-- A loop whose round `i` writes the `m` bytes at `q i`, apart from those of the other rounds, leaves in each
run what its round wrote there over the bytes of the start. -/
theorem forRange_lands {body : Nat → State → Res Unit} {q : Nat → Addr} {m : Nat} {V : Nat → List Byte → Prop}
    {n : Nat}
    {s : State}
    (hdisjoint : ∀ i j b, i < n → j < n → inRun (q i) m b → inRun (q j) m b → i = j)
    (hbody : ∀ {A : Nat → Prop} {j : Nat} {t : State}, j < n → BusEffect A s t →
      t.bytesFrom (q j) m = s.bytesFrom (q j) m →
      ∃ u, body j t = .ok () u ∧ BusEffect (inRun (q j) m) t u ∧ V j (u.bytesFrom (q j) m)) :
    ∀ k ≤ n, ∃ t, forRange body 0 k s = .ok () t ∧ BusEffect (fun b => ∃ i < k, inRun (q i) m b) s t ∧
      ∀ i < k, V i (t.bytesFrom (q i) m) := by
  intro k
  induction k with
  | zero => exact fun _ => ⟨s, rfl, BusEffect.refl _ s, fun _ hi => absurd hi (Nat.not_lt_zero _)⟩
  | succ k ih =>
    intro hk
    obtain ⟨t, ht, hbus, hlanded⟩ := ih (by omega)
    have hbefore : t.bytesFrom (q k) m = s.bytesFrom (q k) m := hbus.bytesFrom_eq fun b hb ⟨i, hi, hib⟩ =>
      absurd (hdisjoint i k b (by omega) hk hib hb) hi.ne
    obtain ⟨u, hu, hbus', hround⟩ := hbody hk hbus hbefore
    refine ⟨u, ?_, (hbus.mono fun b ⟨i, hi, hb⟩ => ⟨i, by omega, hb⟩).trans
      (hbus'.mono fun b hb => ⟨k, k.lt_succ_self, hb⟩), fun i hi => ?_⟩
    · rw [forRange_add, ht, Res.bind_ok, Nat.zero_add, forRange, hu]
      rfl
    · obtain rfl | hik := Nat.lt_succ_iff_lt_or_eq.mp hi |>.symm
      · exact hround
      · rw [hbus'.bytesFrom_eq fun b hb hkb => absurd (hdisjoint i k b (by omega) hk hb hkb) hik.ne]
        exact hlanded i hik

/-- Pixels of at most XSTEP bytes do not overlap in a row that does not wrap. -/
theorem pixelAddr_disjoint {dst : Addr} {m n : Nat} (hm : m ≤ xstep.toNat) (hfits : n * xstep.toNat ≤ 2 ^ 32)
    {i j b : Nat} (hi : i < n) (hj : j < n) (hib : inRun (pixelAddr dst xstep i) m b)
    (hjb : inRun (pixelAddr dst xstep j) m b) : i = j := by
  obtain ⟨k, hk, rfl⟩ := hib
  obtain ⟨l, hl, hsame⟩ := hjb
  have hbound : ∀ {i k : Nat}, i < n → k < m → i * xstep.toNat + k < 2 ^ 32 := fun {i k} hi hk => by
    have := Nat.mul_le_mul_right xstep.toNat (Nat.succ_le_of_lt hi)
    rw [Nat.succ_mul] at this
    omega
  have heq := BitVec.eq_of_toNat_eq hsame
  rw [pixelAddr, pixelAddr, BitVec.add_assoc, BitVec.add_assoc, ← BitVec.ofNat_add, ← BitVec.ofNat_add,
    BitVec.add_right_inj] at heq
  have hnat := congrArg BitVec.toNat heq
  rw [BitVec.toNat_ofNat, BitVec.toNat_ofNat, Nat.mod_eq_of_lt (hbound hi hk),
    Nat.mod_eq_of_lt (hbound hj hl)] at hnat
  have hdiv : ∀ {i k : Nat}, k < m → (i * xstep.toNat + k) / xstep.toNat = i := fun {i k} hk => by
    rw [Nat.mul_comm, Nat.mul_add_div (by omega), Nat.div_eq_of_lt (by omega), Nat.add_zero]
  rw [← hdiv (i := i) hk, hnat, hdiv hl]

theorem bytesFrom_one (t : State) (a : Addr) : t.bytesFrom a 1 = [Memory.read t.mem a.toNat] := by
  rw [State.bytesFrom_succ, State.bytesFrom_zero]

theorem bytesFrom_four (t : State) (a : Addr) :
    t.bytesFrom a 4 = [Memory.read t.mem a.toNat, Memory.read t.mem (a + 1#32).toNat,
      Memory.read t.mem (a + 2#32).toNat, Memory.read t.mem (a + 3#32).toNat] := by
  simp [State.bytesFrom, List.range_succ, -BitVec.toNat_add]

theorem readPixel_ok {q : Addr} {t : State} (h : t.admitsRun .read q 4) :
    ∃ old : Pixel, readPixel q t = .ok old t ∧ t.bytesFrom q 4 = pixelBytes old := by
  obtain ⟨old, u, hread, rfl, rfl⟩ := (readPixel_good (fun _ => True) q t).completes fun u hu =>
    hu.elim fun a k hk => by
    obtain ⟨rfl, j, hj, ha⟩ := hk
    rw [BitVec.eq_of_toNat_eq ha]
    exact h j hj
  exact ⟨_, hread, bytesFrom_four u q⟩

/-- What a BGRA pixel leaves at its address, where `before` stood. -/
def BgraLands (f : Fmt) (px : Pixel) (before after : List Byte) : Prop :=
  if f.srcOver then ∃ old : Pixel, before = pixelBytes old ∧ after = pixelBytes (Config.overFn old px)
  else after = pixelBytes px

theorem emitBgraPixel_lands {i : Nat} {t : State} {px : Pixel} (hpx : toBgra t.pal sf row i = some px)
    (hwrite : t.admitsRun .write (pixelAddr t.dstAddr xstep i) 4)
    (hread : f.srcOver = true → t.admitsRun .read (pixelAddr t.dstAddr xstep i) 4) :
    ∃ u, emitBgraPixel sf row f.srcOver xstep i t = .ok () u ∧
      BusEffect (inRun (pixelAddr t.dstAddr xstep i) 4) t u ∧
      BgraLands f px (t.bytesFrom (pixelAddr t.dstAddr xstep i) 4)
        (u.bytesFrom (pixelAddr t.dstAddr xstep i) 4) := by
  unfold emitBgraPixel BgraLands
  simp only [hpx]
  split
  · obtain ⟨old, hold, hbytes⟩ := readPixel_ok (hread (by assumption))
    obtain ⟨u, hu, hbus, hlands⟩ := writeBytes_ok (vs := pixelBytes (Config.overFn old px)) hwrite
      (by simp [pixelBytes_length])
    exact ⟨u, by rw [hold, Res.bind_ok, hu], hbus, old, hbytes, hlands⟩
  · obtain ⟨u, hu, hbus, hlands⟩ := writeBytes_ok (vs := pixelBytes px) hwrite (by simp [pixelBytes_length])
    exact ⟨u, hu, hbus, hlands⟩

theorem writeBytes_singleton (a : Addr) (v : Byte) (t : State) : writeBytes a [v] t = busWrite a v t := by
  rw [writeBytes]
  cases busWrite a v t <;> rfl

theorem emitRow_raw_lands (hsrc : srcFormatOf f = some sf) (hdst : dstFormatOf f = some .raw)
    (hconv : admitted sf.ct .raw f.srcOver = true) (hadm : s.emissionAdmitted s.dstAddr width f xstep row.length)
    (hfits : row.length ≤ 2 ^ 32) :
    ∃ u, emitRow row width f xstep s = .ok () u ∧ u.bytesFrom s.dstAddr row.length = row := by
  have hwrite : s.admitsRun .write s.dstAddr row.length := fun j hj =>
    (hadm _ (by simp only [emitTarget, hdst]; exact inRun_add s.dstAddr hj)).1
  obtain ⟨u, hu, -, hlands⟩ := writeBytes_ok hwrite hfits
  exact ⟨u, (emitRow_raw hsrc hdst hconv).trans hu, hlands⟩

theorem emitRow_y8_lands (hsrc : srcFormatOf f = some sf) (hdst : dstFormatOf f = some .y8)
    (hconv : admitted sf.ct .y8 f.srcOver = true) (hlen : row.length = rowLength width sf.bpp)
    (hadm : s.emissionAdmitted s.dstAddr width f xstep row.length) (hstep : 1 ≤ xstep.toNat)
    (hfits : width.toNat * xstep.toNat ≤ 2 ^ 32) :
    ∃ u, emitRow row width f xstep s = .ok () u ∧ ∀ i < width.toNat,
      toY8 sf row i = some (Memory.read u.mem (pixelAddr s.dstAddr xstep i).toNat) := by
  obtain ⟨u, hu, -, hlands⟩ := forRange_lands (body := emitY8Pixel sf row xstep) (q := pixelAddr s.dstAddr xstep)
    (m := 1) (V := fun i vs => toY8 sf row i = vs.head?) (n := width.toNat) (s := s)
    (fun i j b hi hj => pixelAddr_disjoint hstep hfits hi hj) (fun {A i t} hi hbus _ => by
      obtain ⟨y, hy⟩ := Option.isSome_iff_exists.mp (toY8_isSome (srcFormatOf_legal hsrc) hlen hi)
      have hwrite : t.admitsRun .write (pixelAddr s.dstAddr xstep i) [y].length := fun j hj => by
        rw [hbus.platform]
        refine (hadm _ ?_).1
        obtain rfl : j = 0 := Nat.lt_one_iff.mp hj
        simp only [emitTarget, hdst]
        exact ⟨i, hi, by rw [BitVec.add_zero]⟩
      obtain ⟨u, hu, hbus', hlands⟩ := writeBytes_ok hwrite (by simp)
      refine ⟨u, ?_, hbus', hy.trans (congrArg List.head? hlands).symm⟩
      rw [emitY8Pixel, hy, hbus.dstAddr, ← hu, writeBytes_singleton]) width.toNat le_rfl
  refine ⟨u, (emitRow_y8 hsrc hdst hconv).trans hu, fun i hi => ?_⟩
  rw [hlands i hi, bytesFrom_one]
  rfl

theorem emitRow_bgra_lands (hsrc : srcFormatOf f = some sf) (hdst : dstFormatOf f = some .bgra)
    (hconv : admitted sf.ct .bgra f.srcOver = true) (hlen : row.length = rowLength width sf.bpp)
    (hadm : s.emissionAdmitted s.dstAddr width f xstep row.length) (hstep : 4 ≤ xstep.toNat)
    (hfits : width.toNat * xstep.toNat ≤ 2 ^ 32) :
    ∃ u, emitRow row width f xstep s = .ok () u ∧ ∀ i < width.toNat, ∃ px, toBgra s.pal sf row i = some px ∧
      BgraLands f px (s.bytesFrom (pixelAddr s.dstAddr xstep i) 4)
        (u.bytesFrom (pixelAddr s.dstAddr xstep i) 4) := by
  obtain ⟨u, hu, -, hlands⟩ := forRange_lands (body := emitBgraPixel sf row f.srcOver xstep)
    (q := pixelAddr s.dstAddr xstep) (m := 4) (n := width.toNat) (s := s)
    (V := fun i vs => ∃ px, toBgra s.pal sf row i = some px ∧
      BgraLands f px (s.bytesFrom (pixelAddr s.dstAddr xstep i) 4) vs)
    (fun i j b hi hj => pixelAddr_disjoint hstep hfits hi hj) (fun {A i t} hi hbus hbefore => by
      obtain ⟨px, hpx⟩ := Option.isSome_iff_exists.mp
        (toBgra_isSome (pal := s.pal) (srcFormatOf_legal hsrc) hlen hi)
      have hpixel : ∀ j < 4, _ := fun j hj => hadm (pixelAddr s.dstAddr xstep i + BitVec.ofNat 32 j)
        (by simp only [emitTarget, hdst]; exact ⟨i, hi, inRun_add _ hj⟩)
      obtain ⟨u, hu, hbus', hlands⟩ := emitBgraPixel_lands (t := t) (f := f) (xstep := xstep) (hbus.pal ▸ hpx)
        (fun j hj => by rw [hbus.platform, hbus.dstAddr]; exact (hpixel j hj).1)
        (fun hover j hj => by rw [hbus.platform, hbus.dstAddr]; exact (hpixel j hj).2 hover)
      rw [hbus.dstAddr] at hbus' hlands
      rw [hbefore] at hlands
      exact ⟨u, hu, hbus', px, hpx, hlands⟩) width.toNat le_rfl
  exact ⟨u, (emitRow_bgra hsrc hdst hconv).trans hu, hlands⟩

end Formats

theorem EmissionFollows.mono {width : Word} {f : Fmt} {xstep : Word} {row : List Byte} {s : State}
    {V W : List BusOp → Prop} (h : EmissionFollows width f xstep row s V) (hVW : ∀ ops, V ops → W ops) :
    EmissionFollows width f xstep row s W :=
  h.imp fun _ ⟨haccess, hreads, hfollow, hV⟩ => ⟨haccess, hreads, hfollow, hVW _ hV⟩

theorem srcOver_of_blend {f : Fmt} : (f.blend = 0#1 → f.srcOver = false) ∧ (f.blend = 1#1 → f.srcOver = true) := by
  constructor <;> intro h <;> rw [Fmt.srcOver, h] <;> rfl

section Admitted

variable {width : Word} {f : Fmt} {m : Nat} {g : Geometry} {sf : SrcFormat} {row : List Byte}

/-- The bytes that a row's accesses move, by destination format. -/
theorem emissionFollows_values (hg : checkConfig width f m = .ok g) (hsrc : srcFormatOf f = some sf)
    (hlen : row.length = g.rowBytes) (xstep : Word) (s : State) :
    EmissionFollows width f xstep row s fun ops =>
      (f.dstFmt = 0#2 → ops.map BusOp.value = row) ∧
      (f.dstFmt = 1#2 → ∀ i < width.toNat, (ops[i]?).map BusOp.value = toY8 sf row i) ∧
      (f.dstFmt = 2#2 → ∀ i < width.toNat, ∃ px, toBgra s.pal sf row i = some px ∧
        (f.blend = 0#1 → ((ops.drop (4 * i)).take 4).map BusOp.value = pixelBytes px) ∧
        (f.blend = 1#1 → ∃ old : Pixel, ((ops.drop (8 * i)).take 8).map BusOp.value
          = pixelBytes old ++ pixelBytes (Config.overFn old px))) := by
  obtain ⟨sf', df, hsrc', hdst, hconv, -, rfl⟩ := checkConfig_ok hg
  cases hsrc.symm.trans hsrc'
  have hother : ∀ {df' : DstFormat} {P : Prop}, df ≠ df' → f.dstFmt = df'.code → P := fun hne h =>
    absurd (DstFormat.code_injective ((dstFmt_of_dstFormatOf hdst).symm.trans h)) hne
  cases df with
  | raw =>
    exact (emissionFollows_raw hsrc hdst hconv).mono fun ops hvalue =>
      ⟨fun _ => hvalue, hother (df' := .y8) (by decide), hother (df' := .bgra) (by decide)⟩
  | y8 =>
    exact (emissionFollows_y8 hsrc hdst hconv hlen).mono fun ops hvalue =>
      ⟨hother (df' := .raw) (by decide), fun _ => hvalue, hother (df' := .bgra) (by decide)⟩
  | bgra =>
    refine (emissionFollows_bgra hsrc hdst hconv hlen).mono fun ops hvalue =>
      ⟨hother (df' := .raw) (by decide), hother (df' := .y8) (by decide), fun _ i hi => ?_⟩
    obtain ⟨px, hpx, hbytes⟩ := hvalue i hi
    refine ⟨px, hpx, fun hblend => ?_, fun hblend => ?_⟩
    · simpa only [BgraValues, srcOver_of_blend.1 hblend, Bool.false_eq_true, if_false] using hbytes
    · simpa only [BgraValues, srcOver_of_blend.2 hblend, if_true] using hbytes

/-- Where an admitted row lands, by destination format. -/
theorem emitRow_lands (hg : checkConfig width f m = .ok g) (hsrc : srcFormatOf f = some sf)
    (hlen : row.length = g.rowBytes) {xstep : Word} {s u : State}
    (hadm : s.emissionAdmitted s.dstAddr width f xstep g.rowBytes)
    (hemit : emitRow row width f xstep s = .ok () u) :
    (f.dstFmt = 0#2 → g.rowBytes ≤ 2 ^ 32 → u.bytesFrom s.dstAddr g.rowBytes = row) ∧
    (f.dstFmt = 1#2 → 1 ≤ xstep.toNat → width.toNat * xstep.toNat ≤ 2 ^ 32 → ∀ i < width.toNat,
      toY8 sf row i = some (Memory.read u.mem (pixelAddr s.dstAddr xstep i).toNat)) ∧
    (f.dstFmt = 2#2 → 4 ≤ xstep.toNat → width.toNat * xstep.toNat ≤ 2 ^ 32 → ∀ i < width.toNat,
      ∃ px, toBgra s.pal sf row i = some px ∧
        (f.blend = 0#1 → u.bytesFrom (pixelAddr s.dstAddr xstep i) 4 = pixelBytes px) ∧
        (f.blend = 1#1 → ∃ old : Pixel, s.bytesFrom (pixelAddr s.dstAddr xstep i) 4 = pixelBytes old ∧
          u.bytesFrom (pixelAddr s.dstAddr xstep i) 4 = pixelBytes (Config.overFn old px))) := by
  obtain ⟨sf', df, hsrc', hdst, hconv, -, hgeom⟩ := checkConfig_ok hg
  cases hsrc.symm.trans hsrc'
  have hrow : row.length = rowLength width sf.bpp := by rw [hlen, hgeom]
  have hother : ∀ {df' : DstFormat} {P : Prop}, df ≠ df' → f.dstFmt = df'.code → P := fun hne h =>
    absurd (DstFormat.code_injective ((dstFmt_of_dstFormatOf hdst).symm.trans h)) hne
  rw [← hlen] at hadm ⊢
  cases df with
  | raw =>
    refine ⟨fun _ hfits => ?_, hother (df' := .y8) (by decide), hother (df' := .bgra) (by decide)⟩
    obtain ⟨u', hu', hlands⟩ := emitRow_raw_lands hsrc hdst hconv hadm hfits
    cases hemit.symm.trans hu'
    exact hlands
  | y8 =>
    refine ⟨hother (df' := .raw) (by decide), fun _ hstep hfits => ?_, hother (df' := .bgra) (by decide)⟩
    obtain ⟨u', hu', hlands⟩ := emitRow_y8_lands hsrc hdst hconv hrow hadm hstep hfits
    cases hemit.symm.trans hu'
    exact hlands
  | bgra =>
    refine ⟨hother (df' := .raw) (by decide), hother (df' := .y8) (by decide), fun _ hstep hfits i hi => ?_⟩
    obtain ⟨u', hu', hlands⟩ := emitRow_bgra_lands hsrc hdst hconv hrow hadm hstep hfits
    cases hemit.symm.trans hu'
    obtain ⟨px, hpx, hbytes⟩ := hlands i hi
    refine ⟨px, hpx, fun hblend => ?_, fun hblend => ?_⟩
    · simpa only [BgraLands, srcOver_of_blend.1 hblend, Bool.false_eq_true, if_false] using hbytes
    · simpa only [BgraLands, srcOver_of_blend.2 hblend, if_true] using hbytes

end Admitted

/-- Settles O55: the accesses of a row by format, and what each format leaves at its pixels. -/
theorem rowsLandPixelByPixel : Obligations.RowsLandPixelByPixel := by
  refine ⟨fun width f m g sf xstep row s hg hsrc hlen => ?_, fun g sf s hg hsrc hread hadm => ?_⟩
  · obtain ⟨ops, haccess, hreads, hfollow, hvalues⟩ := emissionFollows_values hg hsrc hlen xstep s
    refine ⟨ops, hlen ▸ haccess, hreads, hfollow, fun t pre post a v ht hops hpost => ?_, hvalues⟩
    exact follow_lastWrite (hops ▸ hfollow.symm.trans ht) hpost
  · obtain ⟨u, hemit, -, hexec⟩ := exec_swizzleRow_emitted hg hread hadm
    have hlands := emitRow_lands hg hsrc (s.bytesFrom_length s.srcAddr g.rowBytes) hadm hemit
    exact ⟨_, _, rfl, hexec, hlands⟩

end Sys2Proof.Machine

end EmittedRows

/-! ## The encodings written out, steps without a register access, and fault entry (spec/30_encoding.md section 2;
spec/70_reset_and_hazards.md section 1; spec/60_exceptions.md section 2) -/

section SmallRules

namespace Sys2Proof.Machine

/-- A resetting event, either of them, resets the engine. -/
theorem hostEvent_of_reset {e : HostEvent}
    (he : e = .powerOnReset ∨ ∃ v : Word, v.getLsbD 0 = true ∧ e = .write 0x000 .w32 v) (s : State) :
    hostEvent e s = .next s.resetEngine := by
  obtain rfl | ⟨v, hv, rfl⟩ := he
  · rfl
  · exact congrArg Host.Outcome.next (ctrlWrite_softReset hv s)

/-- Settles O6: each word decoded. -/
theorem specWordsDecode : Obligations.SpecWordsDecode := by
  refine ⟨?_, ?_, ?_, ?_, ?_, ?_, ?_⟩ <;> decide

/-- Settles O9: the three kinds of step, each by the event taken. -/
theorem stepWithoutARegisterAccess : Obligations.StepWithoutARegisterAccess := by
  refine fun s => ⟨step_of_inbox_nil, fun a v rest h => ?_, fun e rest he h => ?_⟩
  · exact ⟨_, step_of_inbox h, rfl, fun b => Memory.read_write s.mem a.toNat b v⟩
  · exact ⟨_, (step_of_inbox h).trans (hostEvent_of_reset he _), rfl, rfl, rfl, rfl, rfl⟩

/-- Settles O18: the ten codes, and fault entry with an address and without. -/
theorem faultEntry : Obligations.FaultEntry := by
  refine ⟨fun code => by cases code <;> decide, fun code s => ⟨fun _ => rfl, rfl, fun addr => ⟨?_, fun _ => rfl⟩⟩⟩
  exact Bool.true_and _

end Sys2Proof.Machine

end SmallRules
